-- ==== Sys2Proof/Word.lean ====
section
/-! DEFINITION. The word types of the block (spec/00_scope.md R4, R5, R8). All values are unsigned; bit 0 is
the least significant bit. -/

namespace Sys2Proof

/-- A 32-bit bus word: a register value, a command word, a FREQ count (R5, R82). -/
abbrev Word := BitVec 32

/-- The DATA field of a token, a byte of header text (R117, R118). -/
abbrev Byte := BitVec 8

/-- A node's frequency, W_NODE = 40 bits unsigned (R5, R143). -/
abbrev NodeFreq := BitVec 40

/-- A symbol: a byte value 0..255 or `EOF_SYMBOL` = 256 (R4). The tie value 257 of internal nodes is no symbol. -/
abbrev Sym := Fin 257

end Sys2Proof
end

