-- ==== Sys2Proof/Config.lean ====
section
/-! DEFINITION. What this implementation fixes (spec/00_scope.md R5, spec/10_state.md R31, R32), and the values the
spec leaves open, as opaque constants with no body. -/

namespace Sys2Proof

/-- W_FREQ, the width of a FREQ entry (R5). -/
abbrev Config.freqWidth : Nat := 32

/-- NODE_CAP = 2·257 − 1, the capacity of the node arena (R5). -/
abbrev Config.nodeCap : Nat := 513

/-- MAX_CODE_LEN, the longest code the code table holds (R5). -/
abbrev Config.maxCodeLen : Nat := 256

/-- LINE_MAX, the bytes the line buffer of BUILD_HDR holds (R5). -/
abbrev Config.lineMax : Nat := 256

/-- IDX_NIL, the 16-bit node index that means "no node" (R5). -/
abbrev Config.idxNil : BitVec 16 := 0xFFFF#16

/-- `EOF_SYMBOL` (R4). -/
abbrev Config.eofSym : Sym := 256

/-- The tie value of an internal node (R4), in the 9 bits of a SYM field. -/
abbrev Config.tieInternal : Nat := 257

/-- The constant ID reads (R31). -/
abbrev Config.idWord : Word := 0x48554646#32

/-- The constant PARAMS reads, `W_FREQ | (NODE_CAP << 8)` (R32). -/
abbrev Config.paramsWord : Word := 0x00020120#32

/-- FREE VALUE (log entries 2 and 3): the n-th value the block draws where the spec says a value is unspecified:
a readback register while BUSY (R67, 93 S3), a FREQ entry after a reset move (R57, R270, 93 S1). No claim may rest on it. -/
opaque Config.freeWord : Nat → Word

/-- The platform's parameter HCE_BASE, the address of the register window (R89, 93 S9; log entry 5). -/
opaque Config.hceBase : Nat

/-- The byte string the implementer picks to name `EOF_SYMBOL` in header text (R5, 93 U9; log entry 4): free, and
not yet constrained by R6. -/
opaque Config.markerChoice : List Byte

end Sys2Proof
end

