-- ==== Sys2Proof/Syntax.lean ====
section
/-! DEFINITION. The syntax: the nine commands (spec/30_encoding.md R112), the tokens of the two ports (R117, R118),
the host-visible registers (spec/20_memory.md R81) and the moves of the agents around the engine (R92, R98, R124). -/

namespace Sys2Proof

/-- The commands of the opcode map (R112), one constructor per row of spec/opcode_table.json. A command word has no
operand fields and no immediates (R111). -/
inductive Instr where
  /-- NOP, opcode 0x00 (R230). -/
  | nop
  /-- CLR_FREQ, opcode 0x01 (R142). -/
  | clrFreq
  /-- BUILD_FREQ, opcode 0x02 (R144). -/
  | buildFreq
  /-- BUILD_HDR, opcode 0x03 (R160). -/
  | buildHdr
  /-- GEN_TABLE, opcode 0x04 (R180). -/
  | genTable
  /-- COMPRESS, opcode 0x05 (R195). -/
  | compress
  /-- DECOMPRESS, opcode 0x06 (R210). -/
  | decompress
  /-- EMIT_HDR, opcode 0x07 (R183). -/
  | emitHdr
  /-- DISCARD, opcode 0x08 (R231). -/
  | discard
deriving DecidableEq, Repr

/-- An SRC token (R117): END = 1 is the end-of-stream sentinel and its DATA is ignored. -/
structure SrcToken where
  isEnd : Bool
  data  : Byte
deriving DecidableEq, Repr

/-- The token written `d:v` (R117). -/
def SrcToken.d (v : Byte) : SrcToken := ⟨false, v⟩

/-- The token written `END` (R117), with DATA 0. -/
def SrcToken.eos : SrcToken := ⟨true, 0⟩

/-- An SNK token (R118): CLOSE = 1 is the source's `close()` and has DATA = 0. -/
structure SnkToken where
  isClose : Bool
  data    : Byte
deriving DecidableEq, Repr

/-- The token written `d:v` (R118). -/
def SnkToken.d (v : Byte) : SnkToken := ⟨false, v⟩

/-- The token written `CLOSE` (R118). -/
def SnkToken.closing : SnkToken := ⟨true, 0⟩

/-- The registers of the map of R81, and the reserved offsets of R83. -/
inductive Reg where
  | id | params | cmd | status | errCause | errInfo | treeRoot | nodeCount | inCount | outCount
  | ctSel | ctInfo | nodeSel | nodeInfo | nodeFreqLo | nodeFreqHi | nodeLinks
  | ctWord (k : Fin 8)
  | freq (s : Fin 256)
  | reserved
deriving DecidableEq, Repr

/-- An action of an agent around the engine (R7, R98): the host, the source, the sink or the platform. A host access
carries its byte offset from HCE_BASE and its width in bytes (R9, R82). -/
inductive Action where
  /-- The host's `MemWrite(off, width, v)` (R9, R98). -/
  | write (off width : Nat) (v : Word)
  /-- The host's `MemRead(off, width)` (R9, R98). -/
  | read (off width : Nat)
  /-- The host's pseudo-instruction `WAIT` (R125). -/
  | wait
  /-- The source offers one more token on SRC (R90, R98). -/
  | offer (t : SrcToken)
  /-- The source withdraws the tokens not yet taken: the drain of R98 and R278. -/
  | drain
  /-- The sink begins (true) or ceases (false) to accept tokens (R90). -/
  | sink (ready : Bool)
  /-- The platform sets `src_present` and `snk_present` (R91). -/
  | presence (srcPresent snkPresent : Bool)
  /-- The reset input, as one atomic step (R270). -/
  | reset
deriving DecidableEq, Repr

/-- One move of the interleaving of R92: the engine's turn, or an action of an agent around it. -/
inductive Move where
  | engine
  | act (a : Action)
deriving DecidableEq, Repr

end Sys2Proof
end

