-- ==== Sys2Proof/WellFormed.lean ====
section
/-! DEFINITION. What is well formed: a command word (spec/30_encoding.md R110, R114), a host access
(spec/20_memory.md R82), the parameter EOF_MARKER_TEXT (spec/00_scope.md R6). -/

namespace Sys2Proof

/-- A command has no operand, so every term of `Instr` is well formed (R111). -/
abbrev Instr.Wf (_ : Instr) : Prop := True

/-- R110: bits [31:8] of a command word must be 0. -/
def Wf.reservedClear (w : Word) : Bool := w.extractLsb' 8 24 == 0

/-- R112: the OPCODE field is one of 0x00..0x08. -/
def Wf.opcodeListed (w : Word) : Bool := w.extractLsb' 0 8 ≤ 8#8

/-- A legal command word (R110, R114). -/
def Wf.commandWord (w : Word) : Bool := Wf.reservedClear w && Wf.opcodeListed w

/-- R82: the only defined host access is 32 bits wide, at a multiple of 4, in 0x000–0x7FF. -/
def Wf.access (off width : Nat) : Bool := width == 4 && off % 4 == 0 && decide (off < 0x800)

/-- An ASCII digit (R11, R121). -/
def Wf.isDigit (b : Byte) : Bool := decide (0x30 ≤ b.toNat) && decide (b.toNat ≤ 0x39)

/-- R6: the length of the marker is 1..LINE_MAX. -/
def Wf.markerLength (m : List Byte) : Bool := decide (1 ≤ m.length) && decide (m.length ≤ Config.lineMax)

/-- R6: the marker holds no line terminator. -/
def Wf.markerOneLine (m : List Byte) : Bool := m.all (· != 0x0A#8)

/-- R6: the marker is not 1–3 ASCII digits. -/
def Wf.markerNoKey (m : List Byte) : Bool := !(decide (m.length ≤ 3) && m.all Wf.isDigit)

/-- R6, all of it. -/
def Wf.marker (m : List Byte) : Bool := Wf.markerLength m && Wf.markerOneLine m && Wf.markerNoKey m

/-- EOF_MARKER_TEXT (R5, R6): the implementer's free choice where it is legal. A marker that breaks R6 is outside the
spec, so the constant is legal by construction; which legal string it is, nothing can prove (log entry 4). -/
def Config.eofMarkerText : List Byte :=
  if Wf.marker Config.markerChoice then Config.markerChoice else [0x45#8, 0x4F#8, 0x46#8]

end Sys2Proof
end

