-- ==== Sys2Proof/Decode.lean ====
section
/-! DEFINITION. Decoding a command word, total, rejecting by name, and the encoder beside it (spec/30_encoding.md
R110, R112, R114). The word is taken whole from one CMD write (R95, R110): it is not fetched from bytes, so there is no
byte order here (spec/20_memory.md R86). -/

namespace Sys2Proof

/-- Why a word is no command (R114). -/
inductive DecodeError where
  /-- A bit of RSVD [31:8] is set. -/
  | reservedBits
  /-- OPCODE is 0x09–0xFF. -/
  | reservedOpcode
deriving DecidableEq, Repr

/-- The OPCODE field, bits [7:0] of a command word (R110). -/
def opcodeField (w : Word) : BitVec 8 := w.extractLsb' 0 8

/-- The RSVD field, bits [31:8] of a command word (R110). -/
def reservedField (w : Word) : BitVec 24 := w.extractLsb' 8 24

/-- The opcode map (R112), from opcode to command. -/
def commandOf (op : BitVec 8) : Option Instr :=
  match op.toNat with
  | 0x00 => some .nop
  | 0x01 => some .clrFreq
  | 0x02 => some .buildFreq
  | 0x03 => some .buildHdr
  | 0x04 => some .genTable
  | 0x05 => some .compress
  | 0x06 => some .decompress
  | 0x07 => some .emitHdr
  | 0x08 => some .discard
  | _ => none

/-- The command a word selects, or why it selects none (R112, R114). -/
def decode (w : Word) : Except DecodeError Instr :=
  if reservedField w ≠ 0 then .error .reservedBits
  else match commandOf (opcodeField w) with
    | some i => .ok i
    | none => .error .reservedOpcode

/-- The opcode map (R112), from command to opcode. -/
def opcodeOf : Instr → BitVec 8
  | .nop => 0x00#8
  | .clrFreq => 0x01#8
  | .buildFreq => 0x02#8
  | .buildHdr => 0x03#8
  | .genTable => 0x04#8
  | .compress => 0x05#8
  | .decompress => 0x06#8
  | .emitHdr => 0x07#8
  | .discard => 0x08#8

/-- The full word of a command is `zext_32(OPCODE)` (R112). -/
def encode (i : Instr) : Word := (opcodeOf i).setWidth 32

/-- The bits `w` of a table row of `nbits` bits as a command word, `none` where they do not fit the one 32-bit
format (R110). Bits above `nbits` are 0. -/
def tableWord (nbits w : Nat) : Option Word :=
  if w % 2 ^ nbits < 2 ^ 32 then some (BitVec.ofNat 32 (w % 2 ^ nbits)) else none

/-- The command this decoder reads from a table row's bits. -/
def decodeTableWord (nbits w : Nat) : Option Instr :=
  match tableWord nbits w with
  | some v =>
    match decode v with
    | .ok i => some i
    | .error _ => none
  | none => none

end Sys2Proof
end

