-- ==== Sys2Proof/Machine/State.lean ====
section
/-! DEFINITION. The state of the block as plain data (spec/10_state.md R30, R60), the reasons the model can stop, and
the state after reset (spec/70_reset_and_hazards.md R270). -/

namespace Sys2Proof.Machine

/-- A reason the MODEL stops in a state that no run reaches. (The faults of spec/60_exceptions.md are no stops: they
are next states with ERR_CAUSE written, R245.) -/
inductive Fault where
  /-- Raised by GEN_TABLE, BUILD_HDR and DECOMPRESS where a node index they follow is not an allocated arena entry, or
  the links do not end: R97 says this never occurs. Safe: the model stops (log entry 16). -/
  | arenaCorrupt
  /-- Raised by COMPRESS and EMIT_HDR where their position lies outside the code or text they emit (R65): no run holds
  such a position. Safe: the model stops (log entry 16). -/
  | cursorOutOfRange
deriving DecidableEq, Repr

/-- An event to which the model gives no step. -/
inductive Refusal where
  /-- Raised by exec's arm of an instruction that has no meaning yet. No arm of this model uses it. Safe. -/
  | notModelled (mnemonic : String)
  /-- Raised by a host access of another width, alignment or offset than R82's: "a model refuses it (it has no meaning
  and no step)" (R82, 93 S4). Safe (log entry 17). -/
  | undefinedAccess
  /-- Raised by a change of `src_present` or `snk_present` while BUSY = 1: "a model has no move for it" (R280, 93 S5).
  Safe (log entry 17). -/
  | presenceChangedWhileBusy
deriving DecidableEq, Repr

/-- A node of the arena, the "explicit tagged variant" of R58. `freq` is FREQ together with FREQ_KNOWN: `none` is the
"don't care" placeholder of a node rebuilt from a header (FREQ_KNOWN = 0, R55, R172). A child is an arena index, `none`
is IDX_NIL. A leaf has no children and an internal node's SYM is 257 (R58), so neither is stored. -/
inductive Node where
  | leaf (sym : Sym) (freq : Option NodeFreq)
  | internal (freq : Option NodeFreq) (left right : Option Nat)
deriving DecidableEq, Repr

/-- An entry of the code table (R59): VALID, and the code c[0] c[1] …; LEN is the length of `code` (log entry 15). -/
structure CtEntry where
  valid : Bool
  code  : List Bool
deriving DecidableEq, Repr

/-- The working state of BUILD_HDR (R64). -/
structure HdrState where
  /-- LB, the line buffer. -/
  lb      : List Byte
  /-- LB_OVF: a byte arrived when LB was full. -/
  ovf     : Bool
  /-- LB_BAD: a byte other than 0x30/0x31 arrived. -/
  bad     : Bool
  /-- LN: lines completed. -/
  ln      : Word
  /-- PK: the symbol of a key line whose code line has not yet arrived. -/
  pk      : Sym
  /-- PRESENT[0..256]: the symbols already placed. -/
  present : Vector Bool 257
deriving DecidableEq, Repr

/-- The hidden phase (R60): IDLE, or RUN(op, locals) with the working state of the running command (R62 to R65). -/
inductive Phase where
  | idle
  /-- RUN(op, START): accepted, start check not yet run (R113). -/
  | start (op : Instr)
  /-- BUILD_HDR in its LOOP (R160). -/
  | hdr (h : HdrState)
  /-- COMPRESS about to take the next input byte (R195). -/
  | compTake
  /-- COMPRESS about to put bit `i` of the code of `sym` (R65, R195). -/
  | compPut (sym : Sym) (i : Nat)
  /-- COMPRESS about to put CLOSE (R197). -/
  | compClose
  /-- DECOMPRESS on the general path, root `r`, traversal pointer `p` (R63, R213). -/
  | decGeneral (r p : Nat)
  /-- DECOMPRESS on the degenerate path (R212). -/
  | decDegenerate (r : Nat)
  /-- DECOMPRESS at STOP with its reason (R215). -/
  | decStop (reason : Bool)
  /-- EMIT_HDR about to put byte `pos` of the text of `sym`'s pair (R65, R183). -/
  | emitPut (sym : Sym) (pos : Nat)
  /-- EMIT_HDR about to put CLOSE (R183). -/
  | emitClose
deriving DecidableEq, Repr

/-- The state: the host-visible registers and files (R30), the hidden phase (R60), the two ports and the inputs of the
block (R90, R91), and the model's own fields. STATUS.BUSY is the phase (R60) and NODE_COUNT is the length of the arena
(log entry 14); ID, PARAMS and CMD hold nothing (R31 to R33). -/
structure State where
  /-- STATUS.FAULT (R36). -/
  fault      : Bool
  /-- STATUS.TREE_VALID (R37). -/
  treeValid  : Bool
  /-- STATUS.CT_VALID (R38). -/
  ctValid    : Bool
  /-- STATUS.TREE_MODE: false built by BUILD_FREQ, true by BUILD_HDR (R39). -/
  treeMode   : Bool
  /-- STATUS.END_REASON (R40). -/
  endReason  : Bool
  /-- STATUS.MIDCODE (R41). -/
  midcode    : Bool
  /-- STATUS.OVERRUN (R42). -/
  overrun    : Bool
  /-- STATUS.LAST_OP (R43). -/
  lastOp     : BitVec 8
  /-- ERR_CAUSE (R44). -/
  errCause   : Word
  /-- ERR_INFO (R45). -/
  errInfo    : Word
  /-- ROOT, `none` is IDX_NIL (R46). -/
  root       : Option Nat
  /-- NODE[0..NODE_COUNT−1] (R47, R58). -/
  arena      : List Node
  /-- IN_COUNT (R48). -/
  inCount    : Word
  /-- OUT_COUNT (R49). -/
  outCount   : Word
  /-- CT_SEL.SEL (R50). -/
  ctSel      : BitVec 9
  /-- NODE_SEL.NSEL (R53). -/
  nodeSel    : BitVec 16
  /-- FREQ[0..255] (R57). -/
  freq       : Vector Word 256
  /-- CT[0..256] (R59). -/
  ct         : Vector CtEntry 257
  /-- The hidden phase (R60). -/
  phase      : Phase
  /-- SRC: tokens offered and not yet taken, oldest first (R90). -/
  src        : List SrcToken
  /-- SNK: tokens the sink has accepted, oldest first (R90, R124). -/
  snk        : List SnkToken
  /-- The input `src_present` (R91). -/
  srcPresent : Bool
  /-- The input `snk_present` (R91). -/
  snkPresent : Bool
  /-- Whether the sink accepts a token now (R90; log entry 10). -/
  snkReady   : Bool
  /-- MODEL: the parameter EOF_MARKER_TEXT (R5, R6; log entry 4). No step writes it. -/
  marker     : List Byte
  /-- MODEL: the moves still to be made, in the order of the interleaving (R92; log entry 6). -/
  moves      : List Move
  /-- MODEL: the values host reads have returned, oldest first (R124; log entry 18). -/
  reads      : List Word
  /-- MODEL: how many free values have been drawn (log entry 3). -/
  draws      : Nat
deriving DecidableEq, Repr

/-- An invalid code-table entry (R59). -/
def CtEntry.empty : CtEntry := ⟨false, []⟩

/-- The state after reset (R270) with the FREQ contents, which the spec leaves unspecified, and EOF_MARKER_TEXT, which
it takes as a parameter, given; the ports empty, both attached and the sink accepting (95 L3; log entry 9). -/
def State.afterReset (freq : Vector Word 256) (marker : List Byte) : State where
  fault := false
  treeValid := false
  ctValid := false
  treeMode := false
  endReason := false
  midcode := false
  overrun := false
  lastOp := 0
  errCause := 0
  errInfo := 0
  root := none
  arena := []
  inCount := 0
  outCount := 0
  ctSel := 0
  nodeSel := 0
  freq := freq
  ct := Vector.replicate 257 CtEntry.empty
  phase := .idle
  src := []
  snk := []
  srcPresent := true
  snkPresent := true
  snkReady := true
  marker := marker
  moves := []
  reads := []
  draws := 0

/-- The machine right after reset (R270). FREQ is unspecified there; this state takes 0 for every entry (DESIGN CHOICE,
unsafe, log entry 1). -/
def State.reset : State := State.afterReset (Vector.replicate 256 0) Config.eofMarkerText

end Sys2Proof.Machine
end

