-- ==== Sys2Proof/Machine/Flags.lean ====
section
/-! DEFINITION. The flags: BUSY from the phase and the STATUS word (spec/10_state.md R34, R35, R60). -/

namespace Sys2Proof.Machine

/-- The command the engine is running, `none` in IDLE (R60). -/
def Phase.command : Phase → Option Instr
  | .idle => none
  | .start op => some op
  | .hdr _ => some .buildHdr
  | .compTake => some .compress
  | .compPut _ _ => some .compress
  | .compClose => some .compress
  | .decGeneral _ _ => some .decompress
  | .decDegenerate _ => some .decompress
  | .decStop _ => some .decompress
  | .emitPut _ _ => some .emitHdr
  | .emitClose => some .emitHdr

/-- STATUS.BUSY: "BUSY = 1 exactly when the phase is not IDLE" (R60). -/
def State.busy (s : State) : Bool := s.phase.command.isSome

/-- The word STATUS reads (R34): LAST_OP in [15:8], OVERRUN 7, MIDCODE 6, END_REASON 5, TREE_MODE 4, CT_VALID 3,
TREE_VALID 2, FAULT 1, BUSY 0. -/
def statusWord (s : State) : Word :=
  0#16 ++ s.lastOp ++ BitVec.ofBool s.overrun ++ BitVec.ofBool s.midcode ++ BitVec.ofBool s.endReason
    ++ BitVec.ofBool s.treeMode ++ BitVec.ofBool s.ctValid ++ BitVec.ofBool s.treeValid ++ BitVec.ofBool s.fault
    ++ BitVec.ofBool s.busy

end Sys2Proof.Machine
end

