-- ==== Sys2Proof/Machine/Operands.lean ====
section
/-! DEFINITION. The operands a command reads: symbols and tokens, the fields of a node (spec/10_state.md R58), an entry
of the code table (R59), the key and code of a header line (spec/41_header_build.md R165, R168) and the text of a header
pair (spec/30_encoding.md R123, spec/42_table.md R184). -/

namespace Sys2Proof.Machine

/-- The symbol of a byte value (R4). -/
def symOfByte (b : Byte) : Sym := ⟨b.toNat, Nat.lt_of_lt_of_le b.isLt (by decide)⟩

/-- `SYM[7:0]` (R212, R213). -/
def byteOfSym (y : Sym) : Byte := BitVec.ofNat 8 y.val

/-- The DATA of a code-bit token, 0x00 or 0x01 (R119). -/
def bitData (b : Bool) : Byte := if b then 0x01#8 else 0x00#8

/-- The bit an SRC token carries: DATA[0], DATA[7:1] ignored (R218). -/
def tokenBit (t : SrcToken) : Bool := t.data.getLsbD 0

/-- KIND: 0 Leaf, 1 Internal (R58). -/
def Node.kind : Node → Bool
  | .leaf _ _ => false
  | .internal _ _ _ => true

/-- SYM: a leaf's symbol, 257 for an internal node (R58). -/
def Node.sym : Node → Nat
  | .leaf y _ => y.val
  | .internal _ _ _ => Config.tieInternal

/-- FREQ and FREQ_KNOWN together; `none` is the placeholder (R55). -/
def Node.freq : Node → Option NodeFreq
  | .leaf _ f => f
  | .internal f _ _ => f

/-- FREQ_KNOWN (R58). -/
def Node.freqKnown (n : Node) : Bool := n.freq.isSome

/-- FREQ; a node with FREQ_KNOWN = 0 holds 2^40 − 1 (R55). -/
def Node.freqBits (n : Node) : NodeFreq := n.freq.getD (BitVec.allOnes 40)

/-- LEFT; IDX_NIL for a leaf (R58). -/
def Node.left : Node → Option Nat
  | .leaf _ _ => none
  | .internal _ l _ => l

/-- RIGHT; IDX_NIL for a leaf (R58). -/
def Node.right : Node → Option Nat
  | .leaf _ _ => none
  | .internal _ _ r => r

/-- The child a bit selects: LEFT on 0, RIGHT on 1 (R10, R213). -/
def Node.child (n : Node) (bit : Bool) : Option Nat := if bit then n.right else n.left

/-- A node index as its 16-bit field, IDX_NIL for no node (R5, R46, R56). -/
def idxBits : Option Nat → BitVec 16
  | none => Config.idxNil
  | some i => BitVec.ofNat 16 i

/-- R211: the root is degenerate iff it is a leaf or a child of it is absent. -/
def Node.degenerate (n : Node) : Bool := !n.kind || n.left.isNone || n.right.isNone

/-- CT[y] (R59, R97). -/
def ctEntry (s : State) (y : Sym) : CtEntry := s.ct[y.val]

/-- FREQ[b] (R57, R97). -/
def freqEntry (s : State) (b : Fin 256) : Word := s.freq[b.val]

/-- `dec_value` (R165). -/
def decValue (l : List Byte) : Nat := l.foldl (fun n b => 10 * n + (b.toNat - 0x30)) 0

/-- `is_dec_key` (R165): 1 to 3 ASCII digits of value at most 255. -/
def isDecKey (l : List Byte) : Bool :=
  decide (1 ≤ l.length) && decide (l.length ≤ 3) && l.all Wf.isDigit && decide (decValue l ≤ 255)

/-- The symbol a key line names, `none` for a bad key (R164): the marker byte for byte, or a decimal key; a line that
overflowed the buffer names none. -/
def keySym (marker lb : List Byte) (ovf : Bool) : Option Sym :=
  if !ovf && lb == marker then some Config.eofSym
  else if !ovf && isDecKey lb then some (Fin.ofNat 257 (decValue lb))
  else none

/-- The bits of a code line: 0x30 is 0, 0x31 is 1 (R122, R168). -/
def codeBits (lb : List Byte) : List Bool := lb.map (· == 0x31#8)

/-- The ASCII digit of a value below 10 (R11). -/
def digitByte (n : Nat) : Byte := BitVec.ofNat 8 (0x30 + n)

/-- `dec(s)` (R184): the shortest decimal string, no leading zero. -/
def decText (n : Nat) : List Byte :=
  if n < 10 then [digitByte n]
  else if n < 100 then [digitByte (n / 10), digitByte (n % 10)]
  else [digitByte (n / 100), digitByte (n / 10 % 10), digitByte (n % 10)]

/-- The key line of a symbol, without its terminator (R123): `dec` of a byte, the marker for `EOF_SYMBOL`. -/
def keyText (marker : List Byte) (y : Sym) : List Byte :=
  if y = Config.eofSym then marker else decText y.val

/-- The code line of a code, without its terminator (R122, R183). -/
def codeText (code : List Bool) : List Byte := code.map (fun b => if b then 0x31#8 else 0x30#8)

/-- The pair of lines EMIT_HDR puts for one entry (R123, R183). -/
def pairText (marker : List Byte) (y : Sym) (code : List Bool) : List Byte :=
  keyText marker y ++ [0x0A#8] ++ codeText code ++ [0x0A#8]

end Sys2Proof.Machine
end

