-- ==== Sys2Proof/Machine/Ops.lean ====
section
/-! DEFINITION. The operations the commands share: raising a fault and the acceptance that clears it
(spec/60_exceptions.md R245, R249, spec/30_encoding.md R113), taking and putting tokens (spec/20_memory.md R90), dropping
the tree and the table (spec/10_state.md R38), completing a command, reset (spec/70_reset_and_hazards.md R270). -/

namespace Sys2Proof.Machine

/-- What one engine step answers. -/
abbrev Answer := Host.Outcome State Fault Refusal

/-- The fault causes of R240. -/
inductive Cause where
  | emptyFreqTable | invalidStream | invalidHeader | emptyTree | noTable | unknownSymbol | decodeNullChild
  | malformedTree | badCommand
deriving DecidableEq, Repr

/-- The subcauses of INVALID_HEADER (R241); `zero` is the SUB of every other cause. -/
inductive SubCause where
  | zero | unpaired | badKey | badCodeChar | codeTooLong | dupKey | collision | arenaFull
deriving DecidableEq, Repr

/-- The code of a cause in ERR_CAUSE[7:0] (R240). -/
def causeCode : Cause → Word
  | .emptyFreqTable => 0x01#32
  | .invalidStream => 0x02#32
  | .invalidHeader => 0x03#32
  | .emptyTree => 0x04#32
  | .noTable => 0x05#32
  | .unknownSymbol => 0x06#32
  | .decodeNullChild => 0x07#32
  | .malformedTree => 0x08#32
  | .badCommand => 0x09#32

/-- The code of a subcause in ERR_CAUSE[15:8] (R241). -/
def subCode : SubCause → Word
  | .zero => 0x00#32
  | .unpaired => 0x01#32
  | .badKey => 0x02#32
  | .badCodeChar => 0x03#32
  | .codeTooLong => 0x04#32
  | .dupKey => 0x05#32
  | .collision => 0x06#32
  | .arenaFull => 0x07#32

/-- `raise Fault(cause, sub, info)` (R245): the fault registers, FAULT, and the engine IDLE, which is BUSY = 0. A
command's own cleanup (R174) is its own. -/
def raiseFault (c : Cause) (sub : SubCause) (info : Word) (s : State) : State :=
  { s with errCause := causeCode c ||| (subCode sub <<< 8), errInfo := info, fault := true, phase := .idle }

/-- A command completes: BUSY 0, phase IDLE (R35, R283). -/
def finish (s : State) : State := { s with phase := .idle }

/-- What acceptance clears and writes, whatever the word (R113, R249): the return from a fault. -/
def clearForAccept (w : Word) (s : State) : State :=
  { s with fault := false, errCause := 0, errInfo := 0, inCount := 0, outCount := 0, lastOp := opcodeField w }

/-- Acceptance of a command word while BUSY = 0 (R113, R114). -/
def accept (w : Word) (s : State) : State :=
  match decode w with
  | .ok i => { clearForAccept w s with phase := .start i }
  | .error _ => raiseFault .badCommand .zero w (clearForAccept w s)

/-- `take()`: the oldest token leaves SRC, `rest` stays (R9, R90). -/
def takeToken (rest : List SrcToken) (s : State) : State := { s with src := rest }

/-- IN_COUNT counts a taken token with END = 0, modulo 2^32 (R48). -/
def countIn (s : State) : State := { s with inCount := s.inCount + 1 }

/-- `put(d:b)` and the OUT_COUNT it adds, modulo 2^32 (R9, R49). -/
def putData (b : Byte) (s : State) : State :=
  { s with snk := s.snk ++ [SnkToken.d b], outCount := s.outCount + 1 }

/-- `put(CLOSE)`, not counted (R49, R118). -/
def putClose (s : State) : State := { s with snk := s.snk ++ [SnkToken.closing] }

/-- ERR_INFO of INVALID_STREAM: bit 0 source absent, bit 1 sink absent (R242). -/
def portsAbsent (srcAbsent snkAbsent : Bool) : Word :=
  (if srcAbsent then 1#32 else 0#32) ||| (if snkAbsent then 2#32 else 0#32)

/-- Every VALID of the code table cleared (R38). -/
def clearValid (ct : Vector CtEntry 257) : Vector CtEntry 257 :=
  Vector.ofFn fun y => { ct[y.val] with valid := false }

/-- CT_VALID cleared, and with it every VALID (R38). -/
def dropTable (s : State) : State := { s with ctValid := false, ct := clearValid s.ct }

/-- The tree and the table are discarded: what BUILD_FREQ, BUILD_HDR and DISCARD begin with (R144, R160, R231). -/
def dropTree (s : State) : State := { dropTable s with treeValid := false, root := none, arena := [] }

/-- The 256 FREQ entries a reset move leaves: free draws (R57, R270, 93 S1; log entry 2). -/
def drawnFreq (n : Nat) : Vector Word 256 := Vector.ofFn fun b => Config.freeWord (n + b.val)

/-- The reset input (R270): every piece of the block's state at its reset value, FREQ drawn; the tokens on SRC and SNK,
the presence inputs and the other agents stay as they are. -/
def hardReset (s : State) : State :=
  { State.afterReset (drawnFreq s.draws) s.marker with
    src := s.src, snk := s.snk, srcPresent := s.srcPresent, snkPresent := s.snkPresent, snkReady := s.snkReady,
    moves := s.moves, reads := s.reads, draws := s.draws + 256 }

end Sys2Proof.Machine
end

