-- ==== Sys2Proof/Machine/Compress.lean ====
section
/-! DEFINITION. The streaming compressor COMPRESS (spec/43_compress.md R195 to R199). -/

namespace Sys2Proof.Machine

/-- START of COMPRESS: the checks in the order of R196. -/
def compressStart (s : State) : Answer :=
  if !s.srcPresent || !s.snkPresent then
    .next (raiseFault .invalidStream .zero (portsAbsent (!s.srcPresent) (!s.snkPresent)) s)
  else if !s.ctValid then .next (raiseFault .noTable .zero 0xFFFFFFFF#32 s)
  else if !(ctEntry s Config.eofSym).valid then .next (raiseFault .noTable .zero 256#32 s)
  else .next { s with phase := .compTake }

/-- Where COMPRESS goes before bit `i` of the code of `y`: to put it, or, past the code's end, to the next byte, or to
CLOSE after the `EOF_SYMBOL` code (R195, R197). -/
def compNext (s : State) (y : Sym) (i : Nat) : Phase :=
  if i < (ctEntry s y).code.length then .compPut y i
  else if y = Config.eofSym then .compClose
  else .compTake

/-- COMPRESS takes a token (R195, R197, R198); it holds while SRC offers none (R276). -/
def compressTake (s : State) : Answer :=
  match s.src with
  | [] => .next s
  | t :: rest =>
    if t.isEnd then .next { takeToken rest s with phase := compNext s Config.eofSym 0 }
    else if !(ctEntry s (symOfByte t.data)).valid then
      .next (raiseFault .unknownSymbol .zero (t.data.setWidth 32) (countIn (takeToken rest s)))
    else .next { countIn (takeToken rest s) with phase := compNext s (symOfByte t.data) 0 }

/-- COMPRESS puts bit `i` of the code of `y` (R87, R195); it holds while the sink does not accept (R281). -/
def compressPut (y : Sym) (i : Nat) (s : State) : Answer :=
  match (ctEntry s y).code[i]? with
  | none => .fault .cursorOutOfRange
  | some b =>
    if s.snkReady then .next { putData (bitData b) s with phase := compNext s y (i + 1) } else .next s

/-- COMPRESS puts CLOSE and completes (R197). -/
def compressClose (s : State) : Answer := if s.snkReady then .next (finish (putClose s)) else .next s

/-- COMPRESS, one engine step (R195). -/
def execCompress (s : State) : Answer :=
  match s.phase with
  | .compTake => compressTake s
  | .compPut y i => compressPut y i s
  | .compClose => compressClose s
  | _ => compressStart s

end Sys2Proof.Machine
end

