-- ==== Sys2Proof/Machine/Control.lean ====
section
/-! DEFINITION. The control commands NOP and DISCARD (spec/45_control.md R230, R231). -/

namespace Sys2Proof.Machine

/-- NOP (R230). -/
def execNop (s : State) : Answer := .next (finish { s with overrun := false })

/-- DISCARD (R231). -/
def execDiscard (s : State) : Answer := .next (finish (dropTree s))

end Sys2Proof.Machine
end

