-- ==== Sys2Proof/Machine/Decompress.lean ====
section
/-! DEFINITION. The streaming decompressor DECOMPRESS (spec/44_decompress.md R210 to R219). -/

namespace Sys2Proof.Machine

/-- START of DECOMPRESS: the checks in the order of R219, then the path the root selects (R210, R211). -/
def decompressStart (s : State) : Answer :=
  if !s.srcPresent || !s.snkPresent then
    .next (raiseFault .invalidStream .zero (portsAbsent (!s.srcPresent) (!s.snkPresent)) s)
  else if !s.treeValid then .next (raiseFault .emptyTree .zero 0 s)
  else match s.root with
    | none => .fault .arenaCorrupt
    | some r =>
      match s.arena[r]? with
      | none => .fault .arenaCorrupt
      | some n => .next { s with
          endReason := false, midcode := false
          phase := if n.degenerate then .decDegenerate r else .decGeneral r r }

/-- A token that carries a bit is taken and counted (R212, R213). -/
def takeBit (rest : List SrcToken) (s : State) : State := countIn (takeToken rest s)

/-- ERR_INFO of DECODE_NULL_CHILD, `p | (bit << 16)` (R214). -/
def nullChildInfo (p : Nat) (bit : Bool) : Word :=
  BitVec.ofNat 32 p ||| ((if bit then 1#32 else 0#32) <<< 16)

/-- The degenerate path, one step per SRC token (R212). The step that puts needs both ports (log entry 11). -/
def decDegenerateStep (r : Nat) (s : State) : Answer :=
  match s.src with
  | [] => .next s
  | t :: rest =>
    if t.isEnd then .next { takeToken rest s with phase := .decStop true }
    else match s.arena[r]? with
      | none => .fault .arenaCorrupt
      | some (.internal _ _ _) =>
        .next (raiseFault .malformedTree .zero (BitVec.ofNat 32 r) (takeBit rest s))
      | some (.leaf y _) =>
        if y = Config.eofSym then .next { takeBit rest s with phase := .decStop false }
        else if s.snkReady then .next (putData (byteOfSym y) (takeBit rest s))
        else .next s

/-- The general path, one step per SRC token (R213, R214). The step that puts needs both ports (log entry 11). -/
def decGeneralStep (r p : Nat) (s : State) : Answer :=
  match s.src with
  | [] => .next s
  | t :: rest =>
    if t.isEnd then .next { takeToken rest s with midcode := decide (p ≠ r), phase := .decStop true }
    else match s.arena[p]? with
      | none => .fault .arenaCorrupt
      | some n =>
        match n.child (tokenBit t) with
        | none =>
          .next (raiseFault .decodeNullChild .zero (nullChildInfo p (tokenBit t)) (takeBit rest s))
        | some c =>
          match s.arena[c]? with
          | none => .fault .arenaCorrupt
          | some (.internal _ _ _) => .next { takeBit rest s with phase := .decGeneral r c }
          | some (.leaf y _) =>
            if y = Config.eofSym then .next { takeBit rest s with phase := .decStop false }
            else if s.snkReady then
              .next { putData (byteOfSym y) (takeBit rest s) with phase := .decGeneral r r }
            else .next s

/-- STOP: END_REASON, CLOSE, completion (R215); it holds while the sink does not accept (R281). -/
def decStopStep (reason : Bool) (s : State) : Answer :=
  if s.snkReady then .next (finish (putClose { s with endReason := reason })) else .next s

/-- DECOMPRESS, one engine step (R210). -/
def execDecompress (s : State) : Answer :=
  match s.phase with
  | .decGeneral r p => decGeneralStep r p s
  | .decDegenerate r => decDegenerateStep r s
  | .decStop reason => decStopStep reason s
  | _ => decompressStart s

end Sys2Proof.Machine
end

