-- ==== Sys2Proof/Machine/FreqBuild.lean ====
section
/-! DEFINITION. CLR_FREQ and the tree builder's frequency mode, BUILD_FREQ (spec/40_freq_build.md R140 to R145). -/

namespace Sys2Proof.Machine

/-- CLR_FREQ (R142). -/
def execClrFreq (s : State) : Answer := .next (finish { s with freq := Vector.replicate 256 0 })

/-- FREQ of an arena entry as an unsigned integer (R140). -/
def freqAt (arena : List Node) (i : Nat) : NodeFreq :=
  match arena[i]? with
  | some n => n.freqBits
  | none => 0

/-- SYM of an arena entry (R140). -/
def symAt (arena : List Node) (i : Nat) : Nat :=
  match arena[i]? with
  | some n => n.sym
  | none => 0

/-- `key(i) < key(j)` for the key (FREQ, SYM, i), lexicographic (R140); the index decides between two internal nodes,
older first (R141). -/
def keyLess (arena : List Node) (i j : Nat) : Bool :=
  if freqAt arena i ≠ freqAt arena j then decide ((freqAt arena i).toNat < (freqAt arena j).toNat)
  else if symAt arena i ≠ symAt arena j then decide (symAt arena i < symAt arena j)
  else decide (i < j)

/-- The element of a non-empty priority collection with the smallest key (R144). -/
def minKey (arena : List Node) (x : Nat) (xs : List Nat) : Nat :=
  xs.foldl (fun m y => if keyLess arena y m then y else m) x

/-- Removes the element with the smallest key from the priority collection Q (R62, R144). -/
def removeMin (arena : List Node) : List Nat → Option (Nat × List Nat)
  | [] => none
  | x :: xs => some (minKey arena x xs, (x :: xs).erase (minKey arena x xs))

/-- The internal node that merges `first` and `second` (R143, R144). -/
def mergeNode (arena : List Node) (first second : Nat) : Node :=
  .internal (some (freqAt arena first + freqAt arena second)) (some first) (some second)

/-- The loop `while |Q| > 1` of R144, at most `fuel` times. -/
def mergeLoop : Nat → List Node → List Nat → List Node × List Nat
  | 0, arena, q => (arena, q)
  | fuel + 1, arena, q =>
    match removeMin arena q with
    | none => (arena, q)
    | some (first, q1) =>
      match removeMin arena q1 with
      | none => (arena, q)
      | some (second, q2) => mergeLoop fuel (arena ++ [mergeNode arena first second]) (q2 ++ [arena.length])

/-- The leaf of a real symbol, `none` where its count is 0 (R57, R143, R144). -/
def leafOf (freq : Vector Word 256) (b : Fin 256) : Option Node :=
  if freq[b.val] = 0 then none else some (.leaf (b.castLE (by decide)) (some (freq[b.val].setWidth 40)))

/-- The leaves in arena order: the real symbols ascending, then `EOF_SYMBOL` with frequency 1 (R144, R145). -/
def leaves (freq : Vector Word 256) : List Node :=
  (List.finRange 256).filterMap (leafOf freq) ++ [.leaf Config.eofSym (some 1)]

/-- The arena and what is left in Q after the greedy merge (R144). Each merge removes one element of Q net, so as many
turns as there are leaves are enough. -/
def mergeAll (freq : Vector Word 256) : List Node × List Nat :=
  mergeLoop (leaves freq).length (leaves freq) (List.range (leaves freq).length)

/-- BUILD_FREQ (R144). -/
def execBuildFreq (s : State) : Answer :=
  if s.freq.toList.all (· == 0) then .next (raiseFault .emptyFreqTable .zero 0 s)
  else .next (finish { dropTree s with
    arena := (mergeAll s.freq).1, root := (mergeAll s.freq).2.head?, treeValid := true, treeMode := false })

end Sys2Proof.Machine
end

