-- ==== Sys2Proof/Machine/HdrBuild.lean ====
section
/-! DEFINITION. The tree builder's header mode, BUILD_HDR (spec/41_header_build.md R160 to R174). -/

namespace Sys2Proof.Machine

/-- The tree under construction: ROOT and the arena. -/
structure Build where
  root  : Option Nat
  arena : List Node
deriving DecidableEq, Repr

/-- A link field of R169: ROOT, or LEFT or RIGHT of an arena node. -/
inductive Slot where
  | root
  | left (i : Nat)
  | right (i : Nat)
deriving DecidableEq, Repr

/-- What inserting a pair or ending a line comes to. -/
inductive Inserted where
  | done (b : Build)
  | raised (b : Build) (sub : SubCause)
  | corrupt
deriving DecidableEq, Repr

/-- What ending a line comes to. -/
inductive LineDone where
  | ok (h : HdrState) (b : Build)
  | raised (b : Build) (sub : SubCause)
  | corrupt
deriving DecidableEq, Repr

/-- `*slot` (R169). -/
def slotGet (b : Build) : Slot → Option Nat
  | .root => b.root
  | .left i => (b.arena[i]?).bind Node.left
  | .right i => (b.arena[i]?).bind Node.right

/-- A node with its LEFT or RIGHT field written; a leaf has none to write. -/
def setChild (right : Bool) (c : Nat) : Node → Node
  | .leaf y f => .leaf y f
  | .internal f l r => if right then .internal f l (some c) else .internal f (some c) r

/-- `*slot <- c` (R169). -/
def slotSet (b : Build) (c : Nat) : Slot → Build
  | .root => { b with root := some c }
  | .left i => { b with arena := b.arena.modify i (setChild false c) }
  | .right i => { b with arena := b.arena.modify i (setChild true c) }

/-- `alloc(n)`: the node goes to index NODE_COUNT (R9, R47). -/
def alloc (n : Node) (b : Build) : Build := { b with arena := b.arena ++ [n] }

/-- `*slot <- alloc(n)` (R169). -/
def allocAt (slot : Slot) (n : Node) (b : Build) : Build := slotSet (alloc n b) b.arena.length slot

/-- The field of node `i` a code bit selects (R169). -/
def childSlot (i : Nat) (bit : Bool) : Slot := if bit then .right i else .left i

/-- NODE_COUNT = NODE_CAP (R171). -/
def arenaFull (b : Build) : Bool := decide (Config.nodeCap ≤ b.arena.length)

/-- Path insertion from a slot on (R169 to R172). -/
def insertPath (y : Sym) : List Bool → Slot → Build → Inserted
  | [], slot, b =>
    match slotGet b slot with
    | some _ => .raised b .collision
    | none => if arenaFull b then .raised b .arenaFull else .done (allocAt slot (.leaf y none) b)
  | c :: cs, slot, b =>
    match slotGet b slot with
    | none =>
      if arenaFull b then .raised b .arenaFull
      else insertPath y cs (childSlot b.arena.length c) (allocAt slot (.internal none none none) b)
    | some n =>
      match b.arena[n]? with
      | none => .corrupt
      | some (.leaf _ _) => .raised b .collision
      | some (.internal _ _ _) => insertPath y cs (childSlot n c) b

/-- A key line (R164, R167). -/
def keyLine (marker : List Byte) (h : HdrState) (b : Build) : LineDone :=
  match keySym marker h.lb h.ovf with
  | none => .raised b .badKey
  | some y => if h.present[y.val] then .raised b .dupKey else .ok { h with pk := y } b

/-- A code line (R168). -/
def codeLine (h : HdrState) (b : Build) : LineDone :=
  if h.bad then .raised b .badCodeChar
  else if h.ovf then .raised b .codeTooLong
  else match insertPath h.pk (codeBits h.lb) .root b with
    | .done b' => .ok { h with present := h.present.set h.pk.val true } b'
    | .raised b' sub => .raised b' sub
    | .corrupt => .corrupt

/-- An empty line buffer with its flags cleared (R161). -/
def HdrState.clearLine (h : HdrState) : HdrState := { h with lb := [], ovf := false, bad := false }

/-- `end_line()` (R161, R162): odd lines are keys, even lines are codes. -/
def endLine (marker : List Byte) (h : HdrState) (b : Build) : LineDone :=
  match (if (h.ln + 1).getLsbD 0 then keyLine marker { h with ln := h.ln + 1 } b
         else codeLine { h with ln := h.ln + 1 } b) with
  | .ok h' b' => .ok h'.clearLine b'
  | .raised b' sub => .raised b' sub
  | .corrupt => .corrupt

/-- `append(b)` (R161). -/
def HdrState.append (c : Byte) (h : HdrState) : HdrState :=
  { h with
    lb := if h.lb.length = Config.lineMax then h.lb else h.lb ++ [c]
    ovf := h.ovf || decide (h.lb.length = Config.lineMax)
    bad := h.bad || !(c == 0x30#8 || c == 0x31#8) }

/-- The working state BUILD_HDR starts with, all cleared (R64, R160). -/
def HdrState.cleared : HdrState := ⟨[], false, false, 0, 0, Vector.replicate 257 false⟩

/-- The tree of the state. -/
def buildOf (s : State) : Build := ⟨s.root, s.arena⟩

/-- The state with the tree under construction written back. -/
def withBuild (b : Build) (s : State) : State := { s with root := b.root, arena := b.arena }

/-- A fault after START discards the partial tree: ROOT <- IDX_NIL, NODE_COUNT and its entries kept (R174). -/
def hdrFault (sub : SubCause) (ln : Word) (b : Build) (s : State) : State :=
  raiseFault .invalidHeader sub ln (withBuild { b with root := none } s)

/-- START of BUILD_HDR (R160). -/
def hdrStart (s : State) : Answer :=
  if !s.srcPresent then .next (raiseFault .invalidStream .zero (portsAbsent true false) s)
  else .next { dropTree s with phase := .hdr HdrState.cleared }

/-- BUILD_HDR takes a byte of header text (R160, R161). -/
def hdrByte (h : HdrState) (c : Byte) (s : State) : Answer :=
  if c = 0x0A#8 then
    match endLine s.marker h (buildOf s) with
    | .ok h' b => .next { withBuild b s with phase := .hdr h' }
    | .raised b sub => .next (hdrFault sub (h.ln + 1) b s)
    | .corrupt => .fault .arenaCorrupt
  else .next { s with phase := .hdr (h.append c) }

/-- BUILD_HDR takes END: the tail, if any, is a last line; then the pairing check (R160, R162, R163, R173). -/
def hdrEnd (h : HdrState) (s : State) : Answer :=
  match (if h.lb.isEmpty then LineDone.ok h (buildOf s) else endLine s.marker h (buildOf s)) with
  | .ok h' b =>
    if h'.ln.getLsbD 0 then .next (hdrFault .unpaired h'.ln b s)
    else .next (finish { withBuild b s with treeValid := b.root.isSome, treeMode := true })
  | .raised b sub => .next (hdrFault sub (h.ln + 1) b s)
  | .corrupt => .fault .arenaCorrupt

/-- LOOP of BUILD_HDR, one step per SRC token (R160); it holds while SRC offers none (R276). -/
def hdrLoop (h : HdrState) (s : State) : Answer :=
  match s.src with
  | [] => .next s
  | t :: rest =>
    if t.isEnd then hdrEnd h (takeToken rest s) else hdrByte h t.data (countIn (takeToken rest s))

/-- BUILD_HDR, one engine step (R160). -/
def execBuildHdr (s : State) : Answer :=
  match s.phase with
  | .hdr h => hdrLoop h s
  | _ => hdrStart s

end Sys2Proof.Machine
end

