-- ==== Sys2Proof/Machine/Table.lean ====
section
/-! DEFINITION. The encoding-table generator GEN_TABLE and the external table EMIT_HDR (spec/42_table.md R180 to R184). -/

namespace Sys2Proof.Machine

/-- A side of a node in the traversal: nothing where the child is absent (R180). -/
def visitSide (below : Nat → Option (List (Sym × List Bool))) : Option Nat → Option (List (Sym × List Bool))
  | none => some []
  | some c => below c

/-- `visit(i, p)` (R180, R181): the leaves below node `i` with their codes, in the order of the traversal; `none` where
an index is not allocated or the path is longer than `fuel` nodes. -/
def visit (arena : List Node) : Nat → Nat → List Bool → Option (List (Sym × List Bool))
  | 0, _, _ => none
  | fuel + 1, i, p =>
    match arena[i]? with
    | none => none
    | some (.leaf y _) => some [(y, p)]
    | some (.internal _ l r) =>
      match visitSide (fun c => visit arena fuel c (p ++ [false])) l,
            visitSide (fun c => visit arena fuel c (p ++ [true])) r with
      | some a, some b => some (a ++ b)
      | _, _ => none

/-- The entries of a traversal written to the code table, in order (R180). -/
def fillTable (ct : Vector CtEntry 257) (l : List (Sym × List Bool)) : Vector CtEntry 257 :=
  l.foldl (fun t e => t.set e.1.val ⟨true, e.2⟩) ct

/-- The traversal from ROOT; no path of a tree is longer than the arena. -/
def visitRoot (s : State) : Option (List (Sym × List Bool)) :=
  match s.root with
  | none => none
  | some r => visit s.arena s.arena.length r []

/-- GEN_TABLE (R180). -/
def execGenTable (s : State) : Answer :=
  if !s.treeValid then .next (raiseFault .emptyTree .zero 0 s)
  else match visitRoot s with
    | none => .fault .arenaCorrupt
    | some l => .next (finish { s with ct := fillTable (clearValid s.ct) l, ctValid := true })

/-- The text EMIT_HDR puts for symbol `y` (R123, R183). -/
def emitText (s : State) (y : Sym) : List Byte := pairText s.marker y (ctEntry s y).code

/-- Where EMIT_HDR goes for the entries from `k` on, ascending, `EOF_SYMBOL` last: the first valid one, or CLOSE (R183). -/
def emitFrom (s : State) (k : Nat) : Phase :=
  match (List.finRange 257).find? (fun y => decide (k ≤ y.val) && (ctEntry s y).valid) with
  | some y => .emitPut y 0
  | none => .emitClose

/-- START of EMIT_HDR (R183). -/
def emitStart (s : State) : Answer :=
  if !s.snkPresent then .next (raiseFault .invalidStream .zero (portsAbsent false true) s)
  else if !s.ctValid then .next (raiseFault .noTable .zero 0xFFFFFFFF#32 s)
  else .next { s with phase := emitFrom s 0 }

/-- EMIT of EMIT_HDR, one step per put (R183); it holds while the sink does not accept (R281). -/
def emitByte (y : Sym) (pos : Nat) (s : State) : Answer :=
  match (emitText s y)[pos]? with
  | none => .fault .cursorOutOfRange
  | some c =>
    if s.snkReady then
      .next { putData c s with
        phase := if pos + 1 < (emitText s y).length then .emitPut y (pos + 1) else emitFrom s (y.val + 1) }
    else .next s

/-- The last put of EMIT_HDR (R183). -/
def emitEnd (s : State) : Answer := if s.snkReady then .next (finish (putClose s)) else .next s

/-- EMIT_HDR, one engine step (R183). -/
def execEmitHdr (s : State) : Answer :=
  match s.phase with
  | .emitPut y pos => emitByte y pos s
  | .emitClose => emitEnd s
  | _ => emitStart s

end Sys2Proof.Machine
end

