-- ==== Sys2Proof/Machine/Dispatch.lean ====
section
/-! DEFINITION. One engine step of a command: one arm per command of the opcode map (spec/30_encoding.md R112). -/

namespace Sys2Proof.Machine

def exec (i : Instr) (s : State) : Host.Outcome State Fault Refusal :=
  match i with
  | .nop => Sys2Proof.Machine.execNop s
  | .clrFreq => Sys2Proof.Machine.execClrFreq s
  | .buildFreq => Sys2Proof.Machine.execBuildFreq s
  | .buildHdr => Sys2Proof.Machine.execBuildHdr s
  | .genTable => Sys2Proof.Machine.execGenTable s
  | .compress => Sys2Proof.Machine.execCompress s
  | .decompress => Sys2Proof.Machine.execDecompress s
  | .emitHdr => Sys2Proof.Machine.execEmitHdr s
  | .discard => Sys2Proof.Machine.execDiscard s

end Sys2Proof.Machine
end

