-- ==== Sys2Proof/Machine/HostBus.lean ====
section
/-! DEFINITION. The agents around the engine: the host's register window (spec/20_memory.md R81 to R85), the source, the
sink and the platform (R90, R91, R98), and the host notation of spec/30_encoding.md R124, R125. -/

namespace Sys2Proof.Machine

/-- The register map (R81), from the offset of a defined access (R82) to the register; other offsets are reserved
(R83). -/
def regAt (off : Nat) : Reg :=
  if hf : 0x400 ≤ off ∧ off < 0x800 then .freq ⟨(off - 0x400) / 4, by omega⟩
  else if hc : 0x060 ≤ off ∧ off < 0x080 then .ctWord ⟨(off - 0x060) / 4, by omega⟩
  else match off with
    | 0x000 => .id
    | 0x004 => .params
    | 0x008 => .cmd
    | 0x00C => .status
    | 0x010 => .errCause
    | 0x014 => .errInfo
    | 0x018 => .treeRoot
    | 0x01C => .nodeCount
    | 0x020 => .inCount
    | 0x024 => .outCount
    | 0x028 => .ctSel
    | 0x02C => .ctInfo
    | 0x030 => .nodeSel
    | 0x034 => .nodeInfo
    | 0x038 => .nodeFreqLo
    | 0x03C => .nodeFreqHi
    | 0x040 => .nodeLinks
    | _ => .reserved

/-- The entry CT_SEL selects: `none` for SEL ≥ 257 (R51). -/
def selectedEntry (s : State) : Option CtEntry := s.ct[s.ctSel.toNat]?

/-- The node NODE_SEL selects: `none` for NSEL ≥ NODE_COUNT (R54). -/
def selectedNode (s : State) : Option Node := s.arena[s.nodeSel.toNat]?

/-- CT_INFO (R51). -/
def ctInfoWord (s : State) : Word :=
  match selectedEntry s with
  | some e => if e.valid then 1#1 ++ 0#22 ++ BitVec.ofNat 9 e.code.length else 0
  | none => 0

/-- CT_WORDk (R52): bit j is code bit 32k + j, and 0 past LEN. -/
def ctWordOf (s : State) (k : Nat) : Word :=
  match selectedEntry s with
  | some e => if e.valid then (BitVec.ofBoolListLE ((e.code.drop (32 * k)).take 32)).setWidth 32 else 0
  | none => 0

/-- NODE_INFO (R54): allocated 0, KIND 1, FREQ_KNOWN 2, SYM [24:16]. -/
def nodeInfoWord (s : State) : Word :=
  match selectedNode s with
  | some n =>
    0#7 ++ BitVec.ofNat 9 n.sym ++ 0#13 ++ BitVec.ofBool n.freqKnown ++ BitVec.ofBool n.kind ++ 1#1
  | none => 0

/-- NODE_FREQ_LO (R55). -/
def nodeFreqLoWord (s : State) : Word :=
  match selectedNode s with
  | some n => n.freqBits.extractLsb' 0 32
  | none => 0

/-- NODE_FREQ_HI (R55). -/
def nodeFreqHiWord (s : State) : Word :=
  match selectedNode s with
  | some n => (n.freqBits.extractLsb' 32 8).setWidth 32
  | none => 0

/-- NODE_LINKS (R56): LEFT in [15:0], RIGHT in [31:16]. -/
def nodeLinksWord (s : State) : Word :=
  match selectedNode s with
  | some n => idxBits n.right ++ idxBits n.left
  | none => 0

/-- The value a register reads by its own rule (R31 to R57, R83, R84). -/
def regValue (s : State) : Reg → Word
  | .id => Config.idWord
  | .params => Config.paramsWord
  | .cmd => 0
  | .status => statusWord s
  | .errCause => s.errCause
  | .errInfo => s.errInfo
  | .treeRoot => (idxBits s.root).setWidth 32
  | .nodeCount => (BitVec.ofNat 16 s.arena.length).setWidth 32
  | .inCount => s.inCount
  | .outCount => s.outCount
  | .ctSel => s.ctSel.setWidth 32
  | .ctInfo => ctInfoWord s
  | .nodeSel => s.nodeSel.setWidth 32
  | .nodeInfo => nodeInfoWord s
  | .nodeFreqLo => nodeFreqLoWord s
  | .nodeFreqHi => nodeFreqHiWord s
  | .nodeLinks => nodeLinksWord s
  | .ctWord k => ctWordOf s k.val
  | .freq b => freqEntry s b
  | .reserved => 0

/-- The registers whose reads are unspecified while BUSY = 1 (R67). -/
def unspecifiedWhileBusy : Reg → Bool
  | .treeRoot => true
  | .nodeCount => true
  | .ctInfo => true
  | .ctWord _ => true
  | .nodeInfo => true
  | .nodeFreqLo => true
  | .nodeFreqHi => true
  | .nodeLinks => true
  | .id => false
  | .params => false
  | .cmd => false
  | .status => false
  | .errCause => false
  | .errInfo => false
  | .inCount => false
  | .outCount => false
  | .ctSel => false
  | .nodeSel => false
  | .freq _ => false
  | .reserved => false

/-- The host receives the value of a read (R124). -/
def returnRead (v : Word) (s : State) : State := { s with reads := s.reads ++ [v] }

/-- A read of a register: its value, or a free draw (R67, R84; log entry 3). -/
def readReg (r : Reg) (s : State) : State :=
  if s.busy && unspecifiedWhileBusy r then
    { returnRead (Config.freeWord s.draws) s with draws := s.draws + 1 }
  else returnRead (regValue s r) s

/-- OVERRUN is set (R42). -/
def setOverrun (s : State) : State := { s with overrun := true }

/-- A CMD write: acceptance while BUSY = 0; dropped, with OVERRUN set, while BUSY = 1 (R113, R115). -/
def writeCmd (v : Word) (s : State) : State := if s.busy then setOverrun s else accept v s

/-- A FREQ write: stored while BUSY = 0; dropped, with OVERRUN set, while BUSY = 1 (R42, R57). -/
def writeFreq (b : Fin 256) (v : Word) (s : State) : State :=
  if s.busy then setOverrun s else { s with freq := s.freq.set b.val v }

/-- A CT_SEL write (R50). -/
def writeCtSel (v : Word) (s : State) : State := { s with ctSel := v.extractLsb' 0 9 }

/-- A NODE_SEL write (R53). -/
def writeNodeSel (v : Word) (s : State) : State := { s with nodeSel := v.extractLsb' 0 16 }

/-- A write to a register; a read-only register or a reserved offset ignores it (R83, R84). -/
def writeReg (r : Reg) (v : Word) (s : State) : State :=
  match r with
  | .cmd => writeCmd v s
  | .freq b => writeFreq b v s
  | .ctSel => writeCtSel v s
  | .nodeSel => writeNodeSel v s
  | .id => s
  | .params => s
  | .status => s
  | .errCause => s
  | .errInfo => s
  | .treeRoot => s
  | .nodeCount => s
  | .inCount => s
  | .outCount => s
  | .ctInfo => s
  | .nodeInfo => s
  | .nodeFreqLo => s
  | .nodeFreqHi => s
  | .nodeLinks => s
  | .ctWord _ => s
  | .reserved => s

/-- `MemRead(off, width)` (R9, R82). -/
def hostRead (off width : Nat) (s : State) : Answer :=
  if Wf.access off width then .next (readReg (regAt off) s) else .refused .undefinedAccess

/-- `MemWrite(off, width, v)` (R9, R82). -/
def hostWrite (off width : Nat) (v : Word) (s : State) : Answer :=
  if Wf.access off width then .next (writeReg (regAt off) v s) else .refused .undefinedAccess

/-- One poll of `WAIT` (R125): `RD STATUS`; while bit 0 of the value read is 1 the engine has its turn and the host polls
again (log entry 19). -/
def hostWait (s : State) : State :=
  { returnRead (statusWord s) s with
    moves := if (statusWord s).getLsbD 0 then .engine :: .act .wait :: s.moves else s.moves }

/-- The platform sets the presence inputs; a change while BUSY has no move (R91, R280; log entry 17). -/
def setPresence (a b : Bool) (s : State) : Answer :=
  if s.busy && !(a == s.srcPresent && b == s.snkPresent) then .refused .presenceChangedWhileBusy
  else .next { s with srcPresent := a, snkPresent := b }

/-- An action of an agent around the engine (R92, R98). -/
def act (a : Action) (s : State) : Answer :=
  match a with
  | .write off width v => hostWrite off width v s
  | .read off width => hostRead off width s
  | .wait => .next (hostWait s)
  | .offer t => .next { s with src := s.src ++ [t] }
  | .drain => .next { s with src := [] }
  | .sink ready => .next { s with snkReady := ready }
  | .presence a b => setPresence a b s
  | .reset => .next (hardReset s)

/-- The offset of a register (R81); the first reserved offset stands for the reserved ones. -/
def offsetOf : Reg → Nat
  | .id => 0x000
  | .params => 0x004
  | .cmd => 0x008
  | .status => 0x00C
  | .errCause => 0x010
  | .errInfo => 0x014
  | .treeRoot => 0x018
  | .nodeCount => 0x01C
  | .inCount => 0x020
  | .outCount => 0x024
  | .ctSel => 0x028
  | .ctInfo => 0x02C
  | .nodeSel => 0x030
  | .nodeInfo => 0x034
  | .nodeFreqLo => 0x038
  | .nodeFreqHi => 0x03C
  | .nodeLinks => 0x040
  | .ctWord k => 0x060 + 4 * k.val
  | .freq b => 0x400 + 4 * b.val
  | .reserved => 0x044

/-- The address of a register on the host's bus (R80, R89; log entry 5). -/
def busAddress (r : Reg) : Nat := Config.hceBase + offsetOf r

/-- The offset a bus address has in the block's window, `none` outside it (R89). -/
def windowOffset (addr : Nat) : Option Nat :=
  if Config.hceBase ≤ addr ∧ addr < Config.hceBase + 0x800 then some (addr - Config.hceBase) else none

/-- `WR <reg>, <v>` (R124). -/
def wr (r : Reg) (v : Word) : Action := .write (offsetOf r) 4 v

/-- `RD <reg>` (R124). -/
def rd (r : Reg) : Action := .read (offsetOf r) 4

/-- `RUN <mnemonic>` (R125). -/
def runCommand (i : Instr) : List Action := [wr .cmd (encode i), .wait]

/-- `SRCBYTES` (R125), and `SRCTEXT` with the bytes of its text: the data tokens, then END. -/
def srcBytes (l : List Byte) : List Action := l.map (fun v => .offer (.d v)) ++ [.offer .eos]

/-- `SRCBITS <bits> [END]` (R125). -/
def srcBits (l : List Bool) (withEnd : Bool) : List Action :=
  l.map (fun b => .offer (.d (bitData b))) ++ (if withEnd then [.offer .eos] else [])

end Sys2Proof.Machine
end

