-- ==== Sys2Proof/Machine/Step.lean ====
section
/-! DEFINITION. One step of the machine: the next move of the interleaving (spec/20_memory.md R92), and how a word
comes to run. -/

namespace Sys2Proof.Machine

/-- The engine's turn: the next step of the command it runs (R60); in IDLE it has none, and the state stays (R271; log
entry 7). -/
def engineStep (s : State) : Host.Outcome State Fault Refusal :=
  match s.phase.command with
  | some i => exec i s
  | none => .next s

/-- One step: the oldest move of `moves`; with none left, the engine's turn (log entry 6). -/
def step (s : State) : Host.Outcome State Fault Refusal :=
  match s.moves with
  | [] => engineStep s
  | .engine :: rest => engineStep { s with moves := rest }
  | .act a :: rest => act a { s with moves := rest }

/-- The word of a table row accepted (R113) and the engine's turn next, so that the next step is that command's first
(log entry 8). Bits beyond the one 32-bit format make no command word: they fault as a reserved bit does (R114). -/
def State.withFetchWord (s : State) (nbits w : Nat) : State :=
  { accept ((tableWord nbits w).getD 0xFFFFFFFF#32) { s with phase := .idle } with moves := [] }

end Sys2Proof.Machine
end

