-- ==== Sys2Proof/Safety.lean ====
section
/-! DEFINITION. The words claims are stated in: paths in the arena, what a tree and a table are, the invariant of every
run (spec/10_state.md R66 and the rules it is derived from), and runs of the engine's steps. -/

namespace Sys2Proof.Machine

/-! ### Paths and leaves -/

/-- The child link of arena entry `i` for a bit, `none` where there is none (R10, R58). -/
def link (arena : List Node) (i : Nat) (bit : Bool) : Option Nat :=
  match arena[i]? with
  | some n => n.child bit
  | none => none

/-- The node a path of bits leads to from node `i` (R10). -/
def follow (arena : List Node) : List Bool → Nat → Option Nat
  | [], i => some i
  | b :: p, i =>
    match link arena i b with
    | some c => follow arena p c
    | none => none

/-- Node `i` is a leaf that holds `y`. -/
def IsLeaf (arena : List Node) (i : Nat) (y : Sym) : Prop := ∃ f, arena[i]? = some (.leaf y f)

/-- Node `i` is internal. -/
def IsInternal (arena : List Node) (i : Nat) : Prop := ∃ f l r, arena[i]? = some (.internal f l r)

/-- `code` is the path from `r` to a leaf that holds `y` (R182 (b)). -/
def LeafAt (arena : List Node) (r : Nat) (code : List Bool) (y : Sym) : Prop :=
  ∃ j, follow arena code r = some j ∧ IsLeaf arena j y

/-- The merge priority of R140: node `i` leaves the priority collection before node `j`. -/
def Before (arena : List Node) (i j : Nat) : Prop :=
  (freqAt arena i).toNat < (freqAt arena j).toNat ∨
  ((freqAt arena i).toNat = (freqAt arena j).toNat ∧
    (symAt arena i < symAt arena j ∨ (symAt arena i = symAt arena j ∧ i < j)))

/-- The symbols in the frequency table, ascending (R57). -/
def presentBytes (freq : Vector Word 256) : List (Fin 256) :=
  (List.finRange 256).filter (fun b => freq[b.val] ≠ 0)

/-- The number L of leaves of a BUILD_FREQ tree (R145). -/
def leafCount (freq : Vector Word 256) : Nat := (presentBytes freq).length + 1

/-! ### The invariant -/

/-- The arena is a forest within its capacity: links lead to allocated entries, all upward or all downward in the
arena, no entry has two parents, no symbol has two leaves (R47, R58, R66). -/
structure ArenaOk (arena : List Node) : Prop where
  cap : arena.length ≤ Config.nodeCap
  inRange : ∀ i b c, link arena i b = some c → c < arena.length
  ordered : (∀ i b c, link arena i b = some c → c < i) ∨ (∀ i b c, link arena i b = some c → i < c)
  oneParent : ∀ i b j b' c, link arena i b = some c → link arena j b' = some c → i = j ∧ b = b'
  leafOnce : ∀ i j y, IsLeaf arena i y → IsLeaf arena j y → i = j

/-- `r` is the root of a tree: allocated, nobody's child, every internal node with a child, no path longer than
MAX_CODE_LEN (R66 (a), R182 (d)). -/
structure RootOk (arena : List Node) (r : Nat) : Prop where
  allocated : r < arena.length
  top : ∀ i b, link arena i b ≠ some r
  oneChild : ∀ i, IsInternal arena i → ∃ b c, link arena i b = some c
  depth : ∀ p j, follow arena p r = some j → p.length ≤ Config.maxCodeLen

/-- A frequency-mode tree: every internal node has both children and the `EOF_SYMBOL` leaf is there (R66 (c), R146). -/
structure FreqTreeOk (arena : List Node) (r : Nat) : Prop where
  bothChildren : ∀ i b, IsInternal arena i → ∃ c, link arena i b = some c
  eofLeaf : ∃ p, LeafAt arena r p Config.eofSym

/-- The working state of BUILD_HDR beside the tree it builds (R64, R167): links lead upward, LB holds at most LINE_MAX
bytes, PRESENT marks exactly the placed symbols, the pending symbol is not placed. -/
structure HdrOk (h : HdrState) (arena : List Node) (root : Option Nat) : Prop where
  upward : ∀ i b c, link arena i b = some c → i < c
  oneChild : ∀ i, IsInternal arena i → ∃ b c, link arena i b = some c
  rootOk : ∀ r, root = some r → RootOk arena r
  lineFits : h.lb.length ≤ Config.lineMax
  present : ∀ y : Sym, h.present[y.val] = true ↔ ∃ i, IsLeaf arena i y
  pending : h.ln.getLsbD 0 = true → h.present[h.pk.val] = false

/-- What holds of the state in a phase (R60 to R65). -/
def PhaseOk (s : State) : Phase → Prop
  | .idle => True
  | .start _ => True
  | .hdr h => s.treeValid = false ∧ s.ctValid = false ∧ HdrOk h s.arena s.root
  | .compTake => s.ctValid = true ∧ (ctEntry s Config.eofSym).valid = true
  | .compPut y i =>
    s.ctValid = true ∧ (ctEntry s Config.eofSym).valid = true ∧ (ctEntry s y).valid = true ∧
      i < (ctEntry s y).code.length
  | .compClose => s.ctValid = true
  | .decGeneral r p =>
    s.treeValid = true ∧ s.root = some r ∧ (∃ n, s.arena[r]? = some n ∧ n.degenerate = false) ∧
      IsInternal s.arena p
  | .decDegenerate r =>
    s.treeValid = true ∧ s.root = some r ∧ ∃ n, s.arena[r]? = some n ∧ n.degenerate = true
  | .decStop _ => s.treeValid = true
  | .emitPut y pos => s.ctValid = true ∧ (ctEntry s y).valid = true ∧ pos < (emitText s y).length
  | .emitClose => s.ctValid = true

/-- The invariant of the machine: R66, with R38, R46, R59, R182 and the hidden state of R60 to R65. -/
structure Inv (s : State) : Prop where
  arena : ArenaOk s.arena
  /-- R66 (a). -/
  tree : s.treeValid = true → ∃ r, s.root = some r ∧ RootOk s.arena r
  /-- R66 (c). -/
  freqTree : s.treeValid = true → s.treeMode = false → ∃ r, s.root = some r ∧ FreqTreeOk s.arena r
  /-- R46. -/
  noRoot : s.treeValid = false → (∀ h, s.phase ≠ .hdr h) → s.root = none
  /-- R66 (b), R38. -/
  tableNeedsTree : s.ctValid = true → s.treeValid = true
  /-- R38: no entry is valid while CT_VALID = 0. -/
  entryNeedsTable : ∀ y, (ctEntry s y).valid = true → s.ctValid = true
  /-- R38, R182 (a), (b): the table is that of the current tree. -/
  tableOfTree : s.ctValid = true → ∀ r, s.root = some r → ∀ y code,
    ((ctEntry s y).valid = true ∧ (ctEntry s y).code = code) ↔ LeafAt s.arena r code y
  phase : PhaseOk s s.phase
  /-- R6. -/
  marker : Wf.marker s.marker = true

/-! ### Runs -/

/-- `k` turns of the engine with no other agent moving, stopping at a stop of the model. -/
def engineRun : Nat → State → Answer
  | 0, s => .next s
  | k + 1, s =>
    match engineStep s with
    | .next t => engineRun k t
    | .fault r => .fault r
    | .refused r => .refused r

/-- The engine, left alone, brings `s` to `t`. -/
def Leads (s t : State) : Prop := ∃ k, engineRun k s = .next t

/-- The two lines of a symbol's pair in the canonical header (R123), written apart from the text EMIT_HDR computes: the
key (EOF_MARKER_TEXT for `EOF_SYMBOL`, the decimal text of a byte), 0x0A, the code in the characters 0x30 and 0x31, first
bit first, 0x0A. -/
def pairLines (s : State) (y : Sym) : List Byte :=
  (if y = 256 then s.marker else decText y.val) ++ [0x0A#8] ++
    (ctEntry s y).code.map (fun bit => if bit then 0x31#8 else 0x30#8) ++ [0x0A#8]

/-- The canonical header of a state's code table: the pairs of its valid entries, symbols ascending and `EOF_SYMBOL`
last (R123). -/
def canonicalHeader (s : State) : List Byte :=
  (List.finRange 257).flatMap fun y => if (ctEntry s y).valid then pairLines s y else []

/-- The code bits of a byte sequence and the `EOF_SYMBOL` code (R200). -/
def payload (s : State) (l : List Byte) : List Bool :=
  l.flatMap (fun b => (ctEntry s (symOfByte b)).code) ++ (ctEntry s Config.eofSym).code

/-- Neither code is a prefix of the other (R182 (c)). -/
def PrefixFree (c d : List Bool) : Prop := ¬ c <+: d ∧ ¬ d <+: c

/-- How many nodes of a code's path are not there yet: of the paths `code.take 0` to `code`, those that lead nowhere
from ROOT (R169). -/
def missingNodes (root : Option Nat) (arena : List Node) (code : List Bool) : Nat :=
  ((List.range (code.length + 1)).filter fun n => (root.bind (follow arena (code.take n))).isNone).length

/-- A header pair: the text of a key line, the symbol it names, the code (R120). -/
structure HdrPair where
  key  : List Byte
  sym  : Sym
  code : List Bool

/-- The text of a list of header pairs (R120). -/
def headerText (l : List HdrPair) : List Byte :=
  l.flatMap fun p => p.key ++ [0x0A#8] ++ codeText p.code ++ [0x0A#8]

/-- A header BUILD_HDR has no ground to refuse (R120 to R122, R164 to R171): every key line names its symbol, no symbol
has two pairs, no code is longer than MAX_CODE_LEN, the codes are prefix-free and their tree has at most NODE_CAP nodes
(one for each prefix of a code). -/
structure HeaderOk (marker : List Byte) (l : List HdrPair) : Prop where
  keys : ∀ p ∈ l, p.key.length ≤ Config.lineMax ∧ 0x0A#8 ∉ p.key ∧ keySym marker p.key false = some p.sym
  symbols : (l.map HdrPair.sym).Nodup
  lengths : ∀ p ∈ l, p.code.length ≤ Config.maxCodeLen
  codes : l.Pairwise fun p q => PrefixFree p.code q.code
  nodes : (l.flatMap fun p => p.code.inits).dedup.length ≤ Config.nodeCap

/-- Data tokens that carry these bits in DATA[0], whatever is in DATA[7:1] (R218). -/
def BitTokens (l : List SrcToken) (bits : List Bool) : Prop :=
  (∀ t ∈ l, t.isEnd = false) ∧ l.map tokenBit = bits

end Sys2Proof.Machine
end

