-- ==== Sys2Proof/Certificates/Slice0/Obligations.lean ====
section
/-! DEFINITION. The statements about the block, from the numbered rules of spec/. Nothing is proved here. -/

open Sys2Proof Sys2Proof.Machine

/-! ### The command word and its acceptance -/

/-- R110, R112, R114: decoding inverts encoding, a word that decodes is the word of its command, a word is refused
exactly for a reserved bit or a reserved opcode; and the nine words of the opcode map written out. -/
def Obligations.DecodeInvertsEncode : Prop :=
  (∀ i : Instr, decode (encode i) = .ok i) ∧
  (∀ (w : Word) (i : Instr), decode w = .ok i → w = encode i) ∧
  (∀ w : Word, (∃ i, decode w = .ok i) ↔ w.extractLsb' 8 24 = 0#24 ∧ (w.extractLsb' 0 8).toNat ≤ 8) ∧
  decode 0x00000000#32 = .ok .nop ∧ decode 0x00000001#32 = .ok .clrFreq ∧ decode 0x00000002#32 = .ok .buildFreq ∧
  decode 0x00000003#32 = .ok .buildHdr ∧ decode 0x00000004#32 = .ok .genTable ∧
  decode 0x00000005#32 = .ok .compress ∧ decode 0x00000006#32 = .ok .decompress ∧
  decode 0x00000007#32 = .ok .emitHdr ∧ decode 0x00000008#32 = .ok .discard

/-- R113: a legal word written to CMD while BUSY = 0 clears FAULT, ERR_CAUSE, ERR_INFO and both counters, writes LAST_OP
and puts the engine at the command's START; nothing else changes. -/
def Obligations.LegalWordIsAccepted : Prop :=
  ∀ (s : State) (rest : List Move) (i : Instr), s.busy = false →
    s.moves = .act (.write 0x008 4 (encode i)) :: rest →
    step s = .next { s with
      moves := rest, fault := false, errCause := 0, errInfo := 0, inCount := 0, outCount := 0,
      lastOp := (encode i).extractLsb' 0 8, phase := .start i }

/-- R114: a word with a reserved bit set or a reserved opcode faults at acceptance with BAD_COMMAND and ERR_INFO = w;
only the fault registers, LAST_OP and the counters change. -/
def Obligations.IllegalWordFaultsAtAcceptance : Prop :=
  ∀ (s : State) (rest : List Move) (w : Word), s.phase = .idle →
    (w.extractLsb' 8 24 ≠ 0#24 ∨ 9 ≤ (w.extractLsb' 0 8).toNat) →
    s.moves = .act (.write 0x008 4 w) :: rest →
    step s = .next { s with
      moves := rest, fault := true, errCause := 0x00000009#32, errInfo := w, inCount := 0, outCount := 0,
      lastOp := w.extractLsb' 0 8 }

/-- R115: a word written while BUSY = 1 is never decoded, whatever it is: it only sets OVERRUN. -/
def Obligations.BusyWordOnlySetsOverrun : Prop :=
  ∀ (s : State) (rest : List Move) (w : Word), s.busy = true →
    s.moves = .act (.write 0x008 4 w) :: rest →
    step s = .next { s with moves := rest, overrun := true }

/-- A step runs the accepted command: with the engine's turn next (or no move left), a step at phase RUN(op, locals) is
`exec op`; in IDLE it changes nothing else (R60, R271; log entries 6, 7); and the step after `withFetchWord` of a word
of the opcode map is the first step of its command (log entry 8). -/
def Obligations.StepRunsTheAcceptedCommand : Prop :=
  (∀ (s : State) (i : Instr), s.phase.command = some i → s.moves = [] → step s = exec i s) ∧
  (∀ (s : State) (i : Instr) (rest : List Move), s.phase.command = some i → s.moves = .engine :: rest →
    step s = exec i { s with moves := rest }) ∧
  (∀ s : State, s.phase = .idle → s.moves = [] → step s = .next s) ∧
  (∀ (s : State) (rest : List Move), s.phase = .idle → s.moves = .engine :: rest →
    step s = .next { s with moves := rest }) ∧
  (∀ (s : State) (i : Instr),
    (s.withFetchWord 32 (encode i).toNat).phase = .start i ∧
    step (s.withFetchWord 32 (encode i).toNat) = exec i (s.withFetchWord 32 (encode i).toNat))

/-! ### Reset -/

/-- R270, V29: what every register reads after reset, whatever FREQ holds and whatever EOF_MARKER_TEXT is. -/
def Obligations.ResetRegistersRead : Prop :=
  ∀ (freq : Vector Word 256) (marker : List Byte),
    let s := State.afterReset freq marker
    s.phase = .idle ∧
    regValue s .id = 0x48554646#32 ∧ regValue s .params = 0x00020120#32 ∧ regValue s .cmd = 0 ∧
    regValue s .status = 0 ∧ regValue s .errCause = 0 ∧ regValue s .errInfo = 0 ∧
    regValue s .treeRoot = 0x0000FFFF#32 ∧ regValue s .nodeCount = 0 ∧ regValue s .inCount = 0 ∧
    regValue s .outCount = 0 ∧ regValue s .ctSel = 0 ∧ regValue s .nodeSel = 0 ∧
    regValue s .ctInfo = 0 ∧ (∀ k, regValue s (.ctWord k) = 0) ∧ regValue s .nodeInfo = 0 ∧
    regValue s .nodeFreqLo = 0 ∧ regValue s .nodeFreqHi = 0 ∧ regValue s .nodeLinks = 0 ∧
    (∀ y, (ctEntry s y).valid = false) ∧ (∀ b : Fin 256, regValue s (.freq b) = freq[b.val])

/-- R270: reset ends any command at once and leaves the reset state for some FREQ contents; SRC, SNK, the inputs and
the other agents are untouched. -/
def Obligations.ResetMoveLeavesTheResetState : Prop :=
  ∀ (s : State) (rest : List Move), s.moves = .act .reset :: rest →
    ∃ (freq : Vector Word 256) (n : Nat),
      step s = .next { State.afterReset freq s.marker with
        src := s.src, snk := s.snk, srcPresent := s.srcPresent, snkPresent := s.snkPresent, snkReady := s.snkReady,
        moves := rest, reads := s.reads, draws := n }

/-! ### The register window -/

/-- R82: a 32-bit access at a multiple of 4 below 0x800 has a step, whatever it reads or writes; a host access of
another width, at an offset not a multiple of 4, or at an offset ≥ 0x800 is refused. -/
def Obligations.UndefinedAccessesAreRefused : Prop :=
  ∀ (s : State) (rest : List Move) (off width : Nat) (v : Word),
    ((width ≠ 4 ∨ off % 4 ≠ 0 ∨ 0x800 ≤ off) →
      (s.moves = .act (.read off width) :: rest → step s = .refused .undefinedAccess) ∧
      (s.moves = .act (.write off width v) :: rest → step s = .refused .undefinedAccess)) ∧
    (width = 4 → off % 4 = 0 → off < 0x800 →
      (s.moves = .act (.read off width) :: rest → ∃ t, step s = .next t) ∧
      (s.moves = .act (.write off width v) :: rest → ∃ t, step s = .next t))

/-- R83: a 32-bit read of a reserved offset returns 0, a write there is ignored, neither has a side effect. -/
def Obligations.ReservedOffsetsReadZero : Prop :=
  ∀ (s : State) (rest : List Move) (off : Nat) (v : Word),
    off % 4 = 0 → 0x040 < off → off < 0x400 → (off < 0x060 ∨ 0x080 ≤ off) →
    (s.moves = .act (.read off 4) :: rest →
      step s = .next { s with moves := rest, reads := s.reads ++ [0#32] }) ∧
    (s.moves = .act (.write off 4 v) :: rest → step s = .next { s with moves := rest })

/-- R84 with R31 to R33: a write to a read-only register is ignored, busy or not; ID, PARAMS and CMD read their
constants in every state. -/
def Obligations.ReadOnlyRegistersIgnoreWrites : Prop :=
  ∀ (s : State) (rest : List Move) (v : Word),
    (∀ off : Nat, off % 4 = 0 → off ≤ 0x040 ∨ (0x060 ≤ off ∧ off < 0x080) →
      off ≠ 0x008 → off ≠ 0x028 → off ≠ 0x030 →
      s.moves = .act (.write off 4 v) :: rest → step s = .next { s with moves := rest }) ∧
    (s.moves = .act (.read 0x000 4) :: rest →
      step s = .next { s with moves := rest, reads := s.reads ++ [0x48554646#32] }) ∧
    (s.moves = .act (.read 0x004 4) :: rest →
      step s = .next { s with moves := rest, reads := s.reads ++ [0x00020120#32] }) ∧
    (s.moves = .act (.read 0x008 4) :: rest →
      step s = .next { s with moves := rest, reads := s.reads ++ [0#32] })

/-- R50, R53: CT_SEL and NODE_SEL store bits [8:0] and [15:0] of every write, busy or not; a read returns what is
stored with the other bits 0; both are 0 after reset. -/
def Obligations.SelectorsStoreTheirBits : Prop :=
  (∀ (s : State) (rest : List Move) (v : Word),
    (s.moves = .act (.write 0x028 4 v) :: rest →
      step s = .next { s with moves := rest, ctSel := v.extractLsb' 0 9 }) ∧
    (s.moves = .act (.write 0x030 4 v) :: rest →
      step s = .next { s with moves := rest, nodeSel := v.extractLsb' 0 16 }) ∧
    (s.moves = .act (.read 0x028 4) :: rest →
      step s = .next { s with moves := rest, reads := s.reads ++ [0#23 ++ s.ctSel] }) ∧
    (s.moves = .act (.read 0x030 4) :: rest →
      step s = .next { s with moves := rest, reads := s.reads ++ [0#16 ++ s.nodeSel] })) ∧
  (∀ (freq : Vector Word 256) (marker : List Byte),
    (State.afterReset freq marker).ctSel = 0 ∧ (State.afterReset freq marker).nodeSel = 0)

/-- R57, R42, R274: a FREQ entry stores all 32 bits of a write while BUSY = 0, and nothing else changes; a write while
BUSY = 1 is dropped and sets OVERRUN; a read returns the entry at any time. -/
def Obligations.FreqEntriesStoreWrites : Prop :=
  ∀ (s : State) (rest : List Move) (b : Fin 256) (v : Word),
    (s.moves = .act (.write (0x400 + 4 * b.val) 4 v) :: rest → s.busy = true →
      step s = .next { s with moves := rest, overrun := true }) ∧
    (s.moves = .act (.write (0x400 + 4 * b.val) 4 v) :: rest → s.busy = false →
      ∃ freq : Vector Word 256, step s = .next { s with moves := rest, freq := freq } ∧
        freq[b.val] = v ∧ ∀ c : Fin 256, c ≠ b → freq[c.val] = s.freq[c.val]) ∧
    (s.moves = .act (.read (0x400 + 4 * b.val) 4) :: rest →
      step s = .next { s with moves := rest, reads := s.reads ++ [s.freq[b.val]] })

/-- R81, R67: the register map, with every offset written out, and what a read at each gives. While BUSY = 1 a read of a
readback register returns some value and has no side effect (the draw is the model's, log entry 3); a read of any
register outside that list, and any read while BUSY = 0, returns its value. `RD <reg>` (R124) reads at the same offset. -/
def Obligations.BusyReadbackIsUnspecified : Prop :=
  ∀ (s : State) (rest : List Move) (off : Nat) (r : Reg),
    ((off, r) ∈ [((0x000 : Nat), Reg.id), (0x004, .params), (0x008, .cmd), (0x00C, .status), (0x010, .errCause),
        (0x014, .errInfo), (0x018, .treeRoot), (0x01C, .nodeCount), (0x020, .inCount), (0x024, .outCount),
        (0x028, .ctSel), (0x02C, .ctInfo), (0x030, .nodeSel), (0x034, .nodeInfo), (0x038, .nodeFreqLo),
        (0x03C, .nodeFreqHi), (0x040, .nodeLinks), (0x044, .reserved)] ∨
      (∃ k : Fin 8, off = 0x060 + 4 * k.val ∧ r = .ctWord k) ∨
      ∃ b : Fin 256, off = 0x400 + 4 * b.val ∧ r = .freq b) →
    rd r = .read off 4 ∧
    (s.moves = .act (.read off 4) :: rest →
      (s.busy = true →
        (r ∈ [.treeRoot, .nodeCount, .ctInfo, .nodeInfo, .nodeFreqLo, .nodeFreqHi, .nodeLinks] ∨ ∃ k, r = .ctWord k) →
        ∃ (v : Word) (n : Nat), step s = .next { s with moves := rest, reads := s.reads ++ [v], draws := n }) ∧
      ((s.busy = false ∨
        ¬(r ∈ [.treeRoot, .nodeCount, .ctInfo, .nodeInfo, .nodeFreqLo, .nodeFreqHi, .nodeLinks] ∨ ∃ k, r = .ctWord k)) →
        step s = .next { s with moves := rest, reads := s.reads ++ [regValue s r] }))

/-- R34, R35, R60: the fields of the word STATUS reads, bit by bit, and its reserved bits; BUSY is 1 exactly when the
phase is not IDLE. -/
def Obligations.StatusWordFields : Prop :=
  ∀ s : State,
    regValue s .status = statusWord s ∧
    ((statusWord s).getLsbD 0 = true ↔ s.phase ≠ .idle) ∧
    (statusWord s).getLsbD 1 = s.fault ∧ (statusWord s).getLsbD 2 = s.treeValid ∧
    (statusWord s).getLsbD 3 = s.ctValid ∧ (statusWord s).getLsbD 4 = s.treeMode ∧
    (statusWord s).getLsbD 5 = s.endReason ∧ (statusWord s).getLsbD 6 = s.midcode ∧
    (statusWord s).getLsbD 7 = s.overrun ∧ (statusWord s).extractLsb' 8 8 = s.lastOp ∧
    (statusWord s).extractLsb' 16 16 = 0#16

/-- R44 to R49, R51, R52, R54 to R56: what ERR_CAUSE, ERR_INFO, IN_COUNT and OUT_COUNT read, and what the readback
registers read while BUSY = 0, for a code of at most 256 bits, a node count and links that fit their fields. -/
def Obligations.ReadbackRegisters : Prop :=
  ∀ s : State,
    regValue s .errCause = s.errCause ∧ regValue s .errInfo = s.errInfo ∧
    regValue s .inCount = s.inCount ∧ regValue s .outCount = s.outCount ∧
    (s.root = none → regValue s .treeRoot = 0x0000FFFF#32) ∧
    (∀ r, s.root = some r → r < 513 → (regValue s .treeRoot).toNat = r) ∧
    (s.arena.length ≤ 513 → (regValue s .nodeCount).toNat = s.arena.length) ∧
    (257 ≤ s.ctSel.toNat → regValue s .ctInfo = 0 ∧ ∀ k, regValue s (.ctWord k) = 0) ∧
    (∀ y : Sym, s.ctSel.toNat = y.val → (ctEntry s y).valid = false →
      regValue s .ctInfo = 0 ∧ ∀ k, regValue s (.ctWord k) = 0) ∧
    (∀ y : Sym, s.ctSel.toNat = y.val → (ctEntry s y).valid = true → (ctEntry s y).code.length ≤ 256 →
      (regValue s .ctInfo).toNat = 2 ^ 31 + (ctEntry s y).code.length ∧
      ∀ (k : Fin 8) (j : Fin 32),
        (regValue s (.ctWord k)).getLsbD j.val = (ctEntry s y).code.getD (32 * k.val + j.val) false) ∧
    (s.arena.length ≤ s.nodeSel.toNat →
      regValue s .nodeInfo = 0 ∧ regValue s .nodeFreqLo = 0 ∧ regValue s .nodeFreqHi = 0 ∧
      regValue s .nodeLinks = 0) ∧
    (∀ y f, s.arena[s.nodeSel.toNat]? = some (.leaf y f) →
      (regValue s .nodeInfo).toNat = 1 + (if f.isSome then 4 else 0) + 2 ^ 16 * y.val ∧
      regValue s .nodeFreqLo = (f.getD (BitVec.allOnes 40)).extractLsb' 0 32 ∧
      regValue s .nodeFreqHi = 0#24 ++ (f.getD (BitVec.allOnes 40)).extractLsb' 32 8 ∧
      regValue s .nodeLinks = 0xFFFFFFFF#32) ∧
    (∀ f l r, s.arena[s.nodeSel.toNat]? = some (.internal f l r) →
      (regValue s .nodeInfo).toNat = 3 + (if f.isSome then 4 else 0) + 2 ^ 16 * 257 ∧
      regValue s .nodeFreqLo = (f.getD (BitVec.allOnes 40)).extractLsb' 0 32 ∧
      regValue s .nodeFreqHi = 0#24 ++ (f.getD (BitVec.allOnes 40)).extractLsb' 32 8 ∧
      regValue s .nodeLinks =
        (match r with | none => 0xFFFF#16 | some i => BitVec.ofNat 16 i) ++
        (match l with | none => 0xFFFF#16 | some i => BitVec.ofNat 16 i))

/-- R125: one poll of `WAIT` reads STATUS; while BUSY = 1 the host polls again (after a turn of the engine, log entry
19), and with BUSY = 0 it goes on. -/
def Obligations.WaitPollsStatus : Prop :=
  ∀ (s : State) (rest : List Move), s.moves = .act .wait :: rest →
    (s.busy = true →
      step s = .next { s with reads := s.reads ++ [statusWord s], moves := .engine :: .act .wait :: rest }) ∧
    (s.busy = false → step s = .next { s with reads := s.reads ++ [statusWord s], moves := rest })

/-- R90, R91, R98: the moves of the agents around the ports. The source offers a token at the end of SRC, or withdraws
what it offered (the drain of R278, log entry 18); the sink begins or ceases to accept (log entry 10); the platform sets
the presence inputs while BUSY = 0. While BUSY = 1 a move that leaves them as they are changes nothing, and one that
changes either is refused (R280, 93 S5; log entry 17). Nothing else changes. -/
def Obligations.AgentsMoveThePorts : Prop :=
  ∀ (s : State) (rest : List Move),
    (∀ tok, s.moves = .act (.offer tok) :: rest → step s = .next { s with moves := rest, src := s.src ++ [tok] }) ∧
    (s.moves = .act .drain :: rest → step s = .next { s with moves := rest, src := [] }) ∧
    (∀ ready, s.moves = .act (.sink ready) :: rest → step s = .next { s with moves := rest, snkReady := ready }) ∧
    (∀ a b, s.moves = .act (.presence a b) :: rest →
      (s.busy = false → step s = .next { s with moves := rest, srcPresent := a, snkPresent := b }) ∧
      (s.busy = true → a = s.srcPresent → b = s.snkPresent → step s = .next { s with moves := rest }) ∧
      (s.busy = true → (a ≠ s.srcPresent ∨ b ≠ s.snkPresent) → step s = .refused .presenceChangedWhileBusy))

/-! ### Rules over every command -/

/-- R90: an engine step takes at most the oldest token of SRC and puts at most one token, at the end of SNK, and only
while the sink accepts. -/
def Obligations.EnginePortsAreFifos : Prop :=
  ∀ (i : Instr) (s t : State), exec i s = .next t →
    (t.src = s.src ∨ ∃ tok, s.src = tok :: t.src) ∧
    (t.snk = s.snk ∨ (s.snkReady = true ∧ ∃ tok, t.snk = s.snk ++ [tok]))

/-- R90, R276, R281: a command at a take holds while SRC offers nothing, a command at a put holds while the sink does
not accept: the engine's step leaves the state as it is (the model's stutter, log entry 7). DECOMPRESS whose next bit
leads to the leaf of a byte holds before it takes the bit, because its take and its put are one step (R213; that the
step needs both ports is the model's deduction, log entry 11). -/
def Obligations.EngineHoldsOnItsPorts : Prop :=
  ∀ (s : State) (i : Instr), s.phase.command = some i →
    (s.src = [] → (s.phase = .compTake ∨ (∃ h, s.phase = .hdr h) ∨ (∃ r p, s.phase = .decGeneral r p) ∨
        ∃ r, s.phase = .decDegenerate r) → exec i s = .next s) ∧
    (s.snkReady = false →
      (s.phase = .compClose ∨ s.phase = .emitClose ∨ (∃ b, s.phase = .decStop b) ∨
        (∃ y n, s.phase = .compPut y n ∧ n < (ctEntry s y).code.length) ∨
        ∃ y n, s.phase = .emitPut y n ∧ n < (pairLines s y).length) → exec i s = .next s) ∧
    (∀ (data b : Byte) (rest : List SrcToken), s.snkReady = false → s.src = ⟨false, data⟩ :: rest →
      ((∃ r p c, s.phase = .decGeneral r p ∧ link s.arena p (data.getLsbD 0) = some c ∧
          IsLeaf s.arena c (symOfByte b)) ∨
        ∃ r, s.phase = .decDegenerate r ∧ IsLeaf s.arena r (symOfByte b)) → exec i s = .next s)

/-- No command writes the host's selectors, LAST_OP, the inputs or the model's own fields; only NOP writes OVERRUN (R42)
and only CLR_FREQ writes FREQ (R57). -/
def Obligations.CommandsLeaveHostStateAlone : Prop :=
  ∀ (i : Instr) (s t : State), exec i s = .next t →
    t.ctSel = s.ctSel ∧ t.nodeSel = s.nodeSel ∧ t.lastOp = s.lastOp ∧ t.srcPresent = s.srcPresent ∧
    t.snkPresent = s.snkPresent ∧ t.snkReady = s.snkReady ∧ t.marker = s.marker ∧ t.moves = s.moves ∧
    t.reads = s.reads ∧ t.draws = s.draws ∧
    (i ≠ .nop → t.overrun = s.overrun) ∧ (i ≠ .clrFreq → t.freq = s.freq)

/-- R37 to R41, R58, R59: which commands write which flags and files. TREE_VALID, ROOT and the arena: BUILD_FREQ,
BUILD_HDR, DISCARD. CT_VALID: set by GEN_TABLE, cleared by those three, and a VALID bit of an entry with it. TREE_MODE:
the two builders. END_REASON and MIDCODE: DECOMPRESS. -/
def Obligations.FlagsHaveTheirWriters : Prop :=
  ∀ (i : Instr) (s t : State), exec i s = .next t →
    (t.treeValid ≠ s.treeValid ∨ t.root ≠ s.root ∨ t.arena ≠ s.arena →
      i = .buildFreq ∨ i = .buildHdr ∨ i = .discard) ∧
    (s.ctValid = false → t.ctValid = true → i = .genTable) ∧
    (s.ctValid = true → t.ctValid = false →
      (i = .buildFreq ∨ i = .buildHdr ∨ i = .discard) ∧ ∀ y, (ctEntry t y).valid = false) ∧
    (t.ct ≠ s.ct → i = .genTable ∨ i = .buildFreq ∨ i = .buildHdr ∨ i = .discard) ∧
    (t.treeMode ≠ s.treeMode → i = .buildFreq ∨ i = .buildHdr) ∧
    (t.endReason ≠ s.endReason ∨ t.midcode ≠ s.midcode → i = .decompress)

/-- R243: the causes each command can raise. -/
def Obligations.CommandsRaiseTheirOwnCauses : Prop :=
  ∀ (i : Instr) (s t : State), exec i s = .next t → s.fault = false → t.fault = true →
    (t.errCause.extractLsb' 0 8).toNat ∈
      (match i with
        | .nop => []
        | .clrFreq => []
        | .discard => []
        | .buildFreq => [0x01]
        | .buildHdr => [0x02, 0x03]
        | .genTable => [0x04]
        | .compress => [0x02, 0x05, 0x06]
        | .decompress => [0x02, 0x04, 0x07, 0x08]
        | .emitHdr => [0x02, 0x05])

/-- R245, R247: a fault ends the command (BUSY = 0, IDLE) and the step that raises it puts nothing, no CLOSE either. -/
def Obligations.FaultEndsTheCommand : Prop :=
  ∀ (i : Instr) (s t : State), exec i s = .next t → s.fault = false → t.fault = true →
    t.phase = .idle ∧ t.busy = false ∧ t.snk = s.snk ∧ t.outCount = s.outCount ∧
    (t.errCause.extractLsb' 8 8 ≠ 0#8 → t.errCause.extractLsb' 0 8 = 0x03#8) ∧ t.errCause.extractLsb' 16 16 = 0#16

/-- R246: a fault raised by a start check changes only ERR_CAUSE, ERR_INFO, FAULT and BUSY. -/
def Obligations.StartCheckFaultsChangeNothingElse : Prop :=
  ∀ (i : Instr) (s t : State), s.phase = .start i → s.fault = false → exec i s = .next t → t.fault = true →
    t = { s with errCause := t.errCause, errInfo := t.errInfo, fault := true, phase := .idle }

/-- No command is refused, in any state. -/
def Obligations.NoCommandIsRefused : Prop :=
  ∀ (i : Instr) (s : State) (r : Refusal), exec i s ≠ .refused r

/-! ### Control commands and CLR_FREQ -/

/-- R230: NOP clears OVERRUN and completes, and nothing else changes; it is the only command that clears OVERRUN;
written while BUSY = 1 it is dropped and sets OVERRUN instead. -/
def Obligations.NopClearsOverrun : Prop :=
  encode .nop = 0x00000000#32 ∧
  (∀ s : State, exec .nop s = .next { s with overrun := false, phase := .idle }) ∧
  (∀ (i : Instr) (s t : State), exec i s = .next t → s.overrun = true → t.overrun = false → i = .nop) ∧
  (∀ (s : State) (rest : List Move), s.busy = true → s.moves = .act (.write 0x008 4 (encode .nop)) :: rest →
    step s = .next { s with moves := rest, overrun := true })

/-- R231: DISCARD drops the tree and the table and completes; nothing else changes but the VALID bits, all cleared. -/
def Obligations.DiscardDropsTreeAndTable : Prop :=
  ∀ s : State, ∃ ct : Vector CtEntry 257,
    exec .discard s = .next { s with
      root := none, arena := [], treeValid := false, ctValid := false, ct := ct, phase := .idle } ∧
    ∀ y : Sym, ct[y.val] = { s.ct[y.val] with valid := false }

/-- R142: CLR_FREQ makes every FREQ entry 0 and completes; nothing else changes. -/
def Obligations.ClrFreqClearsEveryCount : Prop :=
  ∀ s : State, ∃ freq : Vector Word 256,
    exec .clrFreq s = .next { s with freq := freq, phase := .idle } ∧ ∀ b : Fin 256, freq[b.val] = 0#32

/-! ### BUILD_FREQ -/

/-- R144, R180: BUILD_FREQ over an all-zero FREQ faults EMPTY_FREQ_TABLE, GEN_TABLE with no tree faults EMPTY_TREE, each
with ERR_INFO 0; nothing else changes. -/
def Obligations.MissingInputsFault : Prop :=
  ∀ s : State,
    ((∀ b : Fin 256, s.freq[b.val] = 0#32) →
      exec .buildFreq s = .next { s with
        errCause := 0x00000001#32, errInfo := 0, fault := true, phase := .idle }) ∧
    (s.treeValid = false →
      exec .genTable s = .next { s with
        errCause := 0x00000004#32, errInfo := 0, fault := true, phase := .idle })

/-- R144, R145: a BUILD_FREQ over a FREQ with a nonzero entry completes with TREE_VALID 1, TREE_MODE 0, the table
invalid, and the arena laid out as R145 says; nothing else changes. -/
def Obligations.BuildFreqLayout : Prop :=
  ∀ s : State, (∃ b : Fin 256, s.freq[b.val] ≠ 0#32) →
    ∃ (arena : List Node) (ct : Vector CtEntry 257),
      exec .buildFreq s = .next { s with
        arena := arena, root := some (2 * leafCount s.freq - 2), ct := ct, treeValid := true, treeMode := false,
        ctValid := false, phase := .idle } ∧
      (∀ y : Sym, ct[y.val].valid = false) ∧
      arena.length = 2 * leafCount s.freq - 1 ∧
      arena.take (leafCount s.freq) =
        (presentBytes s.freq).map (fun b => Node.leaf (b.castLE (by decide)) (some (s.freq[b.val].setWidth 40))) ++
          [Node.leaf 256 (some 1#40)] ∧
      ∀ k, leafCount s.freq ≤ k → k < arena.length →
        ∃ f a b, arena[k]? = some (.internal (some f) (some a) (some b)) ∧ a < k ∧ b < k

/-- R140, R141, R144: every merge takes the two smallest keys among the nodes not merged before it, the smallest to the
left. The key (FREQ, SYM, index) makes the older of two equal internal nodes go first. -/
def Obligations.BuildFreqMergesSmallestKeys : Prop :=
  ∀ (s t : State), (∃ b : Fin 256, s.freq[b.val] ≠ 0#32) → exec .buildFreq s = .next t →
    ∀ (k : Nat) (f : Option NodeFreq) (a b : Nat), t.arena[k]? = some (.internal f (some a) (some b)) →
      Before t.arena a b ∧
      ∀ j < k, j ≠ a → j ≠ b → (∀ m < k, ∀ bit, link t.arena m bit ≠ some j) → Before t.arena b j

/-- R143: the frequency of an internal node is the exact sum of its children's, with no overflow, and the root's is 1
plus the sum of all counts. -/
def Obligations.BuildFreqSumsExactly : Prop :=
  ∀ (s t : State), (∃ b : Fin 256, s.freq[b.val] ≠ 0#32) → exec .buildFreq s = .next t →
    (∀ (k : Nat) (f : Option NodeFreq) (a b : Nat), t.arena[k]? = some (.internal f (some a) (some b)) →
      ∃ g, f = some g ∧ g.toNat = (freqAt t.arena a).toNat + (freqAt t.arena b).toNat) ∧
    ∃ r, t.root = some r ∧
      (freqAt t.arena r).toNat = 1 + ((List.finRange 256).map (fun b => s.freq[b.val].toNat)).sum

/-- R146: a BUILD_FREQ tree is a full binary tree on its L leaves: every node but the root is the child of exactly one
internal node, every internal node has two children, the depth is at most L − 1, and each symbol in FREQ and
`EOF_SYMBOL`, and no other, has a leaf, reached by exactly one path. -/
def Obligations.BuildFreqTreeIsFull : Prop :=
  ∀ (s t : State), (∃ b : Fin 256, s.freq[b.val] ≠ 0#32) → exec .buildFreq s = .next t →
    ∃ r, t.root = some r ∧
      (∀ j < t.arena.length, j ≠ r → ∃ k bit, link t.arena k bit = some j ∧
        ∀ k' bit', link t.arena k' bit' = some j → k' = k ∧ bit' = bit) ∧
      (∀ k bit, IsInternal t.arena k → ∃ c, link t.arena k bit = some c) ∧
      (∀ p j, follow t.arena p r = some j → p.length ≤ leafCount s.freq - 1) ∧
      ∀ y : Sym, ((y = 256 ∨ ∃ b : Fin 256, b.val = y.val ∧ s.freq[b.val] ≠ 0#32) ↔ ∃ p, LeafAt t.arena r p y) ∧
        ∀ p q, LeafAt t.arena r p y → LeafAt t.arena r q y → p = q

/-- R148: with exactly one nonzero entry FREQ[x] = f the arena is leaf x, leaf EOF and an internal root of frequency
f + 1, and GEN_TABLE gives x "0" and EOF "1" for f = 1, EOF "0" and x "1" for f ≥ 2. -/
def Obligations.SingleSymbolCodes : Prop :=
  ∀ (s : State) (x : Fin 256), s.freq[x.val] ≠ 0#32 → (∀ b : Fin 256, b ≠ x → s.freq[b.val] = 0#32) →
    ∃ t u : State, exec .buildFreq s = .next t ∧ exec .genTable t = .next u ∧
      (∃ l r, t.arena = [.leaf (x.castLE (by decide)) (some (s.freq[x.val].setWidth 40)), .leaf 256 (some 1#40),
        .internal (some (s.freq[x.val].setWidth 40 + 1#40)) (some l) (some r)]) ∧ t.root = some 2 ∧
      ctEntry u (x.castLE (by decide)) = ⟨true, [decide (2 ≤ s.freq[x.val].toNat)]⟩ ∧
      ctEntry u 256 = ⟨true, [decide (s.freq[x.val].toNat = 1)]⟩

/-! ### BUILD_HDR -/

/-- R160, R161, R64: START of BUILD_HDR (no source: INVALID_STREAM with ERR_INFO 1; otherwise the tree and table are
dropped and the parser cleared), and the step that takes a byte other than 0x0A: the byte goes to LB, or sets LB_OVF
when LB holds 256 bytes, and LB_BAD is set by a byte other than '0' and '1'. R64 and R160 name no value of PK after
START: the 0 it has here is the model's choice, and no step reads it (log entry 20). -/
def Obligations.BuildHdrCollectsLines : Prop :=
  ∀ s : State,
    (s.phase = .start .buildHdr → s.srcPresent = false →
      exec .buildHdr s = .next { s with
        errCause := 0x00000002#32, errInfo := 1, fault := true, phase := .idle }) ∧
    (s.phase = .start .buildHdr → s.srcPresent = true →
      ∃ ct : Vector CtEntry 257, (∀ y : Sym, ct[y.val].valid = false) ∧
        exec .buildHdr s = .next { s with
          root := none, arena := [], treeValid := false, ctValid := false, ct := ct,
          phase := .hdr ⟨[], false, false, 0, 0, Vector.replicate 257 false⟩ }) ∧
    (∀ (h : HdrState) (c : Byte) (rest : List SrcToken), s.phase = .hdr h → s.src = ⟨false, c⟩ :: rest →
      c ≠ 0x0A#8 →
      exec .buildHdr s = .next { s with
        src := rest, inCount := s.inCount + 1,
        phase := .hdr { h with
          lb := if h.lb.length = 256 then h.lb else h.lb ++ [c]
          ovf := h.ovf || decide (h.lb.length = 256)
          bad := h.bad || (c != 0x30#8 && c != 0x31#8) } })

/-- R164, R165, R167: the step that ends a key line (an odd line): a line that is the marker or 1 to 3 digits of value
at most 255 becomes the pending symbol; any other line, or one that overflowed LB, faults BAD_KEY; a symbol already
placed faults DUP_KEY. ERR_INFO is the line's number. -/
def Obligations.KeyLinesResolve : Prop :=
  ∀ (s : State) (h : HdrState) (rest : List SrcToken), s.phase = .hdr h → s.src = ⟨false, 0x0A#8⟩ :: rest →
    h.ln.getLsbD 0 = false → Wf.marker s.marker = true →
    let decimal := 1 ≤ h.lb.length ∧ h.lb.length ≤ 3 ∧ (∀ c ∈ h.lb, 0x30 ≤ c.toNat ∧ c.toNat ≤ 0x39) ∧
      decValue h.lb ≤ 255
    let raises := fun (code : Word) => exec .buildHdr s = .next { s with
      src := rest, inCount := s.inCount + 1, root := none, errCause := code, errInfo := h.ln + 1, fault := true,
      phase := .idle }
    let pending := fun (y : Sym) => exec .buildHdr s = .next { s with
      src := rest, inCount := s.inCount + 1,
      phase := .hdr { h with lb := [], ovf := false, bad := false, ln := h.ln + 1, pk := y } }
    ((h.ovf = true ∨ (h.lb ≠ s.marker ∧ ¬decimal)) → raises 0x00000203#32) ∧
    (h.ovf = false → h.lb = s.marker →
      (h.present[256] = true → raises 0x00000503#32) ∧ (h.present[256] = false → pending 256)) ∧
    (h.ovf = false → decimal → ∀ y : Sym, y.val = decValue h.lb →
      (h.present[y.val] = true → raises 0x00000503#32) ∧ (h.present[y.val] = false → pending y))

/-- R168, R174: the step that ends a code line (an even line) with a byte other than '0' and '1' faults BAD_CODE_CHAR,
with more than 256 bytes CODE_TOO_LONG, in that order; ROOT becomes IDX_NIL, the arena stays. -/
def Obligations.CodeLinesAreChecked : Prop :=
  ∀ (s : State) (h : HdrState) (rest : List SrcToken), s.phase = .hdr h → s.src = ⟨false, 0x0A#8⟩ :: rest →
    h.ln.getLsbD 0 = true →
    (h.bad = true → exec .buildHdr s = .next { s with
      src := rest, inCount := s.inCount + 1, root := none, errCause := 0x00000303#32, errInfo := h.ln + 1,
      fault := true, phase := .idle }) ∧
    (h.bad = false → h.ovf = true → exec .buildHdr s = .next { s with
      src := rest, inCount := s.inCount + 1, root := none, errCause := 0x00000403#32, errInfo := h.ln + 1,
      fault := true, phase := .idle })

/-- R168 to R172, R174: the step that ends a legal code line, in a state of the invariant. It faults COLLISION exactly
if the code is not prefix-free with the code of a leaf already there, and then the arena stays. Otherwise it faults
ARENA_FULL, with the arena full, exactly if the nodes missing on the code's path do not fit; or it allocates just those,
all with the placeholder frequency, places the pending symbol's leaf at the end of the path, and no other leaf moves. -/
def Obligations.CodeLinesInsertOrFault : Prop :=
  ∀ (s : State) (h : HdrState) (rest : List SrcToken), Inv s → s.phase = .hdr h →
    s.src = ⟨false, 0x0A#8⟩ :: rest → h.ln.getLsbD 0 = true → h.bad = false → h.ovf = false →
    let code := h.lb.map (fun c => c == 0x31#8)
    let collides := ∃ r d y, s.root = some r ∧ LeafAt s.arena r d y ∧ ¬PrefixFree code d
    (collides → exec .buildHdr s = .next { s with
      src := rest, inCount := s.inCount + 1, root := none, errCause := 0x00000603#32, errInfo := h.ln + 1,
      fault := true, phase := .idle }) ∧
    (¬collides → 513 < s.arena.length + missingNodes s.root s.arena code →
      ∃ arena, exec .buildHdr s = .next { s with
        src := rest, inCount := s.inCount + 1, root := none, arena := arena, errCause := 0x00000703#32,
        errInfo := h.ln + 1, fault := true, phase := .idle } ∧ arena.length = 513) ∧
    (¬collides → s.arena.length + missingNodes s.root s.arena code ≤ 513 →
      ∃ arena r, exec .buildHdr s = .next { s with
        src := rest, inCount := s.inCount + 1, root := some r, arena := arena,
        phase := .hdr { h with
          lb := [], ovf := false, bad := false, ln := h.ln + 1, present := h.present.set h.pk.val true } } ∧
        arena.length = s.arena.length + missingNodes s.root s.arena code ∧
        (∀ k < arena.length, s.arena.length ≤ k → ∃ n, arena[k]? = some n ∧ n.freq = none) ∧
        ∀ d y, LeafAt arena r d y ↔
          (d = code ∧ y = h.pk) ∨ ∃ r', s.root = some r' ∧ LeafAt s.arena r' d y)

/-- R160, R162, R173: the step that takes END with no unterminated tail: an odd number of lines faults UNPAIRED with the
number of lines; an even number completes with TREE_MODE 1 and TREE_VALID 1 exactly if a pair was inserted. END is not
counted. -/
def Obligations.BuildHdrEnds : Prop :=
  ∀ (s : State) (h : HdrState) (data : Byte) (rest : List SrcToken), s.phase = .hdr h →
    s.src = ⟨true, data⟩ :: rest → h.lb = [] →
    (h.ln.getLsbD 0 = true → exec .buildHdr s = .next { s with
      src := rest, root := none, errCause := 0x00000103#32, errInfo := h.ln, fault := true, phase := .idle }) ∧
    (h.ln.getLsbD 0 = false → exec .buildHdr s = .next { s with
      src := rest, treeValid := s.root.isSome, treeMode := true, phase := .idle })

/-- R163: a non-empty unterminated tail at END is one last line: the step comes to what it would come to with the line
terminated first and END then, the fault of a bad line included. -/
def Obligations.UnterminatedTailIsALine : Prop :=
  ∀ (s t : State) (h : HdrState) (data : Byte) (rest : List SrcToken), s.phase = .hdr h → h.lb ≠ [] →
    s.src = ⟨true, data⟩ :: rest → exec .buildHdr { s with src := ⟨false, 0x0A#8⟩ :: s.src } = .next t →
    (t.phase = .idle → exec .buildHdr s = .next { t with src := rest, inCount := s.inCount }) ∧
    (∀ h', t.phase = .hdr h' →
      ∃ u, exec .buildHdr t = .next u ∧ exec .buildHdr s = .next { u with inCount := s.inCount })

/-- R174: a fault after START makes ROOT IDX_NIL, leaves TREE_VALID, TREE_MODE, CT_VALID and the table, and takes no
further token. The nodes allocated so far keep their contents: each has its KIND, SYM, FREQ and FREQ_KNOWN as before the
faulting step, and its links too, but for an absent one that the step made lead to a node it allocated itself (R169).
What the step allocated before its fault are placeholder internal nodes (R172). -/
def Obligations.HeaderFaultDiscardsTheTree : Prop :=
  ∀ (s t : State) (h : HdrState), s.phase = .hdr h → s.fault = false → exec .buildHdr s = .next t → t.fault = true →
    t.root = none ∧ t.treeValid = s.treeValid ∧ t.treeMode = s.treeMode ∧ t.ctValid = s.ctValid ∧ t.ct = s.ct ∧
    s.arena.length ≤ t.arena.length ∧
    (∀ (k : Nat) (n : Node), s.arena[k]? = some n → ∃ n' : Node, t.arena[k]? = some n' ∧
      n'.kind = n.kind ∧ n'.sym = n.sym ∧ n'.freq = n.freq ∧
      ∀ bit, n'.child bit = n.child bit ∨
        (n.child bit = none ∧ ∃ c, s.arena.length ≤ c ∧ n'.child bit = some c)) ∧
    (∀ (k : Nat) (n : Node), s.arena.length ≤ k → t.arena[k]? = some n → n.kind = true ∧ n.freq = none) ∧
    (∃ tok, s.src = tok :: t.src) ∧ t.phase = .idle

/-- R173, R170, R171: the engine, left alone with the text of a legal header and END on SRC, completes with no fault;
the leaves of the tree it builds are exactly the header's pairs, so the tree does not depend on their order. -/
def Obligations.BuildHdrBuildsTheListedTree : Prop :=
  ∀ (s : State) (l : List HdrPair) (data : Byte) (rest : List SrcToken), Wf.marker s.marker = true →
    s.phase = .start .buildHdr → s.fault = false → s.srcPresent = true → HeaderOk s.marker l →
    s.src = (headerText l).map SrcToken.d ++ ⟨true, data⟩ :: rest →
    ∃ t : State, Leads s t ∧ t.phase = .idle ∧ t.fault = false ∧ t.src = rest ∧ t.treeMode = true ∧
      t.treeValid = !l.isEmpty ∧ t.ctValid = false ∧
      t.inCount = s.inCount + BitVec.ofNat 32 (headerText l).length ∧
      (l = [] → t.root = none) ∧
      (l ≠ [] → ∃ r, t.root = some r ∧ ∀ code y, LeafAt t.arena r code y ↔ ∃ p ∈ l, p.code = code ∧ p.sym = y)

/-! ### GEN_TABLE and EMIT_HDR -/

/-- R180, R182 (a), (b): in a state of the invariant with a tree, GEN_TABLE completes; an entry is valid with a code
exactly if the code is the path from ROOT to a leaf that holds the symbol; nothing else changes. -/
def Obligations.GenTableRecordsEveryLeaf : Prop :=
  ∀ (s : State) (r : Nat), Inv s → s.treeValid = true → s.root = some r →
    ∃ ct : Vector CtEntry 257,
      exec .genTable s = .next { s with ct := ct, ctValid := true, phase := .idle } ∧
      ∀ (y : Sym) (code : List Bool),
        (ct[y.val].valid = true ∧ ct[y.val].code = code) ↔ LeafAt s.arena r code y

/-- R182 (c), (d), (e): in every state of the invariant, and after every step from one, a table that is valid has
prefix-free codes for any two distinct symbols, no code of more than 256 bits, and, for a BUILD_FREQ tree, an
`EOF_SYMBOL` entry. -/
def Obligations.TableIsPrefixFree : Prop :=
  ∀ s t : State, Inv s → (t = s ∨ step s = .next t) → t.ctValid = true →
    (∀ y z : Sym, y ≠ z → (ctEntry t y).valid = true → (ctEntry t z).valid = true →
      ¬(ctEntry t y).code <+: (ctEntry t z).code) ∧
    (∀ y : Sym, (ctEntry t y).valid = true → (ctEntry t y).code.length ≤ 256) ∧
    (t.treeMode = false → (ctEntry t 256).valid = true)

/-- R183: the steps of EMIT_HDR. No sink: INVALID_STREAM with ERR_INFO 2; no table: NO_TABLE with ERR_INFO 0xFFFFFFFF,
in that order, and nothing else changes. A put adds one byte and counts it. The last puts CLOSE, not counted, and
completes. -/
def Obligations.EmitHdrSteps : Prop :=
  ∀ s : State,
    (s.phase = .start .emitHdr → s.snkPresent = false →
      exec .emitHdr s = .next { s with
        errCause := 0x00000002#32, errInfo := 2, fault := true, phase := .idle }) ∧
    (s.phase = .start .emitHdr → s.snkPresent = true → s.ctValid = false →
      exec .emitHdr s = .next { s with
        errCause := 0x00000005#32, errInfo := 0xFFFFFFFF#32, fault := true, phase := .idle }) ∧
    (s.phase = .start .emitHdr → s.snkPresent = true → s.ctValid = true →
      ∃ p, exec .emitHdr s = .next { s with phase := p } ∧ (p = .emitClose ∨ ∃ y, p = .emitPut y 0)) ∧
    (∀ (y : Sym) (n : Nat) (c : Byte), s.phase = .emitPut y n → s.snkReady = true →
      (pairLines s y)[n]? = some c →
      ∃ p, exec .emitHdr s = .next { s with
        snk := s.snk ++ [⟨false, c⟩], outCount := s.outCount + 1, phase := p } ∧
        (n + 1 < (pairLines s y).length → p = .emitPut y (n + 1))) ∧
    (s.phase = .emitClose → s.snkReady = true →
      exec .emitHdr s = .next { s with snk := s.snk ++ [⟨true, 0⟩], phase := .idle })

/-- R183, R123: EMIT_HDR, left alone with the sink accepting, puts exactly the canonical header of the table, then
CLOSE, and counts its bytes; nothing else changes. -/
def Obligations.EmitHdrPutsCanonicalHeader : Prop :=
  ∀ s : State, s.phase = .start .emitHdr → s.snkPresent = true → s.snkReady = true → s.ctValid = true →
    Leads s { s with
      snk := s.snk ++ (canonicalHeader s).map SnkToken.d ++ [SnkToken.closing],
      outCount := s.outCount + BitVec.ofNat 32 (canonicalHeader s).length, phase := .idle }

/-- R184: `dec(s)` is one byte for s < 10, two for s < 100, three otherwise, digits only, with no leading zero, of value
s, and a decimal key. -/
def Obligations.DecimalTextOfSymbols : Prop :=
  ∀ n : Fin 256,
    (decText n.val).length = (if n.val < 10 then 1 else if n.val < 100 then 2 else 3) ∧
    (n.val < 10 → decText n.val = [BitVec.ofNat 8 (0x30 + n.val)]) ∧
    (∀ c ∈ decText n.val, 0x30 ≤ c.toNat ∧ c.toNat ≤ 0x39) ∧
    (10 ≤ n.val → (decText n.val).head? ≠ some 0x30#8) ∧
    decValue (decText n.val) = n.val ∧ isDecKey (decText n.val) = true

/-! ### COMPRESS -/

/-- R196: the start checks of COMPRESS in their order: port presence, then the table, then the `EOF_SYMBOL` entry. A
check that fails takes and puts nothing; with all passed the engine is ready to take. -/
def Obligations.CompressStartChecks : Prop :=
  ∀ s : State, s.phase = .start .compress →
    (s.srcPresent = false ∨ s.snkPresent = false →
      exec .compress s = .next { s with
        errCause := 0x00000002#32,
        errInfo := (if s.srcPresent = false then 1#32 else 0#32) + (if s.snkPresent = false then 2#32 else 0#32),
        fault := true, phase := .idle }) ∧
    (s.srcPresent = true → s.snkPresent = true → s.ctValid = false →
      exec .compress s = .next { s with
        errCause := 0x00000005#32, errInfo := 0xFFFFFFFF#32, fault := true, phase := .idle }) ∧
    (s.srcPresent = true → s.snkPresent = true → s.ctValid = true → (ctEntry s 256).valid = false →
      exec .compress s = .next { s with
        errCause := 0x00000005#32, errInfo := 256#32, fault := true, phase := .idle }) ∧
    (s.srcPresent = true → s.snkPresent = true → s.ctValid = true → (ctEntry s 256).valid = true →
      exec .compress s = .next { s with phase := .compTake })

/-- R195, R197, R198: the steps of COMPRESS after START. A byte with no valid entry faults UNKNOWN_SYMBOL in the step
that takes it, with no bit put; a byte with an entry is taken and counted; a code bit is put and counted; CLOSE is put,
not counted, and completes. That a code of no bits takes no step is the model's deduction (log entry 13). -/
def Obligations.CompressSteps : Prop :=
  ∀ s : State,
    (∀ (c : Byte) (y : Sym) (rest : List SrcToken), s.phase = .compTake → s.src = ⟨false, c⟩ :: rest →
      y.val = c.toNat →
      ((ctEntry s y).valid = false → exec .compress s = .next { s with
        src := rest, inCount := s.inCount + 1, errCause := 0x00000006#32, errInfo := c.setWidth 32, fault := true,
        phase := .idle }) ∧
      ((ctEntry s y).valid = true → exec .compress s = .next { s with
        src := rest, inCount := s.inCount + 1,
        phase := if (ctEntry s y).code = [] then .compTake else .compPut y 0 })) ∧
    (∀ (data : Byte) (rest : List SrcToken), s.phase = .compTake → s.src = ⟨true, data⟩ :: rest →
      exec .compress s = .next { s with
        src := rest, phase := if (ctEntry s 256).code = [] then .compClose else .compPut 256 0 }) ∧
    (∀ (y : Sym) (n : Nat) (b : Bool), s.phase = .compPut y n → s.snkReady = true →
      (ctEntry s y).code[n]? = some b →
      exec .compress s = .next { s with
        snk := s.snk ++ [⟨false, if b then 0x01#8 else 0x00#8⟩], outCount := s.outCount + 1,
        phase := if n + 1 < (ctEntry s y).code.length then .compPut y (n + 1)
          else if y = 256 then .compClose else .compTake }) ∧
    (s.phase = .compClose → s.snkReady = true →
      exec .compress s = .next { s with snk := s.snk ++ [⟨true, 0⟩], phase := .idle })

/-- R195, R197, R199, R200: COMPRESS, left alone with the sink accepting and bytes that all have a code and END on SRC,
puts the codes of the bytes in order, first bit first, then the `EOF_SYMBOL` code, then CLOSE, and counts them; nothing
else changes. With no byte this is the empty input. -/
def Obligations.CompressPutsPayload : Prop :=
  ∀ (s : State) (l : List Byte) (data : Byte) (rest : List SrcToken), s.phase = .start .compress →
    s.srcPresent = true → s.snkPresent = true → s.snkReady = true → s.ctValid = true →
    (ctEntry s 256).valid = true → (∀ c ∈ l, (ctEntry s (symOfByte c)).valid = true) →
    s.src = l.map SrcToken.d ++ ⟨true, data⟩ :: rest →
    Leads s { s with
      src := rest,
      snk := s.snk ++ (payload s l).map (fun b => SnkToken.d (if b then 0x01#8 else 0x00#8)) ++ [SnkToken.closing],
      inCount := s.inCount + BitVec.ofNat 32 l.length,
      outCount := s.outCount + BitVec.ofNat 32 (payload s l).length, phase := .idle }

/-! ### DECOMPRESS -/

/-- R219, R210, R211: the start checks of DECOMPRESS in their order, END_REASON and MIDCODE unchanged by a failed one;
passed, both are cleared and the engine goes to the degenerate path exactly if the root is a leaf or lacks a child. -/
def Obligations.DecompressStartChecks : Prop :=
  ∀ s : State, s.phase = .start .decompress →
    (s.srcPresent = false ∨ s.snkPresent = false →
      exec .decompress s = .next { s with
        errCause := 0x00000002#32,
        errInfo := (if s.srcPresent = false then 1#32 else 0#32) + (if s.snkPresent = false then 2#32 else 0#32),
        fault := true, phase := .idle }) ∧
    (s.srcPresent = true → s.snkPresent = true → s.treeValid = false →
      exec .decompress s = .next { s with
        errCause := 0x00000004#32, errInfo := 0, fault := true, phase := .idle }) ∧
    (∀ r n, s.srcPresent = true → s.snkPresent = true → s.treeValid = true → s.root = some r →
      s.arena[r]? = some n →
      ((∃ f a b, n = .internal f (some a) (some b)) →
        exec .decompress s = .next { s with
          endReason := false, midcode := false, phase := .decGeneral r r }) ∧
      ((¬∃ f a b, n = .internal f (some a) (some b)) →
        exec .decompress s = .next { s with
          endReason := false, midcode := false, phase := .decDegenerate r }))

/-- R213, R214, R218: the step of the general path. END stops with reason 1 and MIDCODE says whether the pointer is away
from the root; a bit, DATA[0] alone, selects the child: an absent one faults DECODE_NULL_CHILD with
`p | (bit << 16)`; the `EOF_SYMBOL` leaf stops with reason 0; another leaf puts its byte and resets the pointer; an
internal node becomes the pointer. That the step that ends at STOP writes MIDCODE and leaves END_REASON and CLOSE to a
step of its own is the model's deduction (log entry 12). -/
def Obligations.DecompressGeneralStep : Prop :=
  ∀ (s : State) (r p : Nat) (rest : List SrcToken), s.phase = .decGeneral r p →
    (∀ data, s.src = ⟨true, data⟩ :: rest →
      exec .decompress s = .next { s with
        src := rest, midcode := decide (p ≠ r), phase := .decStop true }) ∧
    (∀ data, s.src = ⟨false, data⟩ :: rest → IsInternal s.arena p →
      (link s.arena p (data.getLsbD 0) = none → exec .decompress s = .next { s with
        src := rest, inCount := s.inCount + 1, errCause := 0x00000007#32,
        errInfo := BitVec.ofNat 32 p ||| ((if data.getLsbD 0 then 1#32 else 0#32) <<< 16), fault := true,
        phase := .idle }) ∧
      (∀ c, link s.arena p (data.getLsbD 0) = some c →
        (IsLeaf s.arena c 256 → exec .decompress s = .next { s with
          src := rest, inCount := s.inCount + 1, phase := .decStop false }) ∧
        (∀ b : Byte, IsLeaf s.arena c (symOfByte b) → s.snkReady = true →
          exec .decompress s = .next { s with
            src := rest, inCount := s.inCount + 1, snk := s.snk ++ [⟨false, b⟩], outCount := s.outCount + 1,
            phase := .decGeneral r r }) ∧
        (IsInternal s.arena c → exec .decompress s = .next { s with
          src := rest, inCount := s.inCount + 1, phase := .decGeneral r c })))

/-- R212, R215: the step of the degenerate path, and STOP. END stops with reason 1; a bit, whatever its value, stops at
an `EOF_SYMBOL` root with reason 0, faults MALFORMED_TREE at an internal root, puts the byte of another leaf root. STOP
writes END_REASON, puts CLOSE, not counted, and completes. That STOP is a step of its own, apart from the take that leads
to it, is the model's deduction (log entry 12). -/
def Obligations.DecompressDegenerateStepAndStop : Prop :=
  (∀ (s : State) (r : Nat) (rest : List SrcToken), s.phase = .decDegenerate r →
    (∀ data, s.src = ⟨true, data⟩ :: rest →
      exec .decompress s = .next { s with src := rest, phase := .decStop true }) ∧
    (∀ data, s.src = ⟨false, data⟩ :: rest →
      (IsLeaf s.arena r 256 → exec .decompress s = .next { s with
        src := rest, inCount := s.inCount + 1, phase := .decStop false }) ∧
      (IsInternal s.arena r → exec .decompress s = .next { s with
        src := rest, inCount := s.inCount + 1, errCause := 0x00000008#32, errInfo := BitVec.ofNat 32 r,
        fault := true, phase := .idle }) ∧
      (∀ b : Byte, IsLeaf s.arena r (symOfByte b) → s.snkReady = true → exec .decompress s = .next { s with
        src := rest, inCount := s.inCount + 1, snk := s.snk ++ [⟨false, b⟩], outCount := s.outCount + 1 }))) ∧
  (∀ (s : State) (reason : Bool), s.phase = .decStop reason → s.snkReady = true →
    exec .decompress s = .next { s with
      endReason := reason, snk := s.snk ++ [⟨true, 0⟩], phase := .idle })

/-- R213, R215, R216, R217: DECOMPRESS on the general path, left alone with the sink accepting: bits that spell out the
codes of a list of bytes put those bytes. If the `EOF_SYMBOL` code follows, it stops there with END_REASON 0 and leaves
the rest of SRC; if END follows a part `q` of a code, it stops silently with END_REASON 1 and MIDCODE saying whether `q`
is non-empty. Both end with CLOSE and no fault. -/
def Obligations.DecompressEmitsSpelledBytes : Prop :=
  ∀ (s : State) (r : Nat) (l : List Byte) (codes : List (List Bool)) (toks rest : List SrcToken), Inv s →
    s.phase = .decGeneral r r → s.snkReady = true →
    List.Forall₂ (fun b code => LeafAt s.arena r code (symOfByte b)) l codes →
    (∀ eof, LeafAt s.arena r eof 256 → BitTokens toks (codes.flatten ++ eof) → s.src = toks ++ rest →
      Leads s { s with
        src := rest, snk := s.snk ++ l.map SnkToken.d ++ [SnkToken.closing],
        inCount := s.inCount + BitVec.ofNat 32 toks.length, outCount := s.outCount + BitVec.ofNat 32 l.length,
        endReason := false, phase := .idle }) ∧
    (∀ q p data, follow s.arena q r = some p → IsInternal s.arena p → BitTokens toks (codes.flatten ++ q) →
      s.src = toks ++ ⟨true, data⟩ :: rest →
      Leads s { s with
        src := rest, snk := s.snk ++ l.map SnkToken.d ++ [SnkToken.closing],
        inCount := s.inCount + BitVec.ofNat 32 toks.length, outCount := s.outCount + BitVec.ofNat 32 l.length,
        endReason := true, midcode := !q.isEmpty, phase := .idle })

/-! ### Round trips -/

/-- R201: BUILD_FREQ and GEN_TABLE over a FREQ with a nonzero entry, COMPRESS of bytes that all have a nonzero count,
then DECOMPRESS of the bits it put, followed by any further tokens, puts exactly those bytes and CLOSE, with END_REASON
0, and leaves the further tokens. -/
def Obligations.CompressThenDecompressIsIdentity : Prop :=
  ∀ (s : State) (l : List Byte) (more more' : List SrcToken),
    (∃ b : Fin 256, s.freq[b.val] ≠ 0#32) → (∀ c ∈ l, s.freq[c.toNat] ≠ 0#32) →
    s.srcPresent = true → s.snkPresent = true → s.snkReady = true → s.fault = false →
    ∃ (t u : State), exec .buildFreq s = .next t ∧ exec .genTable t = .next u ∧
      ∃ (v : State) (bits : List Bool),
        Leads { u with phase := .start .compress, src := l.map SrcToken.d ++ SrcToken.eos :: more } v ∧
        v.phase = .idle ∧ v.fault = false ∧ v.src = more ∧
        v.snk = u.snk ++ bits.map (fun b => SnkToken.d (bitData b)) ++ [SnkToken.closing] ∧
        ∃ w : State,
          Leads { v with
            phase := .start .decompress, src := bits.map (fun b => SrcToken.d (bitData b)) ++ more' } w ∧
          w.phase = .idle ∧ w.fault = false ∧ w.endReason = false ∧ w.src = more' ∧
          w.snk = v.snk ++ l.map SnkToken.d ++ [SnkToken.closing]

/-- R175: the header EMIT_HDR puts for the table of a BUILD_FREQ tree, given to BUILD_HDR, builds a tree with no fault,
and GEN_TABLE on it gives every symbol the same code as before. -/
def Obligations.HeaderRoundTripKeepsEveryCode : Prop :=
  ∀ (s : State) (more : List SrcToken),
    (∃ b : Fin 256, s.freq[b.val] ≠ 0#32) → Wf.marker s.marker = true →
    s.srcPresent = true → s.snkPresent = true → s.snkReady = true → s.fault = false →
    ∃ (t u : State), exec .buildFreq s = .next t ∧ exec .genTable t = .next u ∧
      ∃ (v : State) (text : List Byte),
        Leads { u with phase := .start .emitHdr } v ∧ v.phase = .idle ∧
        v.snk = u.snk ++ text.map SnkToken.d ++ [SnkToken.closing] ∧
        ∃ (w x : State),
          Leads { v with phase := .start .buildHdr, src := text.map SrcToken.d ++ SrcToken.eos :: more } w ∧
          w.phase = .idle ∧ w.fault = false ∧ w.treeValid = true ∧ w.treeMode = true ∧ w.src = more ∧
          exec .genTable w = .next x ∧
          ∀ y : Sym, (ctEntry x y).valid = (ctEntry u y).valid ∧
            ((ctEntry u y).valid = true → (ctEntry x y).code = (ctEntry u y).code)

/-! ### The invariant -/

/-- The state after reset meets the invariant, whatever FREQ holds, for every legal EOF_MARKER_TEXT (R66, R270, R6). -/
def Obligations.ResetMeetsInvariant : Prop :=
  (∀ (freq : Vector Word 256) (marker : List Byte), Wf.marker marker = true → Inv (State.afterReset freq marker)) ∧
  Inv State.reset

/-- R66 and the rules it is derived from: every step, of the engine or of an agent around it, keeps the invariant, from
every state that meets it. -/
def Obligations.StepKeepsInvariant : Prop :=
  ∀ s t : State, Inv s → step s = .next t → Inv t

/-- From a state of the invariant, a step answers a next state, except for the host actions the spec gives no step: an
undefined access (R82, 93 S4) and a presence change while BUSY (R280, 93 S5). The model's own stops never happen (R97,
log entry 16). That a hold and an idle turn of the engine answer a next state at all, the same state, is the model's
choice: R9 and R90 give the engine no step there (log entry 7). -/
def Obligations.StepsAlwaysAnswer : Prop :=
  ∀ s : State, Inv s →
    (∃ t, step s = .next t) ∨
    (∃ off width rest, s.moves = .act (.read off width) :: rest ∧ (width ≠ 4 ∨ off % 4 ≠ 0 ∨ 0x800 ≤ off) ∧
      step s = .refused .undefinedAccess) ∨
    (∃ off width v rest, s.moves = .act (.write off width v) :: rest ∧
      (width ≠ 4 ∨ off % 4 ≠ 0 ∨ 0x800 ≤ off) ∧ step s = .refused .undefinedAccess) ∨
    (∃ a b rest, s.moves = .act (.presence a b) :: rest ∧ s.busy = true ∧
      ¬(a = s.srcPresent ∧ b = s.snkPresent) ∧ step s = .refused .presenceChangedWhileBusy)
end

