-- ==== Sys2Proof/Laws/Paths.lean ====
section
/-! SUPPORT. Links, paths and leaves in an arena (spec/10_state.md R58, spec/42_table.md R182). -/

namespace Sys2Proof.Machine

theorem link_eq_some {a : List Node} {i : Nat} {b : Bool} {c : Nat} :
    link a i b = some c ↔ ∃ n, a[i]? = some n ∧ n.child b = some c := by
  unfold link
  split <;> simp_all

theorem IsLeaf.link_none {a : List Node} {i : Nat} {y : Sym} (h : IsLeaf a i y) (b : Bool) :
    link a i b = none := by
  obtain ⟨f, hf⟩ := h
  cases b <;> simp [link, hf, Node.child, Node.left, Node.right]

theorem IsLeaf.unique {a : List Node} {i : Nat} {y z : Sym} (h : IsLeaf a i y) (h' : IsLeaf a i z) : y = z := by
  obtain ⟨f, hf⟩ := h
  obtain ⟨g, hg⟩ := h'
  simp_all

theorem IsLeaf.not_internal {a : List Node} {i : Nat} {y : Sym} (h : IsLeaf a i y) : ¬IsInternal a i := by
  obtain ⟨f, hf⟩ := h
  rintro ⟨g, l, r, hg⟩
  simp_all

theorem IsLeaf.lt {a : List Node} {i : Nat} {y : Sym} (h : IsLeaf a i y) : i < a.length := by
  obtain ⟨f, hf⟩ := h
  exact (List.getElem?_eq_some_iff.mp hf).1

theorem IsInternal.lt {a : List Node} {i : Nat} (h : IsInternal a i) : i < a.length := by
  obtain ⟨f, l, r, hf⟩ := h
  exact (List.getElem?_eq_some_iff.mp hf).1

theorem leaf_or_internal {a : List Node} {i : Nat} (h : i < a.length) : (∃ y, IsLeaf a i y) ∨ IsInternal a i := by
  cases hn : a[i] with
  | leaf y f => exact .inl ⟨y, f, by rw [List.getElem?_eq_getElem h, hn]⟩
  | internal f l r => exact .inr ⟨f, l, r, by rw [List.getElem?_eq_getElem h, hn]⟩

theorem internal_of_link {a : List Node} {i : Nat} {b : Bool} {c : Nat} (h : link a i b = some c) :
    IsInternal a i := by
  obtain ⟨n, hn, hc⟩ := link_eq_some.mp h
  cases n with
  | leaf y f => cases b <;> simp [Node.child, Node.left, Node.right] at hc
  | internal f l r => exact ⟨f, l, r, hn⟩

@[simp] theorem follow_nil (a : List Node) (i : Nat) : follow a [] i = some i := rfl

theorem follow_cons (a : List Node) (b : Bool) (p : List Bool) (i : Nat) :
    follow a (b :: p) i = (link a i b).bind (follow a p) := by
  rw [follow]
  cases link a i b <;> rfl

theorem follow_append (a : List Node) (p q : List Bool) (i : Nat) :
    follow a (p ++ q) i = (follow a p i).bind (follow a q) := by
  induction p generalizing i with
  | nil => rfl
  | cons b p ih =>
    rw [List.cons_append, follow_cons, follow_cons]
    cases link a i b <;> simp [ih]

theorem follow_snoc_eq_some {a : List Node} {p : List Bool} {b : Bool} {i j : Nat} :
    follow a (p ++ [b]) i = some j ↔ ∃ k, follow a p i = some k ∧ link a k b = some j := by
  rw [follow_append]
  cases follow a p i with
  | none => simp
  | some k => simp [follow_cons]; cases link a k b <;> simp

/-- No path goes on below a leaf. -/
theorem follow_leaf {a : List Node} {i j : Nat} {y : Sym} {p : List Bool} (h : IsLeaf a i y)
    (hp : follow a p i = some j) : p = [] := by
  cases p with
  | nil => rfl
  | cons b p => rw [follow_cons, h.link_none] at hp; simp at hp

/-- A leaf's code that is a prefix of another leaf's code is that code (R182 (c)). -/
theorem LeafAt.eq_of_prefix {a : List Node} {r : Nat} {c d : List Bool} {y z : Sym} (hy : LeafAt a r c y)
    (hz : LeafAt a r d z) (h : c <+: d) : c = d ∧ y = z := by
  obtain ⟨q, rfl⟩ := h
  obtain ⟨j, hj, hl⟩ := hy
  obtain ⟨k, hk, hm⟩ := hz
  rw [follow_append, hj] at hk
  have hq : q = [] := follow_leaf hl hk
  subst hq
  simp at hk
  subst hk
  exact ⟨by simp, hl.unique hm⟩

/-- Links that lead to allocated entries keep paths among them. -/
theorem follow_lt {a : List Node} (hr : ∀ i b c, link a i b = some c → c < a.length) {i j : Nat} {p : List Bool}
    (hi : i < a.length) (h : follow a p i = some j) : j < a.length := by
  induction p generalizing i with
  | nil => simp at h; omega
  | cons b p ih =>
    rw [follow_cons] at h
    cases hl : link a i b with
    | none => simp [hl] at h
    | some c => simp [hl] at h; exact ih (hr _ _ _ hl) h

/-- Where every link leads down, a path's end and its length stay below its start. -/
theorem follow_descends {a : List Node} (hd : ∀ i b c, link a i b = some c → c < i) {i j : Nat} {p : List Bool}
    (h : follow a p i = some j) : j + p.length ≤ i := by
  induction p generalizing i with
  | nil => simp at h; simp; omega
  | cons b p ih =>
    rw [follow_cons] at h
    cases hl : link a i b with
    | none => simp [hl] at h
    | some c =>
      simp [hl] at h
      have := ih h
      have := hd _ _ _ hl
      simp; omega

/-- Where every link leads up, a path's end lies above its start by at least its length. -/
theorem follow_ascends {a : List Node} (hu : ∀ i b c, link a i b = some c → i < c) {i j : Nat} {p : List Bool}
    (h : follow a p i = some j) : i + p.length ≤ j := by
  induction p generalizing i with
  | nil => simp at h; simp; omega
  | cons b p ih =>
    rw [follow_cons] at h
    cases hl : link a i b with
    | none => simp [hl] at h
    | some c =>
      simp [hl] at h
      have := ih h
      have := hu _ _ _ hl
      simp; omega

/-- In an ordered arena only the empty path leads from a node to itself. -/
theorem ArenaOk.follow_self {a : List Node} (h : ArenaOk a) {i : Nat} {p : List Bool} (hp : follow a p i = some i) :
    p = [] := by
  have : p.length = 0 := by
    rcases h.ordered with ho | ho
    · have := follow_descends ho hp; omega
    · have := follow_ascends ho hp; omega
  simpa using this

/-- In a forest two paths from the root to one node are one path. -/
theorem follow_unique {a : List Node} {r : Nat}
    (hp : ∀ i b j b' c, link a i b = some c → link a j b' = some c → i = j ∧ b = b')
    (ht : ∀ i b, link a i b ≠ some r) {p q : List Bool} {j : Nat} (h : follow a p r = some j)
    (h' : follow a q r = some j) : p = q := by
  induction p using List.reverseRecOn generalizing q j with
  | nil =>
    simp at h; subst h
    rcases List.eq_nil_or_concat q with rfl | ⟨q', b, rfl⟩
    · rfl
    · rw [List.concat_eq_append] at h'
      obtain ⟨k, -, hk⟩ := follow_snoc_eq_some.mp h'
      exact absurd hk (ht _ _)
  | append_singleton p b ih =>
    obtain ⟨k, hk, hl⟩ := follow_snoc_eq_some.mp h
    rcases List.eq_nil_or_concat q with rfl | ⟨q', b', rfl⟩
    · simp at h'; subst h'; exact absurd hl (ht _ _)
    · rw [List.concat_eq_append] at h' ⊢
      obtain ⟨k', hk', hl'⟩ := follow_snoc_eq_some.mp h'
      obtain ⟨rfl, rfl⟩ := hp _ _ _ _ _ hl hl'
      rw [ih hk hk']

/-- A symbol has one code (R182 (a), (b)). -/
theorem LeafAt.unique {a : List Node} {r : Nat} (ha : ArenaOk a) (ht : ∀ i b, link a i b ≠ some r)
    {c d : List Bool} {y : Sym} (h : LeafAt a r c y) (h' : LeafAt a r d y) : c = d := by
  obtain ⟨j, hj, hl⟩ := h
  obtain ⟨k, hk, hm⟩ := h'
  obtain rfl := ha.leafOnce _ _ _ hl hm
  exact follow_unique ha.oneParent ht hj hk

/-- An ordered arena has a rank that every link lowers. -/
theorem ArenaOk.rank {a : List Node} (h : ArenaOk a) :
    ∃ rank : Nat → Nat, (∀ i b c, link a i b = some c → rank c < rank i) ∧ ∀ i < a.length, rank i < a.length := by
  rcases h.ordered with ho | ho
  · exact ⟨id, ho, fun i hi => hi⟩
  · refine ⟨fun i => a.length - 1 - i, fun i b c hl => ?_, fun i hi => by dsimp only; omega⟩
    have := ho _ _ _ hl
    have := h.inRange _ _ _ hl
    dsimp only; omega

/-- Below every allocated node there is a leaf, where every internal node has a child. -/
theorem exists_leaf_below {a : List Node} (h : ArenaOk a)
    (hc : ∀ i, IsInternal a i → ∃ b c, link a i b = some c) {i : Nat} (hi : i < a.length) :
    ∃ p y, LeafAt a i p y := by
  obtain ⟨rank, hr, -⟩ := h.rank
  induction hk : rank i using Nat.strong_induction_on generalizing i with
  | _ k ih =>
    rcases leaf_or_internal hi with ⟨y, hy⟩ | hn
    · exact ⟨[], y, i, rfl, hy⟩
    · obtain ⟨b, c, hb⟩ := hc _ hn
      obtain ⟨p, y, j, hj, hl⟩ := ih (rank c) (hk ▸ hr _ _ _ hb) (h.inRange _ _ _ hb) rfl
      exact ⟨b :: p, y, j, by rw [follow_cons, hb]; exact hj, hl⟩

theorem leafAt_cons {a : List Node} {i : Nat} {b : Bool} {p : List Bool} {y : Sym} :
    LeafAt a i (b :: p) y ↔ ∃ c, link a i b = some c ∧ LeafAt a c p y := by
  unfold LeafAt
  simp only [follow_cons]
  cases link a i b <;> simp

theorem leafAt_nil {a : List Node} {i : Nat} {y : Sym} : LeafAt a i [] y ↔ IsLeaf a i y := by
  simp [LeafAt]

end Sys2Proof.Machine
end

