-- ==== Sys2Proof/Laws/State.lean ====
section
/-! SUPPORT. What each shared update of the state does to each field: one lemma per field per update, true by rfl, so
that no later proof unfolds a record update. -/

namespace Sys2Proof.Machine

variable (s : State)

/-! ### raiseFault -/

@[simp] theorem raiseFault_fault (c : Cause) (sub : SubCause) (info : Word) : (raiseFault c sub info s).fault = true := rfl
@[simp] theorem raiseFault_treeValid (c : Cause) (sub : SubCause) (info : Word) : (raiseFault c sub info s).treeValid = s.treeValid := rfl
@[simp] theorem raiseFault_ctValid (c : Cause) (sub : SubCause) (info : Word) : (raiseFault c sub info s).ctValid = s.ctValid := rfl
@[simp] theorem raiseFault_treeMode (c : Cause) (sub : SubCause) (info : Word) : (raiseFault c sub info s).treeMode = s.treeMode := rfl
@[simp] theorem raiseFault_endReason (c : Cause) (sub : SubCause) (info : Word) : (raiseFault c sub info s).endReason = s.endReason := rfl
@[simp] theorem raiseFault_midcode (c : Cause) (sub : SubCause) (info : Word) : (raiseFault c sub info s).midcode = s.midcode := rfl
@[simp] theorem raiseFault_overrun (c : Cause) (sub : SubCause) (info : Word) : (raiseFault c sub info s).overrun = s.overrun := rfl
@[simp] theorem raiseFault_lastOp (c : Cause) (sub : SubCause) (info : Word) : (raiseFault c sub info s).lastOp = s.lastOp := rfl
@[simp] theorem raiseFault_errCause (c : Cause) (sub : SubCause) (info : Word) : (raiseFault c sub info s).errCause = causeCode c ||| (subCode sub <<< 8) := rfl
@[simp] theorem raiseFault_errInfo (c : Cause) (sub : SubCause) (info : Word) : (raiseFault c sub info s).errInfo = info := rfl
@[simp] theorem raiseFault_root (c : Cause) (sub : SubCause) (info : Word) : (raiseFault c sub info s).root = s.root := rfl
@[simp] theorem raiseFault_arena (c : Cause) (sub : SubCause) (info : Word) : (raiseFault c sub info s).arena = s.arena := rfl
@[simp] theorem raiseFault_inCount (c : Cause) (sub : SubCause) (info : Word) : (raiseFault c sub info s).inCount = s.inCount := rfl
@[simp] theorem raiseFault_outCount (c : Cause) (sub : SubCause) (info : Word) : (raiseFault c sub info s).outCount = s.outCount := rfl
@[simp] theorem raiseFault_ctSel (c : Cause) (sub : SubCause) (info : Word) : (raiseFault c sub info s).ctSel = s.ctSel := rfl
@[simp] theorem raiseFault_nodeSel (c : Cause) (sub : SubCause) (info : Word) : (raiseFault c sub info s).nodeSel = s.nodeSel := rfl
@[simp] theorem raiseFault_freq (c : Cause) (sub : SubCause) (info : Word) : (raiseFault c sub info s).freq = s.freq := rfl
@[simp] theorem raiseFault_ct (c : Cause) (sub : SubCause) (info : Word) : (raiseFault c sub info s).ct = s.ct := rfl
@[simp] theorem raiseFault_phase (c : Cause) (sub : SubCause) (info : Word) : (raiseFault c sub info s).phase = Phase.idle := rfl
@[simp] theorem raiseFault_src (c : Cause) (sub : SubCause) (info : Word) : (raiseFault c sub info s).src = s.src := rfl
@[simp] theorem raiseFault_snk (c : Cause) (sub : SubCause) (info : Word) : (raiseFault c sub info s).snk = s.snk := rfl
@[simp] theorem raiseFault_srcPresent (c : Cause) (sub : SubCause) (info : Word) : (raiseFault c sub info s).srcPresent = s.srcPresent := rfl
@[simp] theorem raiseFault_snkPresent (c : Cause) (sub : SubCause) (info : Word) : (raiseFault c sub info s).snkPresent = s.snkPresent := rfl
@[simp] theorem raiseFault_snkReady (c : Cause) (sub : SubCause) (info : Word) : (raiseFault c sub info s).snkReady = s.snkReady := rfl
@[simp] theorem raiseFault_marker (c : Cause) (sub : SubCause) (info : Word) : (raiseFault c sub info s).marker = s.marker := rfl
@[simp] theorem raiseFault_moves (c : Cause) (sub : SubCause) (info : Word) : (raiseFault c sub info s).moves = s.moves := rfl
@[simp] theorem raiseFault_reads (c : Cause) (sub : SubCause) (info : Word) : (raiseFault c sub info s).reads = s.reads := rfl
@[simp] theorem raiseFault_draws (c : Cause) (sub : SubCause) (info : Word) : (raiseFault c sub info s).draws = s.draws := rfl

/-! ### finish -/

@[simp] theorem finish_fault : (finish s).fault = s.fault := rfl
@[simp] theorem finish_treeValid : (finish s).treeValid = s.treeValid := rfl
@[simp] theorem finish_ctValid : (finish s).ctValid = s.ctValid := rfl
@[simp] theorem finish_treeMode : (finish s).treeMode = s.treeMode := rfl
@[simp] theorem finish_endReason : (finish s).endReason = s.endReason := rfl
@[simp] theorem finish_midcode : (finish s).midcode = s.midcode := rfl
@[simp] theorem finish_overrun : (finish s).overrun = s.overrun := rfl
@[simp] theorem finish_lastOp : (finish s).lastOp = s.lastOp := rfl
@[simp] theorem finish_errCause : (finish s).errCause = s.errCause := rfl
@[simp] theorem finish_errInfo : (finish s).errInfo = s.errInfo := rfl
@[simp] theorem finish_root : (finish s).root = s.root := rfl
@[simp] theorem finish_arena : (finish s).arena = s.arena := rfl
@[simp] theorem finish_inCount : (finish s).inCount = s.inCount := rfl
@[simp] theorem finish_outCount : (finish s).outCount = s.outCount := rfl
@[simp] theorem finish_ctSel : (finish s).ctSel = s.ctSel := rfl
@[simp] theorem finish_nodeSel : (finish s).nodeSel = s.nodeSel := rfl
@[simp] theorem finish_freq : (finish s).freq = s.freq := rfl
@[simp] theorem finish_ct : (finish s).ct = s.ct := rfl
@[simp] theorem finish_phase : (finish s).phase = Phase.idle := rfl
@[simp] theorem finish_src : (finish s).src = s.src := rfl
@[simp] theorem finish_snk : (finish s).snk = s.snk := rfl
@[simp] theorem finish_srcPresent : (finish s).srcPresent = s.srcPresent := rfl
@[simp] theorem finish_snkPresent : (finish s).snkPresent = s.snkPresent := rfl
@[simp] theorem finish_snkReady : (finish s).snkReady = s.snkReady := rfl
@[simp] theorem finish_marker : (finish s).marker = s.marker := rfl
@[simp] theorem finish_moves : (finish s).moves = s.moves := rfl
@[simp] theorem finish_reads : (finish s).reads = s.reads := rfl
@[simp] theorem finish_draws : (finish s).draws = s.draws := rfl

/-! ### clearForAccept -/

@[simp] theorem clearForAccept_fault (w : Word) : (clearForAccept w s).fault = false := rfl
@[simp] theorem clearForAccept_treeValid (w : Word) : (clearForAccept w s).treeValid = s.treeValid := rfl
@[simp] theorem clearForAccept_ctValid (w : Word) : (clearForAccept w s).ctValid = s.ctValid := rfl
@[simp] theorem clearForAccept_treeMode (w : Word) : (clearForAccept w s).treeMode = s.treeMode := rfl
@[simp] theorem clearForAccept_endReason (w : Word) : (clearForAccept w s).endReason = s.endReason := rfl
@[simp] theorem clearForAccept_midcode (w : Word) : (clearForAccept w s).midcode = s.midcode := rfl
@[simp] theorem clearForAccept_overrun (w : Word) : (clearForAccept w s).overrun = s.overrun := rfl
@[simp] theorem clearForAccept_lastOp (w : Word) : (clearForAccept w s).lastOp = opcodeField w := rfl
@[simp] theorem clearForAccept_errCause (w : Word) : (clearForAccept w s).errCause = 0 := rfl
@[simp] theorem clearForAccept_errInfo (w : Word) : (clearForAccept w s).errInfo = 0 := rfl
@[simp] theorem clearForAccept_root (w : Word) : (clearForAccept w s).root = s.root := rfl
@[simp] theorem clearForAccept_arena (w : Word) : (clearForAccept w s).arena = s.arena := rfl
@[simp] theorem clearForAccept_inCount (w : Word) : (clearForAccept w s).inCount = 0 := rfl
@[simp] theorem clearForAccept_outCount (w : Word) : (clearForAccept w s).outCount = 0 := rfl
@[simp] theorem clearForAccept_ctSel (w : Word) : (clearForAccept w s).ctSel = s.ctSel := rfl
@[simp] theorem clearForAccept_nodeSel (w : Word) : (clearForAccept w s).nodeSel = s.nodeSel := rfl
@[simp] theorem clearForAccept_freq (w : Word) : (clearForAccept w s).freq = s.freq := rfl
@[simp] theorem clearForAccept_ct (w : Word) : (clearForAccept w s).ct = s.ct := rfl
@[simp] theorem clearForAccept_phase (w : Word) : (clearForAccept w s).phase = s.phase := rfl
@[simp] theorem clearForAccept_src (w : Word) : (clearForAccept w s).src = s.src := rfl
@[simp] theorem clearForAccept_snk (w : Word) : (clearForAccept w s).snk = s.snk := rfl
@[simp] theorem clearForAccept_srcPresent (w : Word) : (clearForAccept w s).srcPresent = s.srcPresent := rfl
@[simp] theorem clearForAccept_snkPresent (w : Word) : (clearForAccept w s).snkPresent = s.snkPresent := rfl
@[simp] theorem clearForAccept_snkReady (w : Word) : (clearForAccept w s).snkReady = s.snkReady := rfl
@[simp] theorem clearForAccept_marker (w : Word) : (clearForAccept w s).marker = s.marker := rfl
@[simp] theorem clearForAccept_moves (w : Word) : (clearForAccept w s).moves = s.moves := rfl
@[simp] theorem clearForAccept_reads (w : Word) : (clearForAccept w s).reads = s.reads := rfl
@[simp] theorem clearForAccept_draws (w : Word) : (clearForAccept w s).draws = s.draws := rfl

/-! ### takeToken -/

@[simp] theorem takeToken_fault (rest : List SrcToken) : (takeToken rest s).fault = s.fault := rfl
@[simp] theorem takeToken_treeValid (rest : List SrcToken) : (takeToken rest s).treeValid = s.treeValid := rfl
@[simp] theorem takeToken_ctValid (rest : List SrcToken) : (takeToken rest s).ctValid = s.ctValid := rfl
@[simp] theorem takeToken_treeMode (rest : List SrcToken) : (takeToken rest s).treeMode = s.treeMode := rfl
@[simp] theorem takeToken_endReason (rest : List SrcToken) : (takeToken rest s).endReason = s.endReason := rfl
@[simp] theorem takeToken_midcode (rest : List SrcToken) : (takeToken rest s).midcode = s.midcode := rfl
@[simp] theorem takeToken_overrun (rest : List SrcToken) : (takeToken rest s).overrun = s.overrun := rfl
@[simp] theorem takeToken_lastOp (rest : List SrcToken) : (takeToken rest s).lastOp = s.lastOp := rfl
@[simp] theorem takeToken_errCause (rest : List SrcToken) : (takeToken rest s).errCause = s.errCause := rfl
@[simp] theorem takeToken_errInfo (rest : List SrcToken) : (takeToken rest s).errInfo = s.errInfo := rfl
@[simp] theorem takeToken_root (rest : List SrcToken) : (takeToken rest s).root = s.root := rfl
@[simp] theorem takeToken_arena (rest : List SrcToken) : (takeToken rest s).arena = s.arena := rfl
@[simp] theorem takeToken_inCount (rest : List SrcToken) : (takeToken rest s).inCount = s.inCount := rfl
@[simp] theorem takeToken_outCount (rest : List SrcToken) : (takeToken rest s).outCount = s.outCount := rfl
@[simp] theorem takeToken_ctSel (rest : List SrcToken) : (takeToken rest s).ctSel = s.ctSel := rfl
@[simp] theorem takeToken_nodeSel (rest : List SrcToken) : (takeToken rest s).nodeSel = s.nodeSel := rfl
@[simp] theorem takeToken_freq (rest : List SrcToken) : (takeToken rest s).freq = s.freq := rfl
@[simp] theorem takeToken_ct (rest : List SrcToken) : (takeToken rest s).ct = s.ct := rfl
@[simp] theorem takeToken_phase (rest : List SrcToken) : (takeToken rest s).phase = s.phase := rfl
@[simp] theorem takeToken_src (rest : List SrcToken) : (takeToken rest s).src = rest := rfl
@[simp] theorem takeToken_snk (rest : List SrcToken) : (takeToken rest s).snk = s.snk := rfl
@[simp] theorem takeToken_srcPresent (rest : List SrcToken) : (takeToken rest s).srcPresent = s.srcPresent := rfl
@[simp] theorem takeToken_snkPresent (rest : List SrcToken) : (takeToken rest s).snkPresent = s.snkPresent := rfl
@[simp] theorem takeToken_snkReady (rest : List SrcToken) : (takeToken rest s).snkReady = s.snkReady := rfl
@[simp] theorem takeToken_marker (rest : List SrcToken) : (takeToken rest s).marker = s.marker := rfl
@[simp] theorem takeToken_moves (rest : List SrcToken) : (takeToken rest s).moves = s.moves := rfl
@[simp] theorem takeToken_reads (rest : List SrcToken) : (takeToken rest s).reads = s.reads := rfl
@[simp] theorem takeToken_draws (rest : List SrcToken) : (takeToken rest s).draws = s.draws := rfl

/-! ### countIn -/

@[simp] theorem countIn_fault : (countIn s).fault = s.fault := rfl
@[simp] theorem countIn_treeValid : (countIn s).treeValid = s.treeValid := rfl
@[simp] theorem countIn_ctValid : (countIn s).ctValid = s.ctValid := rfl
@[simp] theorem countIn_treeMode : (countIn s).treeMode = s.treeMode := rfl
@[simp] theorem countIn_endReason : (countIn s).endReason = s.endReason := rfl
@[simp] theorem countIn_midcode : (countIn s).midcode = s.midcode := rfl
@[simp] theorem countIn_overrun : (countIn s).overrun = s.overrun := rfl
@[simp] theorem countIn_lastOp : (countIn s).lastOp = s.lastOp := rfl
@[simp] theorem countIn_errCause : (countIn s).errCause = s.errCause := rfl
@[simp] theorem countIn_errInfo : (countIn s).errInfo = s.errInfo := rfl
@[simp] theorem countIn_root : (countIn s).root = s.root := rfl
@[simp] theorem countIn_arena : (countIn s).arena = s.arena := rfl
@[simp] theorem countIn_inCount : (countIn s).inCount = s.inCount + 1 := rfl
@[simp] theorem countIn_outCount : (countIn s).outCount = s.outCount := rfl
@[simp] theorem countIn_ctSel : (countIn s).ctSel = s.ctSel := rfl
@[simp] theorem countIn_nodeSel : (countIn s).nodeSel = s.nodeSel := rfl
@[simp] theorem countIn_freq : (countIn s).freq = s.freq := rfl
@[simp] theorem countIn_ct : (countIn s).ct = s.ct := rfl
@[simp] theorem countIn_phase : (countIn s).phase = s.phase := rfl
@[simp] theorem countIn_src : (countIn s).src = s.src := rfl
@[simp] theorem countIn_snk : (countIn s).snk = s.snk := rfl
@[simp] theorem countIn_srcPresent : (countIn s).srcPresent = s.srcPresent := rfl
@[simp] theorem countIn_snkPresent : (countIn s).snkPresent = s.snkPresent := rfl
@[simp] theorem countIn_snkReady : (countIn s).snkReady = s.snkReady := rfl
@[simp] theorem countIn_marker : (countIn s).marker = s.marker := rfl
@[simp] theorem countIn_moves : (countIn s).moves = s.moves := rfl
@[simp] theorem countIn_reads : (countIn s).reads = s.reads := rfl
@[simp] theorem countIn_draws : (countIn s).draws = s.draws := rfl

/-! ### putData -/

@[simp] theorem putData_fault (b : Byte) : (putData b s).fault = s.fault := rfl
@[simp] theorem putData_treeValid (b : Byte) : (putData b s).treeValid = s.treeValid := rfl
@[simp] theorem putData_ctValid (b : Byte) : (putData b s).ctValid = s.ctValid := rfl
@[simp] theorem putData_treeMode (b : Byte) : (putData b s).treeMode = s.treeMode := rfl
@[simp] theorem putData_endReason (b : Byte) : (putData b s).endReason = s.endReason := rfl
@[simp] theorem putData_midcode (b : Byte) : (putData b s).midcode = s.midcode := rfl
@[simp] theorem putData_overrun (b : Byte) : (putData b s).overrun = s.overrun := rfl
@[simp] theorem putData_lastOp (b : Byte) : (putData b s).lastOp = s.lastOp := rfl
@[simp] theorem putData_errCause (b : Byte) : (putData b s).errCause = s.errCause := rfl
@[simp] theorem putData_errInfo (b : Byte) : (putData b s).errInfo = s.errInfo := rfl
@[simp] theorem putData_root (b : Byte) : (putData b s).root = s.root := rfl
@[simp] theorem putData_arena (b : Byte) : (putData b s).arena = s.arena := rfl
@[simp] theorem putData_inCount (b : Byte) : (putData b s).inCount = s.inCount := rfl
@[simp] theorem putData_outCount (b : Byte) : (putData b s).outCount = s.outCount + 1 := rfl
@[simp] theorem putData_ctSel (b : Byte) : (putData b s).ctSel = s.ctSel := rfl
@[simp] theorem putData_nodeSel (b : Byte) : (putData b s).nodeSel = s.nodeSel := rfl
@[simp] theorem putData_freq (b : Byte) : (putData b s).freq = s.freq := rfl
@[simp] theorem putData_ct (b : Byte) : (putData b s).ct = s.ct := rfl
@[simp] theorem putData_phase (b : Byte) : (putData b s).phase = s.phase := rfl
@[simp] theorem putData_src (b : Byte) : (putData b s).src = s.src := rfl
@[simp] theorem putData_snk (b : Byte) : (putData b s).snk = s.snk ++ [SnkToken.d b] := rfl
@[simp] theorem putData_srcPresent (b : Byte) : (putData b s).srcPresent = s.srcPresent := rfl
@[simp] theorem putData_snkPresent (b : Byte) : (putData b s).snkPresent = s.snkPresent := rfl
@[simp] theorem putData_snkReady (b : Byte) : (putData b s).snkReady = s.snkReady := rfl
@[simp] theorem putData_marker (b : Byte) : (putData b s).marker = s.marker := rfl
@[simp] theorem putData_moves (b : Byte) : (putData b s).moves = s.moves := rfl
@[simp] theorem putData_reads (b : Byte) : (putData b s).reads = s.reads := rfl
@[simp] theorem putData_draws (b : Byte) : (putData b s).draws = s.draws := rfl

/-! ### putClose -/

@[simp] theorem putClose_fault : (putClose s).fault = s.fault := rfl
@[simp] theorem putClose_treeValid : (putClose s).treeValid = s.treeValid := rfl
@[simp] theorem putClose_ctValid : (putClose s).ctValid = s.ctValid := rfl
@[simp] theorem putClose_treeMode : (putClose s).treeMode = s.treeMode := rfl
@[simp] theorem putClose_endReason : (putClose s).endReason = s.endReason := rfl
@[simp] theorem putClose_midcode : (putClose s).midcode = s.midcode := rfl
@[simp] theorem putClose_overrun : (putClose s).overrun = s.overrun := rfl
@[simp] theorem putClose_lastOp : (putClose s).lastOp = s.lastOp := rfl
@[simp] theorem putClose_errCause : (putClose s).errCause = s.errCause := rfl
@[simp] theorem putClose_errInfo : (putClose s).errInfo = s.errInfo := rfl
@[simp] theorem putClose_root : (putClose s).root = s.root := rfl
@[simp] theorem putClose_arena : (putClose s).arena = s.arena := rfl
@[simp] theorem putClose_inCount : (putClose s).inCount = s.inCount := rfl
@[simp] theorem putClose_outCount : (putClose s).outCount = s.outCount := rfl
@[simp] theorem putClose_ctSel : (putClose s).ctSel = s.ctSel := rfl
@[simp] theorem putClose_nodeSel : (putClose s).nodeSel = s.nodeSel := rfl
@[simp] theorem putClose_freq : (putClose s).freq = s.freq := rfl
@[simp] theorem putClose_ct : (putClose s).ct = s.ct := rfl
@[simp] theorem putClose_phase : (putClose s).phase = s.phase := rfl
@[simp] theorem putClose_src : (putClose s).src = s.src := rfl
@[simp] theorem putClose_snk : (putClose s).snk = s.snk ++ [SnkToken.closing] := rfl
@[simp] theorem putClose_srcPresent : (putClose s).srcPresent = s.srcPresent := rfl
@[simp] theorem putClose_snkPresent : (putClose s).snkPresent = s.snkPresent := rfl
@[simp] theorem putClose_snkReady : (putClose s).snkReady = s.snkReady := rfl
@[simp] theorem putClose_marker : (putClose s).marker = s.marker := rfl
@[simp] theorem putClose_moves : (putClose s).moves = s.moves := rfl
@[simp] theorem putClose_reads : (putClose s).reads = s.reads := rfl
@[simp] theorem putClose_draws : (putClose s).draws = s.draws := rfl

/-! ### dropTable -/

@[simp] theorem dropTable_fault : (dropTable s).fault = s.fault := rfl
@[simp] theorem dropTable_treeValid : (dropTable s).treeValid = s.treeValid := rfl
@[simp] theorem dropTable_ctValid : (dropTable s).ctValid = false := rfl
@[simp] theorem dropTable_treeMode : (dropTable s).treeMode = s.treeMode := rfl
@[simp] theorem dropTable_endReason : (dropTable s).endReason = s.endReason := rfl
@[simp] theorem dropTable_midcode : (dropTable s).midcode = s.midcode := rfl
@[simp] theorem dropTable_overrun : (dropTable s).overrun = s.overrun := rfl
@[simp] theorem dropTable_lastOp : (dropTable s).lastOp = s.lastOp := rfl
@[simp] theorem dropTable_errCause : (dropTable s).errCause = s.errCause := rfl
@[simp] theorem dropTable_errInfo : (dropTable s).errInfo = s.errInfo := rfl
@[simp] theorem dropTable_root : (dropTable s).root = s.root := rfl
@[simp] theorem dropTable_arena : (dropTable s).arena = s.arena := rfl
@[simp] theorem dropTable_inCount : (dropTable s).inCount = s.inCount := rfl
@[simp] theorem dropTable_outCount : (dropTable s).outCount = s.outCount := rfl
@[simp] theorem dropTable_ctSel : (dropTable s).ctSel = s.ctSel := rfl
@[simp] theorem dropTable_nodeSel : (dropTable s).nodeSel = s.nodeSel := rfl
@[simp] theorem dropTable_freq : (dropTable s).freq = s.freq := rfl
@[simp] theorem dropTable_ct : (dropTable s).ct = clearValid s.ct := rfl
@[simp] theorem dropTable_phase : (dropTable s).phase = s.phase := rfl
@[simp] theorem dropTable_src : (dropTable s).src = s.src := rfl
@[simp] theorem dropTable_snk : (dropTable s).snk = s.snk := rfl
@[simp] theorem dropTable_srcPresent : (dropTable s).srcPresent = s.srcPresent := rfl
@[simp] theorem dropTable_snkPresent : (dropTable s).snkPresent = s.snkPresent := rfl
@[simp] theorem dropTable_snkReady : (dropTable s).snkReady = s.snkReady := rfl
@[simp] theorem dropTable_marker : (dropTable s).marker = s.marker := rfl
@[simp] theorem dropTable_moves : (dropTable s).moves = s.moves := rfl
@[simp] theorem dropTable_reads : (dropTable s).reads = s.reads := rfl
@[simp] theorem dropTable_draws : (dropTable s).draws = s.draws := rfl

/-! ### dropTree -/

@[simp] theorem dropTree_fault : (dropTree s).fault = s.fault := rfl
@[simp] theorem dropTree_treeValid : (dropTree s).treeValid = false := rfl
@[simp] theorem dropTree_ctValid : (dropTree s).ctValid = false := rfl
@[simp] theorem dropTree_treeMode : (dropTree s).treeMode = s.treeMode := rfl
@[simp] theorem dropTree_endReason : (dropTree s).endReason = s.endReason := rfl
@[simp] theorem dropTree_midcode : (dropTree s).midcode = s.midcode := rfl
@[simp] theorem dropTree_overrun : (dropTree s).overrun = s.overrun := rfl
@[simp] theorem dropTree_lastOp : (dropTree s).lastOp = s.lastOp := rfl
@[simp] theorem dropTree_errCause : (dropTree s).errCause = s.errCause := rfl
@[simp] theorem dropTree_errInfo : (dropTree s).errInfo = s.errInfo := rfl
@[simp] theorem dropTree_root : (dropTree s).root = none := rfl
@[simp] theorem dropTree_arena : (dropTree s).arena = [] := rfl
@[simp] theorem dropTree_inCount : (dropTree s).inCount = s.inCount := rfl
@[simp] theorem dropTree_outCount : (dropTree s).outCount = s.outCount := rfl
@[simp] theorem dropTree_ctSel : (dropTree s).ctSel = s.ctSel := rfl
@[simp] theorem dropTree_nodeSel : (dropTree s).nodeSel = s.nodeSel := rfl
@[simp] theorem dropTree_freq : (dropTree s).freq = s.freq := rfl
@[simp] theorem dropTree_ct : (dropTree s).ct = clearValid s.ct := rfl
@[simp] theorem dropTree_phase : (dropTree s).phase = s.phase := rfl
@[simp] theorem dropTree_src : (dropTree s).src = s.src := rfl
@[simp] theorem dropTree_snk : (dropTree s).snk = s.snk := rfl
@[simp] theorem dropTree_srcPresent : (dropTree s).srcPresent = s.srcPresent := rfl
@[simp] theorem dropTree_snkPresent : (dropTree s).snkPresent = s.snkPresent := rfl
@[simp] theorem dropTree_snkReady : (dropTree s).snkReady = s.snkReady := rfl
@[simp] theorem dropTree_marker : (dropTree s).marker = s.marker := rfl
@[simp] theorem dropTree_moves : (dropTree s).moves = s.moves := rfl
@[simp] theorem dropTree_reads : (dropTree s).reads = s.reads := rfl
@[simp] theorem dropTree_draws : (dropTree s).draws = s.draws := rfl

/-! ### withBuild -/

@[simp] theorem withBuild_fault (b : Build) : (withBuild b s).fault = s.fault := rfl
@[simp] theorem withBuild_treeValid (b : Build) : (withBuild b s).treeValid = s.treeValid := rfl
@[simp] theorem withBuild_ctValid (b : Build) : (withBuild b s).ctValid = s.ctValid := rfl
@[simp] theorem withBuild_treeMode (b : Build) : (withBuild b s).treeMode = s.treeMode := rfl
@[simp] theorem withBuild_endReason (b : Build) : (withBuild b s).endReason = s.endReason := rfl
@[simp] theorem withBuild_midcode (b : Build) : (withBuild b s).midcode = s.midcode := rfl
@[simp] theorem withBuild_overrun (b : Build) : (withBuild b s).overrun = s.overrun := rfl
@[simp] theorem withBuild_lastOp (b : Build) : (withBuild b s).lastOp = s.lastOp := rfl
@[simp] theorem withBuild_errCause (b : Build) : (withBuild b s).errCause = s.errCause := rfl
@[simp] theorem withBuild_errInfo (b : Build) : (withBuild b s).errInfo = s.errInfo := rfl
@[simp] theorem withBuild_root (b : Build) : (withBuild b s).root = b.root := rfl
@[simp] theorem withBuild_arena (b : Build) : (withBuild b s).arena = b.arena := rfl
@[simp] theorem withBuild_inCount (b : Build) : (withBuild b s).inCount = s.inCount := rfl
@[simp] theorem withBuild_outCount (b : Build) : (withBuild b s).outCount = s.outCount := rfl
@[simp] theorem withBuild_ctSel (b : Build) : (withBuild b s).ctSel = s.ctSel := rfl
@[simp] theorem withBuild_nodeSel (b : Build) : (withBuild b s).nodeSel = s.nodeSel := rfl
@[simp] theorem withBuild_freq (b : Build) : (withBuild b s).freq = s.freq := rfl
@[simp] theorem withBuild_ct (b : Build) : (withBuild b s).ct = s.ct := rfl
@[simp] theorem withBuild_phase (b : Build) : (withBuild b s).phase = s.phase := rfl
@[simp] theorem withBuild_src (b : Build) : (withBuild b s).src = s.src := rfl
@[simp] theorem withBuild_snk (b : Build) : (withBuild b s).snk = s.snk := rfl
@[simp] theorem withBuild_srcPresent (b : Build) : (withBuild b s).srcPresent = s.srcPresent := rfl
@[simp] theorem withBuild_snkPresent (b : Build) : (withBuild b s).snkPresent = s.snkPresent := rfl
@[simp] theorem withBuild_snkReady (b : Build) : (withBuild b s).snkReady = s.snkReady := rfl
@[simp] theorem withBuild_marker (b : Build) : (withBuild b s).marker = s.marker := rfl
@[simp] theorem withBuild_moves (b : Build) : (withBuild b s).moves = s.moves := rfl
@[simp] theorem withBuild_reads (b : Build) : (withBuild b s).reads = s.reads := rfl
@[simp] theorem withBuild_draws (b : Build) : (withBuild b s).draws = s.draws := rfl

/-! ### returnRead -/

@[simp] theorem returnRead_fault (v : Word) : (returnRead v s).fault = s.fault := rfl
@[simp] theorem returnRead_treeValid (v : Word) : (returnRead v s).treeValid = s.treeValid := rfl
@[simp] theorem returnRead_ctValid (v : Word) : (returnRead v s).ctValid = s.ctValid := rfl
@[simp] theorem returnRead_treeMode (v : Word) : (returnRead v s).treeMode = s.treeMode := rfl
@[simp] theorem returnRead_endReason (v : Word) : (returnRead v s).endReason = s.endReason := rfl
@[simp] theorem returnRead_midcode (v : Word) : (returnRead v s).midcode = s.midcode := rfl
@[simp] theorem returnRead_overrun (v : Word) : (returnRead v s).overrun = s.overrun := rfl
@[simp] theorem returnRead_lastOp (v : Word) : (returnRead v s).lastOp = s.lastOp := rfl
@[simp] theorem returnRead_errCause (v : Word) : (returnRead v s).errCause = s.errCause := rfl
@[simp] theorem returnRead_errInfo (v : Word) : (returnRead v s).errInfo = s.errInfo := rfl
@[simp] theorem returnRead_root (v : Word) : (returnRead v s).root = s.root := rfl
@[simp] theorem returnRead_arena (v : Word) : (returnRead v s).arena = s.arena := rfl
@[simp] theorem returnRead_inCount (v : Word) : (returnRead v s).inCount = s.inCount := rfl
@[simp] theorem returnRead_outCount (v : Word) : (returnRead v s).outCount = s.outCount := rfl
@[simp] theorem returnRead_ctSel (v : Word) : (returnRead v s).ctSel = s.ctSel := rfl
@[simp] theorem returnRead_nodeSel (v : Word) : (returnRead v s).nodeSel = s.nodeSel := rfl
@[simp] theorem returnRead_freq (v : Word) : (returnRead v s).freq = s.freq := rfl
@[simp] theorem returnRead_ct (v : Word) : (returnRead v s).ct = s.ct := rfl
@[simp] theorem returnRead_phase (v : Word) : (returnRead v s).phase = s.phase := rfl
@[simp] theorem returnRead_src (v : Word) : (returnRead v s).src = s.src := rfl
@[simp] theorem returnRead_snk (v : Word) : (returnRead v s).snk = s.snk := rfl
@[simp] theorem returnRead_srcPresent (v : Word) : (returnRead v s).srcPresent = s.srcPresent := rfl
@[simp] theorem returnRead_snkPresent (v : Word) : (returnRead v s).snkPresent = s.snkPresent := rfl
@[simp] theorem returnRead_snkReady (v : Word) : (returnRead v s).snkReady = s.snkReady := rfl
@[simp] theorem returnRead_marker (v : Word) : (returnRead v s).marker = s.marker := rfl
@[simp] theorem returnRead_moves (v : Word) : (returnRead v s).moves = s.moves := rfl
@[simp] theorem returnRead_reads (v : Word) : (returnRead v s).reads = s.reads ++ [v] := rfl
@[simp] theorem returnRead_draws (v : Word) : (returnRead v s).draws = s.draws := rfl

end Sys2Proof.Machine
end

