-- ==== Sys2Proof/Laws/FreqBuild.lean ====
section
/-! SUPPORT. The greedy merge of BUILD_FREQ and the tree it builds (spec/40_freq_build.md R140 to R146). -/

namespace Sys2Proof.Machine

/-! ### The order of R140 -/

theorem keyLess_iff_before (a : List Node) (i j : Nat) : keyLess a i j = true ↔ Before a i j := by
  unfold keyLess Before
  by_cases hf : freqAt a i = freqAt a j
  · by_cases hs : symAt a i = symAt a j
    · simp [hf, hs]
    · simp [hf, hs]
  · have : (freqAt a i).toNat ≠ (freqAt a j).toNat := fun h => hf (BitVec.eq_of_toNat_eq h)
    simp [hf, this]

theorem Before.irrefl (a : List Node) (i : Nat) : ¬Before a i i := by unfold Before; omega

theorem Before.trans {a : List Node} {i j k : Nat} (h : Before a i j) (h' : Before a j k) : Before a i k := by
  unfold Before at *; omega

theorem Before.total {a : List Node} {i j : Nat} (h : i ≠ j) : Before a i j ∨ Before a j i := by
  unfold Before; omega

/-- The element removed is in the collection and has the smallest key (R140, R144). -/
theorem minKey_spec (a : List Node) (x : Nat) (xs : List Nat) :
    minKey a x xs ∈ x :: xs ∧ ∀ y ∈ x :: xs, y ≠ minKey a x xs → Before a (minKey a x xs) y := by
  induction xs generalizing x with
  | nil => simp [minKey]
  | cons z zs ih =>
    have hstep : minKey a x (z :: zs) = minKey a (if keyLess a z x then z else x) zs := rfl
    rw [hstep]
    obtain ⟨hm, hl⟩ := ih (if keyLess a z x then z else x)
    generalize hmk : minKey a (if keyLess a z x then z else x) zs = m at hm hl
    split at hm <;> rename_i hz
    · rw [if_pos hz] at hl
      have hb := (keyLess_iff_before a z x).mp hz
      refine ⟨by simp at hm ⊢; tauto, fun y hy hne => ?_⟩
      simp only [List.mem_cons] at hy hl
      rcases hy with rfl | rfl | hy
      · by_cases h : z = m
        · exact h ▸ hb
        · exact (hl z (.inl rfl) h).trans hb
      · exact hl _ (.inl rfl) hne
      · exact hl _ (.inr hy) hne
    · rw [if_neg hz] at hl
      refine ⟨by simp at hm ⊢; tauto, fun y hy hne => ?_⟩
      simp only [List.mem_cons] at hy hl
      rcases hy with rfl | rfl | hy
      · exact hl _ (.inl rfl) hne
      · have hb : x = y ∨ Before a x y := by
          by_cases h : x = y
          · exact .inl h
          · exact .inr ((Before.total h).resolve_right (fun h' => hz ((keyLess_iff_before a y x).mpr h')))
        by_cases h : x = m
        · rcases hb with hb | hb
          · exact absurd (hb ▸ h) hne
          · exact h ▸ hb
        · have := hl x (.inl rfl) h
          rcases hb with rfl | hb
          · exact this
          · exact this.trans hb
      · exact hl _ (.inr hy) hne

theorem removeMin_eq_some {a : List Node} {q q' : List Nat} {m : Nat} (h : removeMin a q = some (m, q')) :
    m ∈ q ∧ q' = q.erase m ∧ ∀ y ∈ q, y ≠ m → Before a m y := by
  cases q with
  | nil => simp [removeMin] at h
  | cons x xs =>
    simp only [removeMin, Option.some.injEq, Prod.mk.injEq] at h
    obtain ⟨rfl, rfl⟩ := h
    exact ⟨(minKey_spec a x xs).1, rfl, (minKey_spec a x xs).2⟩

theorem removeMin_eq_none {a : List Node} {q : List Nat} : removeMin a q = none ↔ q = [] := by
  cases q <;> simp [removeMin]

/-! ### Appending a node -/

theorem getElem?_snoc_lt {a : List Node} {n : Node} {i : Nat} (h : i < a.length) : (a ++ [n])[i]? = a[i]? :=
  List.getElem?_append_left h

theorem freqAt_snoc {a : List Node} {n : Node} {i : Nat} (h : i < a.length) : freqAt (a ++ [n]) i = freqAt a i := by
  unfold freqAt; rw [getElem?_snoc_lt h]

theorem symAt_snoc {a : List Node} {n : Node} {i : Nat} (h : i < a.length) : symAt (a ++ [n]) i = symAt a i := by
  unfold symAt; rw [getElem?_snoc_lt h]

theorem before_snoc {a : List Node} {n : Node} {i j : Nat} (hi : i < a.length) (hj : j < a.length) :
    Before (a ++ [n]) i j ↔ Before a i j := by
  unfold Before; rw [freqAt_snoc hi, freqAt_snoc hj, symAt_snoc hi, symAt_snoc hj]

theorem link_snoc_lt {a : List Node} {n : Node} {i : Nat} (b : Bool) (h : i < a.length) :
    link (a ++ [n]) i b = link a i b := by
  unfold link; rw [getElem?_snoc_lt h]

theorem link_snoc_self (a : List Node) (n : Node) (b : Bool) : link (a ++ [n]) a.length b = n.child b := by
  unfold link; rw [List.getElem?_concat_length]

theorem link_eq_some_lt {a : List Node} {i : Nat} {b : Bool} {c : Nat} (h : link a i b = some c) : i < a.length :=
  (internal_of_link h).lt

/-! ### The merge loop -/

/-- What holds before each turn of the merge loop of R144: `n` leaves, `sum` their total frequency, Q the nodes without a
parent. -/
structure MergeInv (n sum : Nat) (ls : List Node) (a : List Node) (q : List Nat) : Prop where
  count : a.length + q.length = 2 * n
  leavesFirst : a.take n = ls
  leafCount : ls.length = n
  nodup : q.Nodup
  orphans : ∀ j, j ∈ q ↔ j < a.length ∧ ∀ i b, link a i b ≠ some j
  merged : ∀ k, n ≤ k → k < a.length → ∃ x y f, a[k]? = some (.internal (some f) (some x) (some y)) ∧
    x < k ∧ y < k ∧ f.toNat = (freqAt a x).toNat + (freqAt a y).toNat ∧ Before a x y ∧
    ∀ j < k, j ≠ x → j ≠ y → (∀ m < k, ∀ b, link a m b ≠ some j) → Before a y j
  oneParent : ∀ i b j b' c, link a i b = some c → link a j b' = some c → i = j ∧ b = b'
  total : (q.map (fun j => (freqAt a j).toNat)).sum = sum
  known : ∀ j < a.length, ∃ nd, a[j]? = some nd ∧ nd.freq.isSome

theorem MergeInv.le {n sum : Nat} {ls a : List Node} {q : List Nat} (h : MergeInv n sum ls a q) : n ≤ a.length := by
  have := congrArg List.length h.leavesFirst
  rw [List.length_take, h.leafCount] at this
  omega

theorem sum_erase {l : List Nat} {x : Nat} (f : Nat → Nat) (h : x ∈ l) :
    f x + ((l.erase x).map f).sum = (l.map f).sum := by
  have := (List.perm_cons_erase h).map f
  have := this.sum_eq
  simp at this; omega

/-- One merge keeps the invariant. -/
theorem MergeInv.merge {n sum : Nat} {ls a : List Node} {q : List Nat} (h : MergeInv n sum ls a q)
    (hs : sum < 2 ^ 40) (hl : ∀ i < n, ∀ b, link ls i b = none) {x y : Nat} {q1 q2 : List Nat} (hx : removeMin a q = some (x, q1))
    (hy : removeMin a q1 = some (y, q2)) :
    MergeInv n sum ls (a ++ [mergeNode a x y]) (q2 ++ [a.length]) := by
  obtain ⟨hxq, rfl, hxm⟩ := removeMin_eq_some hx
  obtain ⟨hyq1, rfl, hym⟩ := removeMin_eq_some hy
  obtain ⟨hyx, hyq⟩ := (h.nodup.mem_erase_iff).mp hyq1
  have hxl := ((h.orphans x).mp hxq).1
  have hyl := ((h.orphans y).mp hyq).1
  have hle := h.le
  have hsx := sum_erase (fun j => (freqAt a j).toNat) hxq
  have hsy := sum_erase (fun j => (freqAt a j).toNat) hyq1
  have htot := h.total
  have hadd : (freqAt a x + freqAt a y).toNat = (freqAt a x).toNat + (freqAt a y).toNat := by
    rw [BitVec.toNat_add, Nat.mod_eq_of_lt (by omega)]
  have hnodup2 : ((q.erase x).erase y).Nodup := (h.nodup.erase x).erase y
  have hmem2 : ∀ j, j ∈ (q.erase x).erase y ↔ j ≠ y ∧ j ≠ x ∧ j ∈ q := fun j => by
    rw [(h.nodup.erase x).mem_erase_iff, h.nodup.mem_erase_iff]
  have hfN : freqAt (a ++ [mergeNode a x y]) a.length = freqAt a x + freqAt a y := by
    simp [freqAt, mergeNode, Node.freqBits, Node.freq]
  have hnew : ∀ b, link (a ++ [mergeNode a x y]) a.length b = some (if b then y else x) := fun b => by
    rw [link_snoc_self]; cases b <;> simp [mergeNode, Node.child, Node.left, Node.right]
  have hlinks : ∀ i b c, link (a ++ [mergeNode a x y]) i b = some c ↔
      (i < a.length ∧ link a i b = some c) ∨ (i = a.length ∧ c = if b then y else x) := fun i b c => by
    constructor
    · intro hi
      have : i < a.length + 1 := by simpa using link_eq_some_lt hi
      rcases Nat.lt_or_ge i a.length with hlt | hge
      · exact .inl ⟨hlt, by rwa [link_snoc_lt b hlt] at hi⟩
      · obtain rfl : i = a.length := by omega
        rw [hnew] at hi
        exact .inr ⟨rfl, by simpa using hi.symm⟩
    · rintro (⟨hlt, hi⟩ | ⟨rfl, rfl⟩)
      · rwa [link_snoc_lt b hlt]
      · exact hnew b
  have hlt : ∀ i b c, link a i b = some c → c < a.length := by
    intro i b c hi
    by_cases hin : i < n
    · have : link ls i b = link a i b := by
        rw [← h.leavesFirst]; unfold link; rw [List.getElem?_take_of_lt hin]
      rw [hl i hin b] at this
      rw [← this] at hi; cases hi
    · obtain ⟨x', y', f', ha', hx', hy', -⟩ := h.merged i (by omega) (link_eq_some_lt hi)
      have := link_eq_some_lt hi
      unfold link at hi
      rw [ha'] at hi
      cases b <;> simp [Node.child, Node.left, Node.right] at hi <;> omega
  refine ⟨?_, ?_, h.leafCount, ?_, ?_, ?_, ?_, ?_, ?_⟩
  · have h1 := List.length_erase_of_mem hxq
    have h2 := List.length_erase_of_mem hyq1
    have h3 : 0 < q.length := List.length_pos_of_mem hxq
    have h4 : 0 < (q.erase x).length := List.length_pos_of_mem hyq1
    have := h.count
    simp only [List.length_append, List.length_singleton]; omega
  · rw [List.take_append_of_le_length hle, h.leavesFirst]
  · refine List.Nodup.append hnodup2 (by simp) ?_
    intro j hj hj'
    simp at hj'
    have := ((h.orphans j).mp ((hmem2 j).mp hj).2.2).1
    omega
  · intro j
    rw [List.mem_append, hmem2, List.mem_singleton, h.orphans]
    simp only [List.length_append, List.length_singleton, ne_eq, hlinks, not_or, not_and]
    constructor
    · rintro (⟨h1, h2, h3, h4⟩ | rfl)
      · refine ⟨by omega, fun i b => ⟨fun _ => h4 i b, fun _ => ?_⟩⟩
        split <;> assumption
      · refine ⟨by omega, fun i b => ⟨fun _ hi => ?_, fun _ => ?_⟩⟩
        · exact absurd (hlt _ _ _ hi) (by omega)
        · split <;> omega
    · rintro ⟨h1, h2⟩
      by_cases hj : j = a.length
      · exact .inr hj
      · refine .inl ⟨?_, ?_, by omega, fun i b hi => (h2 i b).1 (link_eq_some_lt hi) hi⟩
        · simpa using (h2 a.length true).2 rfl
        · simpa using (h2 a.length false).2 rfl
  · intro k hk hkl
    simp only [List.length_append, List.length_singleton] at hkl
    rcases Nat.lt_or_ge k a.length with hlt' | hge
    · obtain ⟨x', y', f', ha', hx', hy', hf', hb', hg'⟩ := h.merged k hk hlt'
      refine ⟨x', y', f', by rw [getElem?_snoc_lt hlt', ha'], hx', hy', ?_, ?_, ?_⟩
      · rw [freqAt_snoc (by omega), freqAt_snoc (by omega), hf']
      · rwa [before_snoc (by omega) (by omega)]
      · intro j hj hjx hjy hjo
        rw [before_snoc (by omega) (by omega)]
        exact hg' j hj hjx hjy (fun m hm b => by rw [← link_snoc_lt (n := mergeNode a x y) b (by omega)]; exact hjo m hm b)
    · obtain rfl : k = a.length := by omega
      refine ⟨x, y, freqAt a x + freqAt a y, by simp [mergeNode], hxl, hyl, ?_, ?_, ?_⟩
      · rw [freqAt_snoc hxl, freqAt_snoc hyl, hadd]
      · rw [before_snoc hxl hyl]; exact hxm y hyq hyx
      · intro j hj hjx hjy hjo
        rw [before_snoc hyl hj]
        refine hym j ((h.nodup.mem_erase_iff).mpr ⟨hjx, (h.orphans j).mpr ⟨hj, fun i b hi => ?_⟩⟩) hjy
        have hil := link_eq_some_lt hi
        exact hjo i hil b (by rwa [link_snoc_lt b hil])
  · intro i b j b' c hi hj
    rw [hlinks] at hi hj
    have hxo := ((h.orphans x).mp hxq).2
    have hyo := ((h.orphans y).mp hyq).2
    rcases hi with ⟨-, hi⟩ | ⟨rfl, hi⟩ <;> rcases hj with ⟨-, hj⟩ | ⟨rfl, hj⟩
    · exact h.oneParent _ _ _ _ _ hi hj
    · exfalso; subst hj; split at hi
      · exact hyo _ _ hi
      · exact hxo _ _ hi
    · exfalso; subst hi; split at hj
      · exact hyo _ _ hj
      · exact hxo _ _ hj
    · refine ⟨rfl, ?_⟩
      cases b <;> cases b' <;> simp at hi hj ⊢
      · exact hyx (hj.symm.trans hi)
      · exact hyx (hi.symm.trans hj)
  · have hcongr : ((q.erase x).erase y).map (fun j => (freqAt (a ++ [mergeNode a x y]) j).toNat) =
        ((q.erase x).erase y).map (fun j => (freqAt a j).toNat) := by
      apply List.map_congr_left
      intro j hj
      rw [freqAt_snoc ((h.orphans j).mp ((hmem2 j).mp hj).2.2).1]
    rw [List.map_append, List.sum_append, hcongr]
    simp only [List.map_cons, List.map_nil, List.sum_cons, List.sum_nil, hfN, hadd]
    omega
  · intro j hj
    simp only [List.length_append, List.length_singleton] at hj
    rcases Nat.lt_or_ge j a.length with hlt' | hge
    · rw [getElem?_snoc_lt hlt']; exact h.known j hlt'
    · obtain rfl : j = a.length := by omega
      exact ⟨mergeNode a x y, by simp, by simp [mergeNode, Node.freq]⟩

/-- The loop ends with one element left, the last node. -/
theorem mergeLoop_spec {n sum : Nat} {ls a : List Node} {q : List Nat} (h : MergeInv n sum ls a q)
    (hs : sum < 2 ^ 40) (hl : ∀ i < n, ∀ b, link ls i b = none) {fuel : Nat} (hq : 1 ≤ q.length)
    (hf : q.length ≤ fuel + 1) :
    MergeInv n sum ls (mergeLoop fuel a q).1 (mergeLoop fuel a q).2 ∧ (mergeLoop fuel a q).2.length = 1 := by
  induction fuel generalizing a q with
  | zero => exact ⟨h, by simp [mergeLoop]; omega⟩
  | succ fuel ih =>
    rw [mergeLoop]
    cases hx : removeMin a q with
    | none => simp [removeMin_eq_none.mp hx] at hq
    | some xq =>
      obtain ⟨x, q1⟩ := xq
      obtain ⟨hxq, hq1, -⟩ := removeMin_eq_some hx
      have hlen := List.length_erase_of_mem hxq
      cases hy : removeMin a q1 with
      | none =>
        have := removeMin_eq_none.mp hy
        rw [← hq1, this] at hlen
        simp only [List.length_nil] at hlen
        simp only [hy]
        exact ⟨h, by omega⟩
      | some yq =>
        obtain ⟨y, q2⟩ := yq
        obtain ⟨hyq, hq2, -⟩ := removeMin_eq_some hy
        have hlen2 := List.length_erase_of_mem hyq
        have hpos : 0 < q1.length := List.length_pos_of_mem hyq
        rw [← hq1] at hlen
        rw [← hq2] at hlen2
        simp only [hy]
        exact ih (h.merge hs hl hx hy) (by simp) (by simp; omega)

/-- The leaf of a present byte. -/
def byteLeaf (freq : Vector Word 256) (b : Fin 256) : Node :=
  .leaf (b.castLE (by decide)) (some (freq[b.val].setWidth 40))

theorem filterMap_leafOf (freq : Vector Word 256) (l : List (Fin 256)) :
    l.filterMap (leafOf freq) = (l.filter (fun b => freq[b.val] ≠ 0)).map (byteLeaf freq) := by
  induction l with
  | nil => rfl
  | cons b l ih =>
    by_cases h : freq[b.val] = 0
    · rw [List.filterMap_cons_none (by simp [leafOf, h]), ih, List.filter_cons_of_neg (by simpa using h)]
    · rw [List.filterMap_cons_some (b := byteLeaf freq b) (by rw [leafOf, if_neg h, byteLeaf]), ih,
        List.filter_cons_of_pos (by simpa using h), List.map_cons]

/-- The leaves in arena order (R145). -/
theorem leaves_eq (freq : Vector Word 256) :
    leaves freq = (presentBytes freq).map (byteLeaf freq) ++ [.leaf Config.eofSym (some 1)] := by
  rw [leaves, filterMap_leafOf, presentBytes]

theorem leaves_length (freq : Vector Word 256) : (leaves freq).length = leafCount freq := by
  simp [leaves_eq, leafCount]

theorem leafCount_le (freq : Vector Word 256) : leafCount freq ≤ 257 := by
  have := List.length_filter_le (fun b : Fin 256 => decide (freq[b.val] ≠ 0)) (List.finRange 256)
  simp only [List.length_finRange] at this
  simp only [leafCount, presentBytes]; omega

/-- An entry of the leaves is a leaf with a known frequency. -/
theorem leaves_getElem? {freq : Vector Word 256} {i : Nat} (h : i < leafCount freq) :
    ∃ y f, (leaves freq)[i]? = some (.leaf y (some f)) := by
  have hi : i < (leaves freq).length := by rwa [leaves_length]
  have hm := List.getElem_mem hi
  rw [List.getElem?_eq_getElem hi]
  simp only [leaves_eq, List.mem_append, List.mem_map, List.mem_singleton] at hm
  simp only [Option.some.injEq]
  rcases hm with ⟨b, -, hb⟩ | hb
  · exact ⟨_, _, by simp only [leaves_eq]; exact hb.symm⟩
  · exact ⟨_, _, by simp only [leaves_eq]; exact hb⟩

theorem leaves_link_none (freq : Vector Word 256) (i : Nat) (b : Bool) : link (leaves freq) i b = none := by
  cases h : link (leaves freq) i b with
  | none => rfl
  | some c =>
    exfalso
    have hi := link_eq_some_lt h
    rw [leaves_length] at hi
    obtain ⟨y, f, hy⟩ := leaves_getElem? hi
    rw [IsLeaf.link_none ⟨_, hy⟩ b] at h
    cases h

/-- The total of all counts and of the EOF leaf (R143). -/
def freqTotal (freq : Vector Word 256) : Nat := 1 + ((List.finRange 256).map (fun b => freq[b.val].toNat)).sum

theorem freqTotal_lt (freq : Vector Word 256) : freqTotal freq < 2 ^ 40 := by
  have : ((List.finRange 256).map (fun b => freq[b.val].toNat)).sum ≤
      ((List.finRange 256).map (fun b => freq[b.val].toNat)).length * (2 ^ 32 - 1) := by
    apply List.sum_le_card_nsmul
    intro x hx
    obtain ⟨b, -, rfl⟩ := List.mem_map.mp hx
    have := freq[b.val].isLt
    omega
  simp only [List.length_map, List.length_finRange] at this
  unfold freqTotal; omega

theorem sum_filter_ne_zero (f : Fin 256 → Nat) (p : Fin 256 → Bool) (hp : ∀ b, p b = false → f b = 0)
    (l : List (Fin 256)) : ((l.filter p).map f).sum = (l.map f).sum := by
  induction l with
  | nil => rfl
  | cons b l ih =>
    by_cases h : p b = true
    · rw [List.filter_cons_of_pos h]; simp [ih]
    · rw [List.filter_cons_of_neg h]; simp [ih, hp b (by simpa using h)]

theorem map_freqAt_range (a : List Node) :
    (List.range a.length).map (fun j => (freqAt a j).toNat) = a.map (fun n => n.freqBits.toNat) := by
  apply List.ext_getElem (by simp)
  intro i h1 h2
  simp at h1
  simp [freqAt, h1]

theorem leaves_total (freq : Vector Word 256) :
    ((List.range (leaves freq).length).map (fun j => (freqAt (leaves freq) j).toNat)).sum = freqTotal freq := by
  rw [map_freqAt_range, leaves_eq]
  have h1 : ((presentBytes freq).map (fun b => freq[b.val].toNat)).sum =
      ((List.finRange 256).map (fun b => freq[b.val].toNat)).sum := by
    apply sum_filter_ne_zero
    intro b hb
    simp only [ne_eq, decide_not, Bool.not_eq_false', decide_eq_true_eq] at hb
    simp [hb]
  have h2 : (List.map (fun n => n.freqBits.toNat) ((presentBytes freq).map (byteLeaf freq))) =
      (presentBytes freq).map (fun b => freq[b.val].toNat) := by
    rw [List.map_map]
    apply List.map_congr_left
    intro b _
    have := freq[b.val].isLt
    simp only [Function.comp_apply, byteLeaf, Node.freqBits, Node.freq, Option.getD_some, BitVec.toNat_setWidth]
    omega
  simp only [List.map_append, List.sum_append, h2, h1, freqTotal]
  simp [Node.freqBits, Node.freq]; omega

/-- The merge loop's invariant holds before its first turn. -/
theorem mergeInv_leaves (freq : Vector Word 256) :
    MergeInv (leafCount freq) (freqTotal freq) (leaves freq) (leaves freq) (List.range (leaves freq).length) where
  count := by simp [leaves_length]; omega
  leavesFirst := by rw [← leaves_length, List.take_length]
  leafCount := leaves_length freq
  nodup := List.nodup_range
  orphans j := by simp [leaves_link_none]
  merged k h h' := by rw [leaves_length] at h'; omega
  oneParent i b j b' c h := by simp [leaves_link_none] at h
  total := leaves_total freq
  known j h := by
    obtain ⟨y, f, hy⟩ := leaves_getElem? (by rwa [← leaves_length])
    exact ⟨_, hy, rfl⟩

/-- The greedy merge of R144, all of it: the loop's invariant at its end, with the last node alone in Q. -/
theorem mergeAll_spec (freq : Vector Word 256) :
    MergeInv (leafCount freq) (freqTotal freq) (leaves freq) (mergeAll freq).1 [2 * leafCount freq - 2] ∧
      (mergeAll freq).2 = [2 * leafCount freq - 2] := by
  have hL : 1 ≤ leafCount freq := by simp [leafCount]
  obtain ⟨h, h1⟩ := mergeLoop_spec (mergeInv_leaves freq) (freqTotal_lt freq)
    (fun i _ b => leaves_link_none freq i b) (fuel := (leaves freq).length) (by simp [leaves_length]; omega) (by simp)
  change MergeInv _ _ _ (mergeAll freq).1 (mergeAll freq).2 at h
  change (mergeAll freq).2.length = 1 at h1
  obtain ⟨r, hr⟩ := List.length_eq_one_iff.mp h1
  have hc := h.count
  rw [h1] at hc
  have hmem : 2 * leafCount freq - 2 ∈ (mergeAll freq).2 := by
    rw [h.orphans]
    refine ⟨by omega, fun i b hi => ?_⟩
    have hil := link_eq_some_lt hi
    by_cases hin : i < leafCount freq
    · have : link (mergeAll freq).1 i b = link (leaves freq) i b := by
        conv_rhs => rw [← h.leavesFirst]
        unfold link; rw [List.getElem?_take_of_lt hin]
      rw [this, leaves_link_none] at hi; cases hi
    · obtain ⟨x, y, f, ha, hx, hy, -⟩ := h.merged i (by omega) hil
      unfold link at hi
      rw [ha] at hi
      cases b <;> simp [Node.child, Node.left, Node.right] at hi <;> omega
  rw [hr, List.mem_singleton] at hmem
  rw [hr, ← hmem] at h
  exact ⟨h, by rw [hr, hmem]⟩

/-! ### The tree BUILD_FREQ builds (R145, R146) -/

section
variable (freq : Vector Word 256)

theorem mergeAll_length : (mergeAll freq).1.length = 2 * leafCount freq - 1 := by
  have h := (mergeAll_spec freq).1.count
  have : 1 ≤ leafCount freq := by simp [leafCount]
  simp only [List.length_singleton] at h; omega

theorem mergeAll_leaf {i : Nat} (h : i < leafCount freq) : (mergeAll freq).1[i]? = (leaves freq)[i]? := by
  conv_rhs => rw [← (mergeAll_spec freq).1.leavesFirst]
  rw [List.getElem?_take_of_lt h]

theorem mergeAll_isLeaf {i : Nat} {y : Sym} (h : IsLeaf (mergeAll freq).1 i y) :
    i < leafCount freq ∧ IsLeaf (leaves freq) i y := by
  have hi : i < leafCount freq := by
    by_contra hn
    obtain ⟨x, z, f, ha, -⟩ := (mergeAll_spec freq).1.merged i (by omega) h.lt
    exact h.not_internal ⟨_, _, _, ha⟩
  obtain ⟨f, hf⟩ := h
  rw [mergeAll_leaf freq hi] at hf
  exact ⟨hi, f, hf⟩

theorem mergeAll_internal {i : Nat} (h : IsInternal (mergeAll freq).1 i) :
    leafCount freq ≤ i ∧ ∃ f x y, (mergeAll freq).1[i]? = some (.internal (some f) (some x) (some y)) ∧ x < i ∧ y < i := by
  by_cases hi : i < leafCount freq
  · obtain ⟨y, f, hy⟩ := leaves_getElem? hi
    rw [← mergeAll_leaf freq hi] at hy
    exact absurd h (IsLeaf.not_internal ⟨_, hy⟩)
  · obtain ⟨x, y, f, ha, hx, hy, -⟩ := (mergeAll_spec freq).1.merged i (by omega) h.lt
    exact ⟨by omega, f, x, y, ha, hx, hy⟩

theorem mergeAll_link_lt {i : Nat} {b : Bool} {c : Nat} (h : link (mergeAll freq).1 i b = some c) : c < i := by
  obtain ⟨-, f, x, y, ha, hx, hy⟩ := mergeAll_internal freq (internal_of_link h)
  unfold link at h
  rw [ha] at h
  cases b <;> simp [Node.child, Node.left, Node.right] at h <;> omega

/-- The symbols of the leaves, each once: the present bytes and `EOF_SYMBOL` (R145, R146). -/
theorem leaves_isLeaf {i : Nat} {y : Sym} :
    IsLeaf (leaves freq) i y ↔ (∃ b, (presentBytes freq)[i]? = some b ∧ b.val = y.val) ∨
      (i = (presentBytes freq).length ∧ y = Config.eofSym) := by
  unfold IsLeaf
  rw [leaves_eq]
  rcases Nat.lt_trichotomy i (presentBytes freq).length with h | h | h
  · rw [List.getElem?_append_left (by simpa)]
    simp only [List.getElem?_map, List.getElem?_eq_getElem h, Option.map_some, Option.some.injEq, byteLeaf,
      Node.leaf.injEq, exists_and_left, exists_eq', and_true]
    constructor
    · rintro rfl; exact .inl ⟨_, rfl, rfl⟩
    · rintro (⟨b, rfl, hb⟩ | ⟨h', -⟩)
      · exact Fin.ext hb
      · omega
  · subst h
    rw [List.getElem?_append_right (by simp)]
    simp only [List.length_map, Nat.sub_self, List.getElem?_cons_zero, Option.some.injEq, Node.leaf.injEq,
      exists_and_left, exists_eq', and_true, true_and]
    constructor
    · rintro rfl; exact .inr rfl
    · rintro (⟨b, hb, -⟩ | rfl)
      · simp at hb
      · rfl
  · rw [List.getElem?_eq_none (by simp; omega)]
    constructor
    · rintro ⟨f, hf⟩; cases hf
    · rintro (⟨b, hb, -⟩ | ⟨h', -⟩)
      · rw [List.getElem?_eq_none (by omega)] at hb; cases hb
      · omega

theorem presentBytes_nodup : (presentBytes freq).Nodup := (List.nodup_finRange 256).filter _

theorem leaves_leafOnce {i j : Nat} {y : Sym} (h : IsLeaf (leaves freq) i y) (h' : IsLeaf (leaves freq) j y) :
    i = j := by
  rw [leaves_isLeaf] at h h'
  have key : ∀ b : Fin 256, b.val ≠ (256 : Sym).val := fun b => by
    have := b.isLt; simp; omega
  rcases h with ⟨b, hb, hy⟩ | ⟨hi, hy⟩ <;> rcases h' with ⟨c, hc, hz⟩ | ⟨hj, hz⟩
  · obtain rfl : b = c := Fin.ext (hy.trans hz.symm)
    obtain ⟨hi, hb⟩ := List.getElem?_eq_some_iff.mp hb
    obtain ⟨hj, hc⟩ := List.getElem?_eq_some_iff.mp hc
    exact (presentBytes_nodup freq).getElem_inj_iff.mp (hb.trans hc.symm)
  · subst hz; exact absurd hy (key b)
  · subst hy; exact absurd hz (key c)
  · omega

theorem mergeAll_arenaOk : ArenaOk (mergeAll freq).1 where
  cap := by
    have := leafCount_le freq
    rw [mergeAll_length]; simp only [Config.nodeCap]; omega
  inRange i b c h := (mergeAll_link_lt freq h).trans (link_eq_some_lt h)
  ordered := .inl fun _ _ _ h => mergeAll_link_lt freq h
  oneParent := (mergeAll_spec freq).1.oneParent
  leafOnce i j y h h' := leaves_leafOnce freq (mergeAll_isLeaf freq h).2 (mergeAll_isLeaf freq h').2

theorem mergeAll_top (i : Nat) (b : Bool) : link (mergeAll freq).1 i b ≠ some (2 * leafCount freq - 2) := by
  have := ((mergeAll_spec freq).1.orphans (2 * leafCount freq - 2)).mp (by simp)
  exact this.2 i b

theorem mergeAll_bothChildren {i : Nat} (b : Bool) (h : IsInternal (mergeAll freq).1 i) :
    ∃ c, link (mergeAll freq).1 i b = some c := by
  obtain ⟨-, f, x, y, ha, -⟩ := mergeAll_internal freq h
  exact ⟨if b then y else x, by cases b <;> simp [link, ha, Node.child, Node.left, Node.right]⟩

/-- Every node but the last has a parent. -/
theorem mergeAll_parent {j : Nat} (h : j < (mergeAll freq).1.length) (hr : j ≠ 2 * leafCount freq - 2) :
    ∃ k b, link (mergeAll freq).1 k b = some j := by
  by_contra hn
  push Not at hn
  have := ((mergeAll_spec freq).1.orphans j).mpr ⟨h, hn⟩
  simp at this; omega

/-- Every node is reached from the root. -/
theorem mergeAll_reached {j : Nat} (h : j < (mergeAll freq).1.length) :
    ∃ p, follow (mergeAll freq).1 p (2 * leafCount freq - 2) = some j := by
  induction hk : (mergeAll freq).1.length - j using Nat.strong_induction_on generalizing j with
  | _ k ih =>
    by_cases hr : j = 2 * leafCount freq - 2
    · exact ⟨[], by rw [hr]; rfl⟩
    · obtain ⟨i, b, hi⟩ := mergeAll_parent freq h hr
      have := mergeAll_link_lt freq hi
      have hil := link_eq_some_lt hi
      obtain ⟨p, hp⟩ := ih _ (by omega) hil rfl
      exact ⟨p ++ [b], follow_snoc_eq_some.mpr ⟨i, hp, hi⟩⟩

/-- No path from the root is longer than L − 1 (R146). -/
theorem mergeAll_depth {p : List Bool} {j : Nat} (h : follow (mergeAll freq).1 p (2 * leafCount freq - 2) = some j) :
    p.length ≤ leafCount freq - 1 := by
  rcases List.eq_nil_or_concat p with rfl | ⟨q, b, rfl⟩
  · simp
  · rw [List.concat_eq_append] at h ⊢
    obtain ⟨k, hk, hl⟩ := follow_snoc_eq_some.mp h
    have h1 := follow_descends (fun i b c h => mergeAll_link_lt freq h) hk
    have h2 := (mergeAll_internal freq (internal_of_link hl)).1
    have : 1 ≤ leafCount freq := by simp [leafCount]
    simp; omega

theorem mergeAll_rootOk : RootOk (mergeAll freq).1 (2 * leafCount freq - 2) where
  allocated := by
    have : 1 ≤ leafCount freq := by simp [leafCount]
    rw [mergeAll_length]; omega
  top := mergeAll_top freq
  oneChild i h := ⟨true, mergeAll_bothChildren freq true h⟩
  depth p j h := by
    have := mergeAll_depth freq h
    have := leafCount_le freq
    simp only [Config.maxCodeLen]; omega

/-- The leaves of the tree: the present bytes and `EOF_SYMBOL` (R146). -/
theorem mergeAll_leafAt (y : Sym) :
    (∃ p, LeafAt (mergeAll freq).1 (2 * leafCount freq - 2) p y) ↔
      (y = Config.eofSym ∨ ∃ b : Fin 256, b.val = y.val ∧ freq[b.val] ≠ 0) := by
  constructor
  · rintro ⟨p, j, -, hl⟩
    rcases (leaves_isLeaf freq).mp (mergeAll_isLeaf freq hl).2 with ⟨b, hb, hy⟩ | ⟨-, hy⟩
    · have := List.mem_of_getElem? hb
      simp only [presentBytes, List.mem_filter, decide_eq_true_eq] at this
      exact .inr ⟨b, hy, this.2⟩
    · exact .inl hy
  · intro h
    have : ∃ i, IsLeaf (leaves freq) i y := by
      rcases h with rfl | ⟨b, hb, hf⟩
      · exact ⟨_, (leaves_isLeaf freq).mpr (.inr ⟨rfl, rfl⟩)⟩
      · have hm : b ∈ presentBytes freq := by
          simp only [presentBytes, List.mem_filter, decide_eq_true_eq]
          exact ⟨List.mem_finRange b, hf⟩
        obtain ⟨i, hi⟩ := List.mem_iff_getElem?.mp hm
        exact ⟨i, (leaves_isLeaf freq).mpr (.inl ⟨b, hi, hb⟩)⟩
    obtain ⟨i, f, hi⟩ := this
    have hlt : i < leafCount freq := by
      rw [← leaves_length]; exact IsLeaf.lt ⟨f, hi⟩
    rw [← mergeAll_leaf freq hlt] at hi
    obtain ⟨p, hp⟩ := mergeAll_reached freq (IsLeaf.lt ⟨f, hi⟩)
    exact ⟨p, i, hp, f, hi⟩

theorem mergeAll_freqTreeOk : FreqTreeOk (mergeAll freq).1 (2 * leafCount freq - 2) where
  bothChildren _ b h := mergeAll_bothChildren freq b h
  eofLeaf := (mergeAll_leafAt freq Config.eofSym).mpr (.inl rfl)

end

/-- BUILD_FREQ over a FREQ with a nonzero entry (R144). -/
theorem execBuildFreq_next {s : State} (h : ∃ b : Fin 256, s.freq[b.val] ≠ 0#32) :
    execBuildFreq s = .next (finish { dropTree s with
      arena := (mergeAll s.freq).1, root := some (2 * leafCount s.freq - 2), treeValid := true, treeMode := false }) := by
  have hall : s.freq.toList.all (· == 0) = false := by
    obtain ⟨b, hb⟩ := h
    rw [List.all_eq_false]
    exact ⟨s.freq[b.val], by simp, by simpa using hb⟩
  have hroot : (mergeAll s.freq).2.head? = some (2 * leafCount s.freq - 2) := by
    rw [(mergeAll_spec s.freq).2]; rfl
  simp only [execBuildFreq, hall, hroot]; rfl

end Sys2Proof.Machine
end

