-- ==== Sys2Proof/Laws/HdrBuild.lean ====
section
/-! SUPPORT. Path insertion of BUILD_HDR: what it comes to, from every slot (spec/41_header_build.md R169 to R172). -/

namespace Sys2Proof.Machine

/-! ### Link fields -/

theorem slotGet_childSlot (b : Build) (i : Nat) (c : Bool) : slotGet b (childSlot i c) = link b.arena i c := by
  cases h : b.arena[i]? <;> cases c <;> simp [childSlot, slotGet, link, Node.child, h]

theorem childSlot_inj {i j : Nat} {c d : Bool} : childSlot i c = childSlot j d ↔ i = j ∧ c = d := by
  cases c <;> cases d <;> simp [childSlot]

theorem childSlot_ne_root {i : Nat} {c : Bool} : childSlot i c ≠ .root := by cases c <;> simp [childSlot]

/-- `slot` is the link field at the end of path `p` from ROOT. -/
def SlotAt (b : Build) (p : List Bool) (slot : Slot) : Prop :=
  (p = [] ∧ slot = .root) ∨
    ∃ q c i, p = q ++ [c] ∧ slot = childSlot i c ∧ b.root.bind (follow b.arena q) = some i ∧ IsInternal b.arena i

/-- The node at the end of a path from ROOT. -/
def nodeAt (b : Build) (p : List Bool) : Option Nat := b.root.bind (follow b.arena p)

@[simp] theorem nodeAt_nil (b : Build) : nodeAt b [] = b.root := by cases h : b.root <;> simp [nodeAt, h]

theorem nodeAt_snoc {b : Build} {p : List Bool} {c : Bool} {k : Nat} :
    nodeAt b (p ++ [c]) = some k ↔ ∃ i, nodeAt b p = some i ∧ link b.arena i c = some k := by
  unfold nodeAt
  cases b.root with
  | none => simp
  | some r => simp [follow_snoc_eq_some]

theorem nodeAt_append {b : Build} {p q : List Bool} {k : Nat} :
    nodeAt b (p ++ q) = some k ↔ ∃ i, nodeAt b p = some i ∧ follow b.arena q i = some k := by
  unfold nodeAt
  cases b.root with
  | none => simp
  | some r => simp [follow_append, Option.bind_eq_some_iff]

/-- A leaf and its code from ROOT. -/
def LeafFrom (b : Build) (code : List Bool) (y : Sym) : Prop :=
  ∃ k, nodeAt b code = some k ∧ IsLeaf b.arena k y

theorem leafFrom_iff {b : Build} {code : List Bool} {y : Sym} :
    LeafFrom b code y ↔ ∃ r, b.root = some r ∧ LeafAt b.arena r code y := by
  unfold LeafFrom LeafAt nodeAt
  cases b.root <;> simp

theorem slotGet_slotAt {b : Build} {p : List Bool} {slot : Slot} (h : SlotAt b p slot) :
    slotGet b slot = nodeAt b p := by
  rcases h with ⟨rfl, rfl⟩ | ⟨q, c, i, rfl, rfl, hi, -⟩
  · simp [slotGet]
  · rw [slotGet_childSlot]
    cases hl : link b.arena i c with
    | none =>
      cases hn : nodeAt b (q ++ [c]) with
      | none => rfl
      | some k =>
        obtain ⟨i', hi', hk⟩ := nodeAt_snoc.mp hn
        rw [nodeAt, hi] at hi'; cases hi'
        rw [hl] at hk; cases hk
    | some k => exact (nodeAt_snoc.mpr ⟨i, hi, hl⟩).symm

/-! ### What holds of the tree under construction -/

/-- A forest with all links upward, ROOT on top (R58, R169). -/
structure BuildOk (b : Build) : Prop where
  cap : b.arena.length ≤ Config.nodeCap
  inRange : ∀ i c k, link b.arena i c = some k → k < b.arena.length
  upward : ∀ i c k, link b.arena i c = some k → i < k
  oneParent : ∀ i c j c' k, link b.arena i c = some k → link b.arena j c' = some k → i = j ∧ c = c'
  leafOnce : ∀ i j y, IsLeaf b.arena i y → IsLeaf b.arena j y → i = j
  rootLt : ∀ r, b.root = some r → r < b.arena.length
  top : ∀ r i c, b.root = some r → link b.arena i c ≠ some r

theorem BuildOk.arenaOk {b : Build} (h : BuildOk b) : ArenaOk b.arena :=
  ⟨h.cap, h.inRange, .inr h.upward, h.oneParent, h.leafOnce⟩

theorem BuildOk.nodeAt_inj {b : Build} (h : BuildOk b) {p q : List Bool} {k : Nat} (hp : nodeAt b p = some k)
    (hq : nodeAt b q = some k) : p = q := by
  unfold nodeAt at hp hq
  cases hr : b.root with
  | none => simp [hr] at hp
  | some r =>
    simp [hr] at hp hq
    exact follow_unique h.oneParent (fun i c => h.top r i c hr) hp hq

theorem BuildOk.nodeAt_lt {b : Build} (h : BuildOk b) {p : List Bool} {k : Nat} (hp : nodeAt b p = some k) :
    k < b.arena.length := by
  unfold nodeAt at hp
  cases hr : b.root with
  | none => simp [hr] at hp
  | some r =>
    simp [hr] at hp
    exact follow_lt h.inRange (h.rootLt r hr) hp

/-! ### One allocation at an empty link field -/

/-- A node with no children, as `alloc` creates it in R169. -/
def Childless (n : Node) : Prop := ∀ c, n.child c = none

section
variable {b : Build} {p : List Bool} {slot : Slot} {n : Node}

theorem allocAt_length : (allocAt slot n b).arena.length = b.arena.length + 1 := by
  cases slot <;> simp [allocAt, slotSet, alloc]

/-- The entries after an allocation: those before it, but for the node whose link is written, and the new one. -/
theorem allocAt_getElem? (j : Nat) : (allocAt slot n b).arena[j]? =
    match slot with
    | .root => (b.arena ++ [n])[j]?
    | .left i => ((b.arena ++ [n])[j]?).map (fun m => if i = j then setChild false b.arena.length m else m)
    | .right i => ((b.arena ++ [n])[j]?).map (fun m => if i = j then setChild true b.arena.length m else m) := by
  cases slot with
  | root => rfl
  | left i => simp only [allocAt, slotSet, alloc, List.getElem?_modify]; cases (b.arena ++ [n])[j]? <;> simp
  | right i => simp only [allocAt, slotSet, alloc, List.getElem?_modify]; cases (b.arena ++ [n])[j]? <;> simp

theorem setChild_leaf_iff {r : Bool} {c : Nat} {m : Node} {y : Sym} {f : Option NodeFreq} :
    setChild r c m = .leaf y f ↔ m = .leaf y f := by
  cases m <;> cases r <;> simp [setChild]

theorem allocAt_isLeaf (j : Nat) (y : Sym) : IsLeaf (allocAt slot n b).arena j y ↔ IsLeaf (b.arena ++ [n]) j y := by
  unfold IsLeaf
  rw [allocAt_getElem?]
  cases slot with
  | root => rfl
  | left i =>
    cases (b.arena ++ [n])[j]? with
    | none => simp
    | some m => by_cases h : i = j <;> simp [h, setChild_leaf_iff]
  | right i =>
    cases (b.arena ++ [n])[j]? with
    | none => simp
    | some m => by_cases h : i = j <;> simp [h, setChild_leaf_iff]

theorem isLeaf_snoc {a : List Node} {n : Node} {j : Nat} {y : Sym} :
    IsLeaf (a ++ [n]) j y ↔ IsLeaf a j y ∨ (j = a.length ∧ ∃ f, n = .leaf y f) := by
  unfold IsLeaf
  rcases Nat.lt_trichotomy j a.length with h | h | h
  · rw [List.getElem?_append_left h]; simp; omega
  · subst h; simp
  · rw [List.getElem?_eq_none (by simp; omega), List.getElem?_eq_none (by omega)]; simp; omega

theorem allocAt_isInternal {j : Nat} : IsInternal (allocAt slot n b).arena j ↔ IsInternal (b.arena ++ [n]) j := by
  have h1 : j < (allocAt slot n b).arena.length ↔ j < (b.arena ++ [n]).length := by rw [allocAt_length]; simp
  constructor
  · intro h
    rcases leaf_or_internal (h1.mp h.lt) with ⟨y, hy⟩ | hi
    · exact absurd h ((allocAt_isLeaf j y).mpr hy).not_internal
    · exact hi
  · intro h
    rcases leaf_or_internal (h1.mpr h.lt) with ⟨y, hy⟩ | hi
    · exact absurd h ((allocAt_isLeaf j y).mp hy).not_internal
    · exact hi

theorem isInternal_snoc {a : List Node} {n : Node} {j : Nat} :
    IsInternal (a ++ [n]) j ↔ IsInternal a j ∨ (j = a.length ∧ ∃ f l r, n = .internal f l r) := by
  unfold IsInternal
  rcases Nat.lt_trichotomy j a.length with h | h | h
  · rw [List.getElem?_append_left h]; simp; omega
  · subst h; simp
  · rw [List.getElem?_eq_none (by simp; omega), List.getElem?_eq_none (by omega)]; simp; omega

/-- The links after an allocation at an empty field: those before it and the new one. -/
theorem allocAt_link (hs : SlotAt b p slot) (hn : Childless n) (i : Nat) (c : Bool) :
    link (allocAt slot n b).arena i c = if slot = childSlot i c then some b.arena.length else link b.arena i c := by
  have hsnoc : link (b.arena ++ [n]) i c = link b.arena i c := by
    rcases Nat.lt_trichotomy i b.arena.length with h | h | h
    · exact link_snoc_lt c h
    · subst h; rw [link_snoc_self, hn, link, List.getElem?_eq_none (Nat.le_refl _)]
    · rw [link, link, List.getElem?_eq_none (by simp; omega), List.getElem?_eq_none (by omega)]
  rcases hs with ⟨-, rfl⟩ | ⟨q, c', i', -, rfl, -, hi'⟩
  · rw [if_neg (fun h => childSlot_ne_root h.symm), ← hsnoc]; rfl
  · have hlt := hi'.lt
    obtain ⟨f, l, r, hf⟩ := hi'
    have hf' : (b.arena ++ [n])[i']? = some (.internal f l r) := by rw [List.getElem?_append_left hlt, hf]
    by_cases hii : i' = i
    · subst hii
      simp only [childSlot_inj, true_and]
      cases c' <;> cases c <;>
        simp [link, allocAt_getElem?, childSlot, hf, hf', setChild, Node.child, Node.left, Node.right]
    · rw [if_neg (by rw [childSlot_inj]; exact fun h => hii h.1), ← hsnoc]
      cases c' <;> simp [link, allocAt_getElem?, childSlot, hii]

/-- After an allocation at the empty field at the end of `p`, the paths are those before it and `p`. -/
theorem allocAt_nodeAt (hb : BuildOk b) (hs : SlotAt b p slot) (he : slotGet b slot = none) (hn : Childless n)
    (q : List Bool) (k : Nat) :
    nodeAt (allocAt slot n b) q = some k ↔ nodeAt b q = some k ∨ (q = p ∧ k = b.arena.length) := by
  have hep : nodeAt b p = none := by rw [← slotGet_slotAt hs, he]
  have hroot : (allocAt slot n b).root = if slot = .root then some b.arena.length else b.root := by
    cases slot <;> simp [allocAt, slotSet, alloc]
  induction q using List.reverseRecOn generalizing k with
  | nil =>
    rw [nodeAt_nil, nodeAt_nil, hroot]
    rcases hs with ⟨rfl, rfl⟩ | ⟨q, c, i, rfl, rfl, -, -⟩
    · simp only [nodeAt_nil] at hep
      simp [hep, eq_comm]
    · simp [childSlot_ne_root]
  | append_singleton q c ih =>
    rw [nodeAt_snoc, nodeAt_snoc]
    simp only [ih, allocAt_link hs hn]
    constructor
    · rintro ⟨i, hi | ⟨rfl, rfl⟩, hk⟩
      · split at hk
        · rename_i hsl
          rcases hs with ⟨-, rfl⟩ | ⟨q', c', i', rfl, rfl, hi', -⟩
          · exact absurd hsl.symm childSlot_ne_root
          · obtain ⟨rfl, rfl⟩ := childSlot_inj.mp hsl
            exact .inr ⟨by rw [hb.nodeAt_inj hi hi'], by simpa using hk.symm⟩
        · exact .inl ⟨i, hi, hk⟩
      · exfalso
        split at hk
        · rename_i hsl
          rcases hs with ⟨-, rfl⟩ | ⟨q', c', i', -, rfl, -, hi'⟩
          · exact childSlot_ne_root hsl.symm
          · obtain ⟨rfl, -⟩ := childSlot_inj.mp hsl
            exact absurd hi'.lt (by omega)
        · exact absurd (link_eq_some_lt hk) (by omega)
    · rintro (⟨i, hi, hk⟩ | ⟨hp, rfl⟩)
      · refine ⟨i, .inl hi, ?_⟩
        split
        · rename_i hsl
          rw [hsl, slotGet_childSlot] at he
          rw [he] at hk; cases hk
        · exact hk
      · rcases hs with ⟨rfl, -⟩ | ⟨q', c', i', rfl, rfl, hi', -⟩
        · simp at hp
        · obtain ⟨rfl, rfl⟩ := List.append_singleton_inj.mp hp
          exact ⟨i', .inl hi', by simp⟩

/-- An allocation at an empty field keeps the tree under construction a tree. -/
theorem allocAt_buildOk (hb : BuildOk b) (hs : SlotAt b p slot) (he : slotGet b slot = none) (hn : Childless n)
    (hf : arenaFull b = false) (hl : ∀ y f, n = .leaf y f → ∀ i, ¬IsLeaf b.arena i y) :
    BuildOk (allocAt slot n b) := by
  have hroot : (allocAt slot n b).root = if slot = .root then some b.arena.length else b.root := by
    cases slot <;> simp [allocAt, slotSet, alloc]
  have hchild : ∀ i c, slot = childSlot i c → i < b.arena.length := by
    rintro i c rfl
    rcases hs with ⟨-, h⟩ | ⟨q', c', i', -, h, -, hi'⟩
    · exact absurd h childSlot_ne_root
    · obtain ⟨rfl, -⟩ := childSlot_inj.mp h; exact hi'.lt
  refine ⟨?_, ?_, ?_, ?_, ?_, ?_, ?_⟩
  · simp only [arenaFull, decide_eq_false_iff_not] at hf
    rw [allocAt_length]; omega
  · intro i c k h
    rw [allocAt_link hs hn] at h
    rw [allocAt_length]
    split at h
    · cases h; omega
    · have := hb.inRange _ _ _ h; omega
  · intro i c k h
    rw [allocAt_link hs hn] at h
    split at h
    · cases h; exact hchild _ _ ‹_›
    · exact hb.upward _ _ _ h
  · intro i c j c' k h h'
    rw [allocAt_link hs hn] at h h'
    split at h <;> split at h'
    · rename_i h1 h2; exact childSlot_inj.mp (h1.symm.trans h2)
    · cases h; exact absurd (hb.inRange _ _ _ h') (by omega)
    · cases h'; exact absurd (hb.inRange _ _ _ h) (by omega)
    · exact hb.oneParent _ _ _ _ _ h h'
  · intro i j y h h'
    rw [allocAt_isLeaf, isLeaf_snoc] at h h'
    rcases h with h | ⟨rfl, f, hf⟩ <;> rcases h' with h' | ⟨rfl, f', hf'⟩
    · exact hb.leafOnce _ _ _ h h'
    · exact absurd h (hl y f' hf' i)
    · exact absurd h' (hl y f hf j)
    · rfl
  · intro r h
    rw [hroot] at h
    rw [allocAt_length]
    split at h
    · cases h; omega
    · have := hb.rootLt r h; omega
  · intro r i c h hlk
    rw [hroot] at h
    rw [allocAt_link hs hn] at hlk
    split at hlk
    · cases hlk
      split at h
      · rename_i h1 h2; exact childSlot_ne_root (h1.symm.trans h2)
      · exact absurd (hb.rootLt _ h) (by omega)
    · split at h
      · cases h; exact absurd (hb.inRange _ _ _ hlk) (by omega)
      · exact hb.top _ _ _ h hlk

end

/-- An internal node with neither child. -/
def Childbare (a : List Node) (i : Nat) : Prop := IsInternal a i ∧ ∀ c, link a i c = none

theorem slot_owner_lt {b : Build} {p : List Bool} {slot : Slot} (hs : SlotAt b p slot) {i : Nat} {c : Bool}
    (h : slot = childSlot i c) : i < b.arena.length := by
  subst h
  rcases hs with ⟨-, h⟩ | ⟨q', c', i', -, h, -, hi'⟩
  · exact absurd h childSlot_ne_root
  · obtain ⟨rfl, -⟩ := childSlot_inj.mp h; exact hi'.lt

section
variable {b : Build} {p : List Bool} {slot : Slot} {n : Node}

/-- After an allocation at an empty field, the leaves are those before it and the new node if it is one. -/
theorem allocAt_leafFrom (hb : BuildOk b) (hs : SlotAt b p slot) (he : slotGet b slot = none) (hn : Childless n)
    (d : List Bool) (z : Sym) :
    LeafFrom (allocAt slot n b) d z ↔ LeafFrom b d z ∨ (d = p ∧ ∃ f, n = .leaf z f) := by
  unfold LeafFrom
  simp only [allocAt_nodeAt hb hs he hn, allocAt_isLeaf, isLeaf_snoc]
  constructor
  · rintro ⟨k, hk | ⟨rfl, rfl⟩, hl | ⟨hk', hf⟩⟩
    · exact .inl ⟨k, hk, hl⟩
    · exact absurd (hb.nodeAt_lt hk) (by omega)
    · exact absurd hl.lt (by omega)
    · exact .inr ⟨rfl, hf⟩
  · rintro (⟨k, hk, hl⟩ | ⟨rfl, hf⟩)
    · exact ⟨k, .inl hk, .inl hl⟩
    · exact ⟨_, .inr ⟨rfl, rfl⟩, .inr ⟨rfl, hf⟩⟩

theorem allocAt_freq {k : Nat} (h : b.arena.length ≤ k) {m : Node}
    (hm : (allocAt slot n b).arena[k]? = some m) : m.freq = n.freq := by
  have hk : k = b.arena.length := by
    have := (List.getElem?_eq_some_iff.mp hm).1
    rw [allocAt_length] at this; omega
  subst hk
  rw [allocAt_getElem?] at hm
  cases slot with
  | root => simp at hm; rw [hm]
  | left i => simp at hm; subst hm; split <;> cases n <;> simp [setChild, Node.freq]
  | right i => simp at hm; subst hm; split <;> cases n <;> simp [setChild, Node.freq]

/-- The fields of an entry but its links stay as they are. -/
theorem allocAt_old_freq {k : Nat} (h : k < b.arena.length) :
    ((allocAt slot n b).arena[k]?).map Node.freq = (b.arena[k]?).map Node.freq := by
  rw [allocAt_getElem?]
  cases slot with
  | root => rw [List.getElem?_append_left h]
  | left i =>
    rw [List.getElem?_append_left h]
    cases b.arena[k]? with
    | none => rfl
    | some m => by_cases hi : i = k <;> cases m <;> simp [hi, setChild, Node.freq]
  | right i =>
    rw [List.getElem?_append_left h]
    cases b.arena[k]? with
    | none => rfl
    | some m => by_cases hi : i = k <;> cases m <;> simp [hi, setChild, Node.freq]

theorem allocAt_childbare (hs : SlotAt b p slot) (hn : Childless n) {i : Nat}
    (h : Childbare (allocAt slot n b).arena i) :
    (Childbare b.arena i ∧ ∀ c, slot ≠ childSlot i c) ∨ (i = b.arena.length ∧ ∃ f l r, n = .internal f l r) := by
  obtain ⟨hi, hc⟩ := h
  rw [allocAt_isInternal, isInternal_snoc] at hi
  rcases hi with hi | hi
  · left
    refine ⟨⟨hi, fun c => ?_⟩, fun c hsl => ?_⟩
    · have := hc c
      rw [allocAt_link hs hn] at this
      split at this
      · cases this
      · exact this
    · have := hc c
      rw [allocAt_link hs hn, if_pos hsl] at this
      cases this
  · exact .inr hi

end

/-! ### Insertion -/

/-- Every node of the arena is reached from ROOT. -/
def Reached (b : Build) : Prop := ∀ k < b.arena.length, ∃ q, nodeAt b q = some k

/-- A pair has been placed with `n` allocations: the tree holds it at the end of its code's path, and nothing else moved
(R169, R172). -/
structure Placed (b b' : Build) (n : Nat) (code : List Bool) (y : Sym) : Prop where
  ok : BuildOk b'
  size : b'.arena.length = b.arena.length + n
  leaves : ∀ d z, LeafFrom b' d z ↔ LeafFrom b d z ∨ (d = code ∧ z = y)
  nodes : ∀ q, (nodeAt b' q).isSome ↔ (nodeAt b q).isSome ∨ q <+: code
  symbols : ∀ z, (∃ i, IsLeaf b'.arena i z) ↔ (∃ i, IsLeaf b.arena i z) ∨ z = y
  freq : ∀ k m, b.arena.length ≤ k → b'.arena[k]? = some m → m.freq = none
  oldFreq : ∀ k < b.arena.length, (b'.arena[k]?).map Node.freq = (b.arena[k]?).map Node.freq
  reached : Reached b → Reached b'

/-- The arena has run out on the way, with `n` allocations to make (R171). -/
structure RanOut (b b' : Build) (n : Nat) (code : List Bool) : Prop where
  ok : BuildOk b'
  grows : b.arena.length ≤ b'.arena.length
  full : b'.arena.length = Config.nodeCap
  short : Config.nodeCap < b.arena.length + n
  nodes : ∀ q, (nodeAt b' q).isSome → (nodeAt b q).isSome ∨ q <+: code
  unplaced : nodeAt b' code = none
  reached : Reached b → Reached b'

theorem slotAt_path {b : Build} {p : List Bool} {slot : Slot} (hs : SlotAt b p slot) {q : List Bool} (h : q <+: p)
    (hq : q ≠ p) : (nodeAt b q).isSome := by
  rcases hs with ⟨rfl, -⟩ | ⟨p', c, i, rfl, -, hi, -⟩
  · exact absurd (List.prefix_nil.mp h) hq
  · have hqp : q <+: p' := by
      rcases List.prefix_concat_iff.mp h with h' | h'
      · exact absurd h' hq
      · exact h'
    obtain ⟨t, rfl⟩ := hqp
    obtain ⟨j, hj, -⟩ := nodeAt_append.mp hi
    rw [hj]; rfl

/-- No path goes on past an empty field. -/
theorem fresh_nodeAt {b : Build} {p : List Bool} {slot : Slot} (hs : SlotAt b p slot) (he : slotGet b slot = none)
    (cs : List Bool) : nodeAt b (p ++ cs) = none := by
  cases h : nodeAt b (p ++ cs) with
  | none => rfl
  | some k =>
    obtain ⟨i, hi, -⟩ := nodeAt_append.mp h
    rw [← slotGet_slotAt hs, he] at hi; cases hi

theorem allocAt_reached {b : Build} {p : List Bool} {slot : Slot} {n : Node} (hb : BuildOk b) (hs : SlotAt b p slot)
    (he : slotGet b slot = none) (hn : Childless n) (h : Reached b) : Reached (allocAt slot n b) := by
  intro k hk
  rw [allocAt_length] at hk
  by_cases hkk : k < b.arena.length
  · obtain ⟨q, hq⟩ := h k hkk
    exact ⟨q, (allocAt_nodeAt hb hs he hn q k).mpr (.inl hq)⟩
  · exact ⟨p, (allocAt_nodeAt hb hs he hn p k).mpr (.inr ⟨rfl, by omega⟩)⟩

/-- Insertion from an empty field never collides (R170, R171). -/
theorem insertPath_fresh {y : Sym} {cs : List Bool} {p : List Bool} {slot : Slot} {b : Build} (hb : BuildOk b)
    (hs : SlotAt b p slot) (he : slotGet b slot = none) (hy : ∀ i, ¬IsLeaf b.arena i y) :
    (∃ b', insertPath y cs slot b = .done b' ∧ Placed b b' (cs.length + 1) (p ++ cs) y ∧
      (∀ i, Childbare b'.arena i → Childbare b.arena i ∧ ∀ c, slot ≠ childSlot i c)) ∨
    (∃ b', insertPath y cs slot b = .raised b' .arenaFull ∧ RanOut b b' (cs.length + 1) (p ++ cs)) := by
  induction cs generalizing p slot b with
  | nil =>
    simp only [insertPath, he]
    cases hf : arenaFull b with
    | true =>
      right
      refine ⟨b, by simp, hb, Nat.le_refl _, ?_, ?_, fun q hq => .inl hq, ?_, id⟩
      · have := hb.cap
        simp only [arenaFull, decide_eq_true_eq] at hf
        exact Nat.le_antisymm this hf
      · simp only [arenaFull, decide_eq_true_eq] at hf
        simp; omega
      · exact fresh_nodeAt hs he _
    | false =>
      left
      have hn : Childless (.leaf y none) := fun c => by cases c <;> rfl
      refine ⟨allocAt slot (.leaf y none) b, by simp, ⟨?_, ?_, ?_, ?_, ?_, ?_, ?_, ?_⟩, ?_⟩
      · refine allocAt_buildOk hb hs he hn hf ?_
        intro z f h i; cases h; exact hy i
      · rw [allocAt_length]; rfl
      · intro d z
        rw [allocAt_leafFrom hb hs he hn]
        simp [eq_comm]
      · intro q
        simp only [Option.isSome_iff_exists, allocAt_nodeAt hb hs he hn, List.append_nil]
        constructor
        · rintro ⟨k, hk | ⟨rfl, -⟩⟩
          · exact .inl ⟨k, hk⟩
          · exact .inr (List.prefix_refl _)
        · rintro (⟨k, hk⟩ | hq)
          · exact ⟨k, .inl hk⟩
          · by_cases hqp : q = p
            · exact ⟨_, .inr ⟨hqp, rfl⟩⟩
            · obtain ⟨k, hk⟩ := Option.isSome_iff_exists.mp (slotAt_path hs hq hqp)
              exact ⟨k, .inl hk⟩
      · intro z
        simp only [allocAt_isLeaf, isLeaf_snoc]
        constructor
        · rintro ⟨i, h | ⟨-, f, h⟩⟩
          · exact .inl ⟨i, h⟩
          · cases h; exact .inr rfl
        · rintro (⟨i, h⟩ | rfl)
          · exact ⟨i, .inl h⟩
          · exact ⟨_, .inr ⟨rfl, _, rfl⟩⟩
      · intro k m hk hm; exact allocAt_freq hk hm
      · intro k hk; exact allocAt_old_freq hk
      · exact allocAt_reached hb hs he hn
      · intro i h
        rcases allocAt_childbare hs hn h with h | ⟨-, f, l, r, h⟩
        · exact h
        · cases h
  | cons c cs ih =>
    simp only [insertPath, he]
    cases hf : arenaFull b with
    | true =>
      right
      refine ⟨b, by simp, hb, Nat.le_refl _, ?_, ?_, fun q hq => .inl hq, ?_, id⟩
      · have := hb.cap
        simp only [arenaFull, decide_eq_true_eq] at hf
        exact Nat.le_antisymm this hf
      · simp only [arenaFull, decide_eq_true_eq] at hf
        simp; omega
      · exact fresh_nodeAt hs he _
    | false =>
      have hn : Childless (.internal none none none) := fun c => by cases c <;> rfl
      have hb1 : BuildOk (allocAt slot (.internal none none none) b) :=
        allocAt_buildOk hb hs he hn hf (by intro z f h; cases h)
      have hint : IsInternal (allocAt slot (.internal none none none) b).arena b.arena.length :=
        allocAt_isInternal.mpr (isInternal_snoc.mpr (.inr ⟨rfl, _, _, _, rfl⟩))
      have hnode := fun q k => allocAt_nodeAt (k := k) (q := q) hb hs he hn
      have hs1 : SlotAt (allocAt slot (.internal none none none) b) (p ++ [c]) (childSlot b.arena.length c) :=
        .inr ⟨p, c, _, rfl, rfl, (hnode p _).mpr (.inr ⟨rfl, rfl⟩), hint⟩
      have he1 : slotGet (allocAt slot (.internal none none none) b) (childSlot b.arena.length c) = none := by
        rw [slotGet_childSlot, allocAt_link hs hn, if_neg (fun h => absurd (slot_owner_lt hs h) (by omega))]
        rw [link, List.getElem?_eq_none (Nat.le_refl _)]
      have hleaf1 : ∀ i z, IsLeaf (allocAt slot (.internal none none none) b).arena i z ↔ IsLeaf b.arena i z := by
        intro i z
        rw [allocAt_isLeaf, isLeaf_snoc]
        simp
      have hy1 : ∀ i, ¬IsLeaf (allocAt slot (.internal none none none) b).arena i y := by
        intro i; rw [hleaf1]; exact hy i
      have hlen : (allocAt slot (.internal none none none) b).arena.length = b.arena.length + 1 := allocAt_length
      rcases ih hb1 hs1 he1 hy1 with ⟨b', hins, hpl, hbare⟩ | ⟨b', hins, hro⟩
      · left
        refine ⟨b', by simpa using hins, ⟨hpl.ok, ?_, ?_, ?_, ?_, ?_, ?_, ?_⟩, ?_⟩
        · have := hpl.size; simp at this ⊢; omega
        · intro d z
          rw [hpl.leaves, allocAt_leafFrom hb hs he hn]
          simp
        · intro q
          rw [hpl.nodes]
          simp only [Option.isSome_iff_exists, hnode, List.append_assoc, List.singleton_append]
          constructor
          · rintro (⟨k, hk | ⟨rfl, -⟩⟩ | hq)
            · exact .inl ⟨k, hk⟩
            · exact .inr (List.prefix_append _ _)
            · exact .inr hq
          · rintro (⟨k, hk⟩ | hq)
            · exact .inl ⟨k, .inl hk⟩
            · exact .inr hq
        · intro z; rw [hpl.symbols]; simp only [hleaf1]
        · intro k m hk hm
          by_cases hkk : b.arena.length + 1 ≤ k
          · exact hpl.freq k m (by omega) hm
          · have hk' : k = b.arena.length := by omega
            have h1 := hpl.oldFreq k (by omega)
            rw [hm] at h1
            have hlt : k < (allocAt slot (.internal none none none) b).arena.length := by omega
            rw [List.getElem?_eq_getElem hlt] at h1
            simp only [Option.map_some, Option.some.injEq] at h1
            rw [h1, allocAt_freq (by omega) (List.getElem?_eq_getElem hlt)]
            rfl
        · intro k hk; rw [hpl.oldFreq k (by omega), allocAt_old_freq hk]
        · exact fun h => hpl.reached (allocAt_reached hb hs he hn h)
        · intro i h
          obtain ⟨h1, h2⟩ := hbare i h
          rcases allocAt_childbare hs hn h1 with h | ⟨rfl, -⟩
          · exact h
          · exact absurd rfl (h2 c)
      · right
        refine ⟨b', by simpa using hins, hro.ok, ?_, hro.full, ?_, fun q hq => ?_, by simpa using hro.unplaced,
          fun h => hro.reached (allocAt_reached hb hs he hn h)⟩
        · have := hro.grows; omega
        · have := hro.short; simp at this ⊢; omega
        · rcases hro.nodes q hq with h | h
          · obtain ⟨k, hk⟩ := Option.isSome_iff_exists.mp h
            rcases (hnode q k).mp hk with hk | ⟨rfl, -⟩
            · exact .inl (by rw [hk]; rfl)
            · exact .inr (List.prefix_append _ _)
          · exact .inr (by simpa using h)

/-- A code that leaves the tree at an empty field is prefix-free with every code there (R170). -/
theorem fresh_prefixFree {b : Build} {p cs d : List Bool} {slot : Slot} {z : Sym} (hs : SlotAt b p slot)
    (he : slotGet b slot = none) (h : LeafFrom b d z) : PrefixFree (p ++ cs) d := by
  have hep : nodeAt b p = none := by simpa using fresh_nodeAt hs he []
  have hpd : ¬p <+: d := by
    rintro ⟨t, rfl⟩
    obtain ⟨k, hk, -⟩ := h
    obtain ⟨i, hi, -⟩ := nodeAt_append.mp hk
    rw [hep] at hi; cases hi
  refine ⟨fun hpre => hpd ((List.prefix_append p cs).trans hpre), fun hpre => ?_⟩
  rcases List.prefix_or_prefix_of_prefix hpre (List.prefix_append p cs) with hdp | hdp
  · rcases hs with ⟨rfl, -⟩ | ⟨q, c, i, rfl, -, hi, hint⟩
    · exact hpd ⟨d, rfl⟩
    · rcases List.prefix_concat_iff.mp hdp with rfl | ⟨t, rfl⟩
      · exact hpd (List.prefix_refl _)
      · obtain ⟨k, hk, hl⟩ := h
        obtain ⟨j, hj, hf⟩ := nodeAt_append.mp hi
        rw [hk] at hj; cases hj
        have ht := follow_leaf hl hf
        subst ht
        simp at hf
        subst hf
        exact hl.not_internal hint
  · exact hpd hdp

/-- A code that ends at a node of the tree collides (R170). -/
theorem taken_collides {b : Build} (hb : BuildOk b) (hc : ∀ i, ¬Childbare b.arena i) {p : List Bool} {k : Nat}
    (hk : nodeAt b p = some k) : ∃ d z, LeafFrom b d z ∧ ¬PrefixFree p d := by
  have hch : ∀ i, IsInternal b.arena i → ∃ c j, link b.arena i c = some j := by
    intro i hi
    by_contra hno
    refine hc i ⟨hi, fun c => ?_⟩
    cases hl : link b.arena i c with
    | none => rfl
    | some j => exact absurd ⟨c, j, hl⟩ hno
  obtain ⟨q, z, j, hj, hl⟩ := exists_leaf_below hb.arenaOk hch (hb.nodeAt_lt hk)
  exact ⟨p ++ q, z, ⟨j, nodeAt_append.mpr ⟨k, hk, hj⟩, hl⟩, fun h => h.1 (List.prefix_append p q)⟩

theorem length_filter_le_range (m k : Nat) (f : Nat → Bool) (h : ∀ n < m, f n = decide (k ≤ n)) :
    ((List.range m).filter f).length = m - k := by
  induction m with
  | zero => simp
  | succ m ih =>
    rw [List.range_succ, List.filter_append, List.length_append, ih (fun n hn => h n (by omega))]
    simp only [List.filter_cons, h m (by omega), List.filter_nil]
    by_cases hk : k ≤ m <;> simp [hk] <;> omega

/-- From an empty field on, every node of the path is missing. -/
theorem missingNodes_slot {b : Build} {p : List Bool} {slot : Slot} (hs : SlotAt b p slot) (he : slotGet b slot = none)
    (cs : List Bool) : missingNodes b.root b.arena (p ++ cs) = cs.length + 1 := by
  unfold missingNodes
  rw [length_filter_le_range _ p.length]
  · simp; omega
  · intro n hn
    change (nodeAt b ((p ++ cs).take n)).isNone = _
    by_cases h : p.length ≤ n
    · have : (p ++ cs).take n = p ++ cs.take (n - p.length) := by
        rw [List.take_append, List.take_of_length_le h]
      rw [this, fresh_nodeAt hs he]; simp [h]
    · have : (p ++ cs).take n = p.take n := List.take_append_of_le_length (by omega)
      rw [this]
      have hne : p.take n ≠ p := by
        intro he; have := congrArg List.length he; rw [List.length_take] at this; omega
      have := slotAt_path hs (List.take_prefix n p) hne
      rw [← Option.not_isSome, this]; simp [h]

/-- Path insertion (R169 to R172): it places the pair if its code is prefix-free with every code there and the arena
has room, collides exactly if it is not, and never meets a corrupt arena. -/
theorem insertPath_spec {y : Sym} {cs : List Bool} {p : List Bool} {slot : Slot} {b : Build} (hb : BuildOk b)
    (hc : ∀ i, ¬Childbare b.arena i) (hs : SlotAt b p slot) (hy : ∀ i, ¬IsLeaf b.arena i y) :
    ((∀ d z, LeafFrom b d z → PrefixFree (p ++ cs) d) ∧
      ((∃ b', insertPath y cs slot b = .done b' ∧
          Placed b b' (missingNodes b.root b.arena (p ++ cs)) (p ++ cs) y ∧ ∀ i, ¬Childbare b'.arena i) ∨
        ∃ b', insertPath y cs slot b = .raised b' .arenaFull ∧
          RanOut b b' (missingNodes b.root b.arena (p ++ cs)) (p ++ cs))) ∨
    ((∃ d z, LeafFrom b d z ∧ ¬PrefixFree (p ++ cs) d) ∧ insertPath y cs slot b = .raised b .collision) := by
  cases he : slotGet b slot with
  | none =>
    refine .inl ⟨fun d z h => fresh_prefixFree hs he h, ?_⟩
    rw [missingNodes_slot hs he]
    rcases insertPath_fresh (cs := cs) hb hs he hy with ⟨b', h1, h2, h3⟩ | ⟨b', h1, h2⟩
    · exact .inl ⟨b', h1, h2, fun i h => hc i (h3 i h).1⟩
    · exact .inr ⟨b', h1, h2⟩
  | some k =>
    have hk : nodeAt b p = some k := by rw [← slotGet_slotAt hs, he]
    have hlt := hb.nodeAt_lt hk
    induction cs generalizing p slot k with
    | nil =>
      refine .inr ⟨?_, by simp [insertPath, he]⟩
      simpa using taken_collides hb hc hk
    | cons c cs ih =>
      rcases leaf_or_internal hlt with ⟨z, f, hf⟩ | hint
      · refine .inr ⟨⟨p, z, ⟨k, hk, f, hf⟩, fun h => h.2 (List.prefix_append p _)⟩, ?_⟩
        simp [insertPath, he, hf]
      · have hs1 : SlotAt b (p ++ [c]) (childSlot k c) := .inr ⟨p, c, k, rfl, rfl, hk, hint⟩
        obtain ⟨f, l, r, hf⟩ := hint
        have hins : insertPath y (c :: cs) slot b = insertPath y cs (childSlot k c) b := by
          simp [insertPath, he, hf]
        rw [hins]
        have happ : p ++ c :: cs = p ++ [c] ++ cs := by simp
        rw [happ]
        cases he1 : slotGet b (childSlot k c) with
        | none =>
          refine .inl ⟨fun d z h => fresh_prefixFree hs1 he1 h, ?_⟩
          rw [missingNodes_slot hs1 he1]
          rcases insertPath_fresh (cs := cs) hb hs1 he1 hy with ⟨b', h1, h2, h3⟩ | ⟨b', h1, h2⟩
          · exact .inl ⟨b', h1, h2, fun i h => hc i (h3 i h).1⟩
          · exact .inr ⟨b', h1, h2⟩
        | some k1 =>
          have hk1 : nodeAt b (p ++ [c]) = some k1 := by rw [← slotGet_slotAt hs1, he1]
          exact ih hs1 k1 he1 hk1 (hb.nodeAt_lt hk1)

end Sys2Proof.Machine
end

