-- ==== Sys2Proof/Laws/Table.lean ====
section
/-! SUPPORT. The traversal of GEN_TABLE and the table it fills (spec/42_table.md R180 to R182). -/

namespace Sys2Proof.Machine

/-- `visit` from a node collects exactly the leaves below it, each with its path (R180, R181). -/
theorem visit_spec {a : List Node} (hr : ∀ i b c, link a i b = some c → c < a.length) {rank : Nat → Nat}
    (hk : ∀ i b c, link a i b = some c → rank c < rank i) {fuel i : Nat} (hi : i < a.length)
    (hf : rank i < fuel) (p : List Bool) :
    ∃ l, visit a fuel i p = some l ∧ ∀ y c, (y, c) ∈ l ↔ ∃ q, c = p ++ q ∧ LeafAt a i q y := by
  induction fuel generalizing i p with
  | zero => omega
  | succ fuel ih =>
    have child : ∀ (b : Bool) (o : Option Nat), link a i b = o →
        ∃ l, visitSide (fun c => visit a fuel c (p ++ [b])) o = some l ∧
          ∀ y c, (y, c) ∈ l ↔ ∃ q, c = p ++ b :: q ∧ LeafAt a i (b :: q) y := by
      rintro b (_ | d) ho
      · exact ⟨[], rfl, by simp [leafAt_cons, ho]⟩
      · obtain ⟨l, hl, hm⟩ := ih (hr _ _ _ ho) (by have := hk _ _ _ ho; omega) (p ++ [b])
        exact ⟨l, hl, by simp [hm, leafAt_cons, ho]⟩
    cases hn : a[i] with
    | leaf y f =>
      have hs : a[i]? = some (.leaf y f) := by rw [List.getElem?_eq_getElem hi, hn]
      refine ⟨[(y, p)], by simp [visit, hs], fun z c => ?_⟩
      constructor
      · simp only [List.mem_singleton, Prod.mk.injEq]
        rintro ⟨rfl, rfl⟩
        exact ⟨[], by simp, leafAt_nil.mpr ⟨f, hs⟩⟩
      · rintro ⟨q, rfl, j, hj, hl⟩
        have hq := follow_leaf ⟨f, hs⟩ hj
        subst hq
        simp at hj; subst hj
        simp [hl.unique ⟨f, hs⟩]
    | internal f l r =>
      have hs : a[i]? = some (.internal f l r) := by rw [List.getElem?_eq_getElem hi, hn]
      obtain ⟨m, hm, hm'⟩ := child false l (by simp [link, hs, Node.child, Node.left])
      obtain ⟨n, hn, hn'⟩ := child true r (by simp [link, hs, Node.child, Node.right])
      refine ⟨m ++ n, by simp [visit, hs, hm, hn], fun y c => ?_⟩
      rw [List.mem_append, hm', hn']
      constructor
      · rintro (⟨q, rfl, hq⟩ | ⟨q, rfl, hq⟩)
        · exact ⟨_, rfl, hq⟩
        · exact ⟨_, rfl, hq⟩
      · rintro ⟨q, rfl, hq⟩
        rcases q with _ | ⟨_ | _, q⟩
        · exact absurd ⟨f, l, r, hs⟩ (leafAt_nil.mp hq).not_internal
        · exact .inl ⟨q, rfl, hq⟩
        · exact .inr ⟨q, rfl, hq⟩

/-- The traversal from the root of an ordered arena collects exactly its leaves with their paths. -/
theorem visit_root_spec {a : List Node} (h : ArenaOk a) {r : Nat} (hr : r < a.length) :
    ∃ l, visit a a.length r [] = some l ∧ ∀ y c, (y, c) ∈ l ↔ LeafAt a r c y := by
  obtain ⟨rank, hk, hb⟩ := h.rank
  obtain ⟨l, hl, hm⟩ := visit_spec h.inRange hk hr (hb r hr) []
  exact ⟨l, hl, by simpa using hm⟩

theorem fillTable_nil (ct : Vector CtEntry 257) : fillTable ct [] = ct := rfl

theorem fillTable_cons (ct : Vector CtEntry 257) (e : Sym × List Bool) (l : List (Sym × List Bool)) :
    fillTable ct (e :: l) = fillTable (ct.set e.1.val ⟨true, e.2⟩) l := rfl

/-- A symbol that no entry names keeps its entry. -/
theorem fillTable_absent {l : List (Sym × List Bool)} {y : Sym} (h : ∀ c, (y, c) ∉ l) (ct : Vector CtEntry 257) :
    (fillTable ct l)[y.val] = ct[y.val] := by
  induction l generalizing ct with
  | nil => rfl
  | cons e l ih =>
    rw [fillTable_cons, ih (fun c hc => h c (List.mem_cons_of_mem _ hc)), Vector.getElem_set_ne]
    intro he
    exact h e.2 (by rw [show y = e.1 from Fin.ext he.symm]; exact List.mem_cons_self)

/-- A symbol with one code among the entries gets it. -/
theorem fillTable_present {l : List (Sym × List Bool)} {y : Sym} {c : List Bool} (h : (y, c) ∈ l)
    (hu : ∀ d, (y, d) ∈ l → d = c) (ct : Vector CtEntry 257) : (fillTable ct l)[y.val] = ⟨true, c⟩ := by
  induction l generalizing ct with
  | nil => simp at h
  | cons e l ih =>
    rw [fillTable_cons]
    by_cases hl : (y, c) ∈ l
    · exact ih hl (fun d hd => hu d (List.mem_cons_of_mem _ hd)) _
    · have he : e = (y, c) := by
        rcases List.mem_cons.mp h with rfl | h
        · rfl
        · exact absurd h hl
      subst he
      rw [fillTable_absent, Vector.getElem_set_self]
      intro d hd
      obtain rfl := hu d (List.mem_cons_of_mem _ hd)
      exact hl hd

@[simp] theorem clearValid_getElem (ct : Vector CtEntry 257) (i : Nat) (h : i < 257) :
    (clearValid ct)[i] = { ct[i] with valid := false } := by
  simp [clearValid]

/-- The table GEN_TABLE writes holds exactly the leaves of the tree (R180, R182 (a), (b)). -/
theorem fillTable_visit {a : List Node} (ha : ArenaOk a) {r : Nat} (ht : ∀ i b, link a i b ≠ some r)
    {l : List (Sym × List Bool)} (hl : ∀ y c, (y, c) ∈ l ↔ LeafAt a r c y) (ct : Vector CtEntry 257) (y : Sym)
    (code : List Bool) :
    ((fillTable (clearValid ct) l)[y.val].valid = true ∧ (fillTable (clearValid ct) l)[y.val].code = code) ↔
      LeafAt a r code y := by
  by_cases h : ∃ c, LeafAt a r c y
  · obtain ⟨c, hc⟩ := h
    rw [fillTable_present ((hl y c).mpr hc) (fun d hd => ((hl y d).mp hd).unique ha ht hc)]
    simp only [true_and]
    exact ⟨fun h => h ▸ hc, fun h => hc.unique ha ht h⟩
  · have h' : ∀ c, ¬LeafAt a r c y := by simpa using h
    rw [fillTable_absent (fun c hc => h' c ((hl y c).mp hc))]
    simp [h']

end Sys2Proof.Machine
end

