-- ==== Sys2Proof/Laws/Invariant.lean ====
section
/-! SUPPORT. What keeps the invariant of every run: frames, and one lemma per command. -/

namespace Sys2Proof.Machine

/-! ### Frames of the invariant -/

/-- A state that differs in no part the invariant reads but the phase. -/
structure SameTree (s t : State) : Prop where
  arena : t.arena = s.arena
  root : t.root = s.root
  treeValid : t.treeValid = s.treeValid
  treeMode : t.treeMode = s.treeMode
  ctValid : t.ctValid = s.ctValid
  ct : t.ct = s.ct
  marker : t.marker = s.marker

theorem SameTree.ctEntry {s t : State} (h : SameTree s t) (y : Sym) :
    Sys2Proof.Machine.ctEntry t y = Sys2Proof.Machine.ctEntry s y := by
  simp only [Sys2Proof.Machine.ctEntry, h.ct]

theorem SameTree.phaseOk {s t : State} (h : SameTree s t) (ph : Phase) : PhaseOk t ph ↔ PhaseOk s ph := by
  cases ph <;> simp only [PhaseOk, h.arena, h.root, h.treeValid, h.ctValid, h.ctEntry, emitText, h.marker]

/-- A step that changes no part of the tree keeps the invariant, if its phase is right. -/
theorem Inv.frame {s t : State} (h : Inv s) (e : SameTree s t) (hp : PhaseOk s t.phase)
    (hr : (∃ k, s.phase = .hdr k) → (∀ k, t.phase ≠ .hdr k) → t.root = none) : Inv t where
  arena := e.arena ▸ h.arena
  tree := by rw [e.treeValid, e.root, e.arena]; exact h.tree
  freqTree := by rw [e.treeValid, e.root, e.arena, e.treeMode]; exact h.freqTree
  noRoot := by
    intro hv hph
    by_cases hs : ∃ k, s.phase = .hdr k
    · exact hr hs hph
    · rw [e.root]; exact h.noRoot (e.treeValid ▸ hv) (fun k hk => hs ⟨k, hk⟩)
  tableNeedsTree := by rw [e.treeValid, e.ctValid]; exact h.tableNeedsTree
  entryNeedsTable y := by rw [e.ctEntry, e.ctValid]; exact h.entryNeedsTable y
  tableOfTree := by
    simp only [e.ctEntry, e.root, e.arena, e.ctValid]; exact h.tableOfTree
  phase := (e.phaseOk _).mpr hp
  marker := e.marker ▸ h.marker

/-- A state with no table and whatever tree. -/
theorem Inv.mkDropped {t : State} (ha : ArenaOk t.arena) (hc : t.ctValid = false)
    (he : ∀ y, (ctEntry t y).valid = false) (ht : t.treeValid = true → ∃ r, t.root = some r ∧ RootOk t.arena r)
    (hf : t.treeValid = true → t.treeMode = false → ∃ r, t.root = some r ∧ FreqTreeOk t.arena r)
    (hn : t.treeValid = false → (∀ h, t.phase ≠ .hdr h) → t.root = none) (hp : PhaseOk t t.phase)
    (hm : Wf.marker t.marker = true) : Inv t where
  arena := ha
  tree := ht
  freqTree := hf
  noRoot := hn
  tableNeedsTree h := by simp [hc] at h
  entryNeedsTable y h := by simp [he] at h
  tableOfTree h := by simp [hc] at h
  phase := hp
  marker := hm

theorem arenaOk_nil : ArenaOk [] where
  cap := by simp
  inRange i b c h := by simp [link] at h
  ordered := .inl fun i b c h => by simp [link] at h
  oneParent i b j b' c h := by simp [link] at h
  leafOnce i j y h := by obtain ⟨f, hf⟩ := h; simp at hf

@[simp] theorem ctEntry_dropTable (s : State) (y : Sym) : (ctEntry (dropTable s) y).valid = false := by
  simp [ctEntry]

@[simp] theorem ctEntry_dropTree (s : State) (y : Sym) : (ctEntry (dropTree s) y).valid = false := by
  simp [ctEntry]

/-! ### The commands of one step -/

theorem inv_nop {s t : State} (h : Inv s) (he : execNop s = .next t) (hph : s.phase = .start .nop) : Inv t := by
  cases he
  exact h.frame ⟨rfl, rfl, rfl, rfl, rfl, rfl, rfl⟩ trivial (by simp [hph])

theorem inv_clrFreq {s t : State} (h : Inv s) (he : execClrFreq s = .next t) (hph : s.phase = .start .clrFreq) :
    Inv t := by
  cases he
  exact h.frame ⟨rfl, rfl, rfl, rfl, rfl, rfl, rfl⟩ trivial (by simp [hph])

theorem inv_discard {s t : State} (h : Inv s) (he : execDiscard s = .next t) : Inv t := by
  cases he
  refine Inv.mkDropped arenaOk_nil rfl (fun y => ?_) (by simp) (by simp)
    (by simp) trivial h.marker
  exact ctEntry_dropTree s y

theorem inv_buildFreq {s t : State} (h : Inv s) (he : execBuildFreq s = .next t) (hph : s.phase = .start .buildFreq) :
    Inv t := by
  unfold execBuildFreq at he
  split at he
  · cases he
    exact h.frame ⟨rfl, rfl, rfl, rfl, rfl, rfl, rfl⟩ trivial (by simp [hph])
  · cases he
    have hroot : (mergeAll s.freq).2.head? = some (2 * leafCount s.freq - 2) := by
      rw [(mergeAll_spec s.freq).2]; rfl
    exact Inv.mkDropped (mergeAll_arenaOk s.freq) rfl (fun y => ctEntry_dropTree s y)
      (fun _ => ⟨_, hroot, mergeAll_rootOk s.freq⟩) (fun _ _ => ⟨_, hroot, mergeAll_freqTreeOk s.freq⟩)
      (fun h => by cases h) trivial h.marker

theorem inv_genTable {s t : State} (h : Inv s) (he : execGenTable s = .next t) (hph : s.phase = .start .genTable) :
    Inv t := by
  unfold execGenTable at he
  split at he
  · cases he
    exact h.frame ⟨rfl, rfl, rfl, rfl, rfl, rfl, rfl⟩ trivial (by simp [hph])
  · rename_i hv
    have hv : s.treeValid = true := by simpa using hv
    obtain ⟨r, hr, hok⟩ := h.tree hv
    obtain ⟨l, hl, hm⟩ := visit_root_spec h.arena hok.allocated
    have hvr : visitRoot s = some l := by simp only [visitRoot, hr, hl]
    rw [hvr] at he
    cases he
    refine ⟨h.arena, h.tree, h.freqTree, fun h' => ?_, fun _ => hv, fun _ _ => rfl, fun _ r' hr' y code => ?_,
      trivial, h.marker⟩
    · simp [hv] at h'
    · have : r' = r := by rw [show s.root = some r' from hr'] at hr; cases hr; rfl
      subst this
      exact fillTable_visit h.arena hok.top hm s.ct y code

/-! ### COMPRESS -/

theorem phase_compNext {s : State} {y : Sym} {i : Nat} (hv : s.ctValid = true)
    (heof : (ctEntry s Config.eofSym).valid = true) (hy : (ctEntry s y).valid = true) : PhaseOk s (compNext s y i) := by
  unfold compNext
  split
  · exact ⟨hv, heof, hy, ‹_›⟩
  · split
    · exact hv
    · exact ⟨hv, heof⟩

theorem inv_compress {s t : State} (h : Inv s) (he : execCompress s = .next t)
    (hph : s.phase.command = some .compress) : Inv t := by
  have hnh : ∀ k, s.phase ≠ .hdr k := by rintro k hk; simp [hk, Phase.command] at hph
  have nohdr : (∃ k, s.phase = .hdr k) → (∀ k, t.phase ≠ .hdr k) → t.root = none := fun ⟨k, hk⟩ => absurd hk (hnh k)
  have hp := h.phase
  unfold execCompress at he
  split at he
  · rename_i hs
    rw [hs] at hp
    unfold compressTake at he
    split at he
    · cases he; exact h
    · split at he
      · cases he
        exact h.frame ⟨rfl, rfl, rfl, rfl, rfl, rfl, rfl⟩ (phase_compNext hp.1 hp.2 hp.2) nohdr
      · split at he
        · cases he
          exact h.frame ⟨rfl, rfl, rfl, rfl, rfl, rfl, rfl⟩ trivial nohdr
        · rename_i hv
          cases he
          refine h.frame ⟨rfl, rfl, rfl, rfl, rfl, rfl, rfl⟩ (phase_compNext hp.1 hp.2 ?_) nohdr
          simpa using hv
  · rename_i y i hs
    rw [hs] at hp
    unfold compressPut at he
    split at he
    · cases he
    · split at he
      · cases he
        exact h.frame ⟨rfl, rfl, rfl, rfl, rfl, rfl, rfl⟩ (phase_compNext hp.1 hp.2.1 hp.2.2.1) nohdr
      · cases he; exact h
  · unfold compressClose at he
    split at he
    · cases he; exact h.frame ⟨rfl, rfl, rfl, rfl, rfl, rfl, rfl⟩ trivial nohdr
    · cases he; exact h
  · unfold compressStart at he
    split at he
    · cases he; exact h.frame ⟨rfl, rfl, rfl, rfl, rfl, rfl, rfl⟩ trivial nohdr
    · split at he
      · cases he; exact h.frame ⟨rfl, rfl, rfl, rfl, rfl, rfl, rfl⟩ trivial nohdr
      · split at he
        · cases he; exact h.frame ⟨rfl, rfl, rfl, rfl, rfl, rfl, rfl⟩ trivial nohdr
        · rename_i hv heof
          cases he
          exact h.frame ⟨rfl, rfl, rfl, rfl, rfl, rfl, rfl⟩ ⟨by simpa using hv, by simpa using heof⟩ nohdr

/-! ### DECOMPRESS -/

theorem decompressStart_root {s : State} (h : Inv s) (hv : s.treeValid = true) :
    ∃ r n, s.root = some r ∧ s.arena[r]? = some n ∧ RootOk s.arena r := by
  obtain ⟨r, hr, hok⟩ := h.tree hv
  exact ⟨r, _, hr, List.getElem?_eq_getElem hok.allocated, hok⟩

theorem internal_of_not_degenerate {a : List Node} {r : Nat} {n : Node} (hn : a[r]? = some n)
    (hd : n.degenerate = false) : IsInternal a r := by
  cases n with
  | leaf y f => simp [Node.degenerate, Node.kind] at hd
  | internal f l r' => exact ⟨f, l, r', hn⟩

theorem inv_decompress {s t : State} (h : Inv s) (he : execDecompress s = .next t)
    (hph : s.phase.command = some .decompress) : Inv t := by
  have hnh : ∀ k, s.phase ≠ .hdr k := by rintro k hk; simp [hk, Phase.command] at hph
  have nohdr : (∃ k, s.phase = .hdr k) → (∀ k, t.phase ≠ .hdr k) → t.root = none := fun ⟨k, hk⟩ => absurd hk (hnh k)
  have hp := h.phase
  unfold execDecompress at he
  split at he
  · rename_i r p hs
    rw [hs] at hp
    obtain ⟨hv, hr, ⟨n, hn, hd⟩, hint⟩ := hp
    unfold decGeneralStep at he
    split at he
    · cases he; exact h
    · split at he
      · cases he; exact h.frame ⟨rfl, rfl, rfl, rfl, rfl, rfl, rfl⟩ hv nohdr
      · split at he
        · cases he
        · split at he
          · cases he; exact h.frame ⟨rfl, rfl, rfl, rfl, rfl, rfl, rfl⟩ trivial nohdr
          · split at he
            · cases he
            · rename_i hc; cases he
              exact h.frame ⟨rfl, rfl, rfl, rfl, rfl, rfl, rfl⟩ ⟨hv, hr, ⟨n, hn, hd⟩, _, _, _, hc⟩ nohdr
            · split at he
              · cases he; exact h.frame ⟨rfl, rfl, rfl, rfl, rfl, rfl, rfl⟩ hv nohdr
              · split at he
                · cases he
                  exact h.frame ⟨rfl, rfl, rfl, rfl, rfl, rfl, rfl⟩ ⟨hv, hr, ⟨n, hn, hd⟩, internal_of_not_degenerate hn hd⟩ nohdr
                · cases he; exact h
  · rename_i r hs
    rw [hs] at hp
    unfold decDegenerateStep at he
    split at he
    · cases he; exact h
    · split at he
      · cases he; exact h.frame ⟨rfl, rfl, rfl, rfl, rfl, rfl, rfl⟩ hp.1 nohdr
      · split at he
        · cases he
        · cases he; exact h.frame ⟨rfl, rfl, rfl, rfl, rfl, rfl, rfl⟩ trivial nohdr
        · split at he
          · cases he; exact h.frame ⟨rfl, rfl, rfl, rfl, rfl, rfl, rfl⟩ hp.1 nohdr
          · split at he
            · cases he
              refine h.frame ⟨rfl, rfl, rfl, rfl, rfl, rfl, rfl⟩ ?_ nohdr
              rw [putData_phase, show ∀ l, (takeBit l s).phase = s.phase from fun _ => rfl, hs]
              exact hp
            · cases he; exact h
  · rename_i hs
    rw [hs] at hp
    unfold decStopStep at he
    split at he
    · cases he; exact h.frame ⟨rfl, rfl, rfl, rfl, rfl, rfl, rfl⟩ trivial nohdr
    · cases he; exact h
  · unfold decompressStart at he
    split at he
    · cases he; exact h.frame ⟨rfl, rfl, rfl, rfl, rfl, rfl, rfl⟩ trivial nohdr
    · split at he
      · cases he; exact h.frame ⟨rfl, rfl, rfl, rfl, rfl, rfl, rfl⟩ trivial nohdr
      · rename_i hv
        have hv : s.treeValid = true := by simpa using hv
        split at he
        · cases he
        · rename_i r hr
          split at he
          · cases he
          · rename_i n hn
            cases he
            refine h.frame ⟨rfl, rfl, rfl, rfl, rfl, rfl, rfl⟩ ?_ nohdr
            by_cases hd : n.degenerate = true
            · simp only [hd, if_true]; exact ⟨hv, hr, n, hn, hd⟩
            · simp only [hd]
              have hd : n.degenerate = false := by simpa using hd
              exact ⟨hv, hr, ⟨n, hn, hd⟩, internal_of_not_degenerate hn hd⟩

/-! ### EMIT_HDR -/

theorem pairText_ne_nil (m : List Byte) (y : Sym) (c : List Bool) : 0 < (pairText m y c).length := by
  simp [pairText]

theorem phase_emitFrom {s : State} {k : Nat} (hv : s.ctValid = true) : PhaseOk s (emitFrom s k) := by
  unfold emitFrom
  split
  · rename_i y hf
    have := List.find?_some hf
    simp only [Bool.and_eq_true] at this
    exact ⟨hv, this.2, pairText_ne_nil _ _ _⟩
  · exact hv

theorem inv_emitHdr {s t : State} (h : Inv s) (he : execEmitHdr s = .next t)
    (hph : s.phase.command = some .emitHdr) : Inv t := by
  have hnh : ∀ k, s.phase ≠ .hdr k := by rintro k hk; simp [hk, Phase.command] at hph
  have nohdr : (∃ k, s.phase = .hdr k) → (∀ k, t.phase ≠ .hdr k) → t.root = none := fun ⟨k, hk⟩ => absurd hk (hnh k)
  have hp := h.phase
  unfold execEmitHdr at he
  split at he
  · rename_i y pos hs
    rw [hs] at hp
    unfold emitByte at he
    split at he
    · cases he
    · split at he
      · cases he
        refine h.frame ⟨rfl, rfl, rfl, rfl, rfl, rfl, rfl⟩ ?_ nohdr
        by_cases hl : pos + 1 < (emitText s y).length
        · simp only [hl, if_true]
          exact ⟨hp.1, hp.2.1, hl⟩
        · simp only [hl, if_false]
          exact phase_emitFrom hp.1
      · cases he; exact h
  · unfold emitEnd at he
    split at he
    · cases he; exact h.frame ⟨rfl, rfl, rfl, rfl, rfl, rfl, rfl⟩ trivial nohdr
    · cases he; exact h
  · unfold emitStart at he
    split at he
    · cases he; exact h.frame ⟨rfl, rfl, rfl, rfl, rfl, rfl, rfl⟩ trivial nohdr
    · split at he
      · cases he; exact h.frame ⟨rfl, rfl, rfl, rfl, rfl, rfl, rfl⟩ trivial nohdr
      · rename_i hv
        cases he
        exact h.frame ⟨rfl, rfl, rfl, rfl, rfl, rfl, rfl⟩ (phase_emitFrom (by simpa using hv)) nohdr

/-! ### BUILD_HDR -/

/-- The working state of BUILD_HDR and the tree it builds, together (R64, R169). -/
structure HdrInv (h : HdrState) (b : Build) : Prop where
  build : BuildOk b
  bare : ∀ i, ¬Childbare b.arena i
  depth : ∀ p, (nodeAt b p).isSome → p.length ≤ Config.maxCodeLen
  lineFits : h.lb.length ≤ Config.lineMax
  present : ∀ y : Sym, h.present[y.val] = true ↔ ∃ i, IsLeaf b.arena i y
  pending : h.ln.getLsbD 0 = true → h.present[h.pk.val] = false

theorem child_of_not_bare {a : List Node} (h : ∀ i, ¬Childbare a i) {i : Nat} (hi : IsInternal a i) :
    ∃ c j, link a i c = some j := by
  by_contra hno
  refine h i ⟨hi, fun c => ?_⟩
  cases hl : link a i c with
  | none => rfl
  | some j => exact absurd ⟨c, j, hl⟩ hno

theorem HdrOk.hdrInv {h : HdrState} {b : Build} (ha : ArenaOk b.arena) (hh : HdrOk h b.arena b.root) : HdrInv h b where
  build := ⟨ha.cap, ha.inRange, hh.upward, ha.oneParent, ha.leafOnce, fun r hr => (hh.rootOk r hr).allocated,
    fun r i c hr => (hh.rootOk r hr).top i c⟩
  bare i hb := by
    obtain ⟨c, j, hl⟩ := hh.oneChild i hb.1
    rw [hb.2] at hl; cases hl
  depth p hp := by
    obtain ⟨k, hk⟩ := Option.isSome_iff_exists.mp hp
    unfold nodeAt at hk
    cases hr : b.root with
    | none => simp [hr] at hk
    | some r => simp [hr] at hk; exact (hh.rootOk r hr).depth p k hk
  lineFits := hh.lineFits
  present := hh.present
  pending := hh.pending

theorem HdrInv.rootOk {h : HdrState} {b : Build} (hh : HdrInv h b) {r : Nat} (hr : b.root = some r) :
    RootOk b.arena r where
  allocated := hh.build.rootLt r hr
  top i c := hh.build.top r i c hr
  oneChild _ hi := child_of_not_bare hh.bare hi
  depth p j hj := hh.depth p (by simp [nodeAt, hr, hj])

theorem HdrInv.hdrOk {h : HdrState} {b : Build} (hh : HdrInv h b) : HdrOk h b.arena b.root where
  upward := hh.build.upward
  oneChild _ hi := child_of_not_bare hh.bare hi
  rootOk _ hr := hh.rootOk hr
  lineFits := hh.lineFits
  present := hh.present
  pending := hh.pending

theorem HdrInv.cleared (b : Build) (ha : b.arena = []) (hr : b.root = none) : HdrInv HdrState.cleared b where
  build := by
    refine ⟨?_, ?_, ?_, ?_, ?_, ?_, ?_⟩ <;> simp [ha, hr, link, IsLeaf]
  bare i h := by obtain ⟨f, l, r, h⟩ := h.1; simp [ha] at h
  depth p h := by simp [nodeAt, hr] at h
  lineFits := by simp [HdrState.cleared]
  present y := by simp [HdrState.cleared, ha, IsLeaf]
  pending h := by simp [HdrState.cleared] at h

theorem HdrInv.append {h : HdrState} {b : Build} (hh : HdrInv h b) (c : Byte) : HdrInv (h.append c) b where
  build := hh.build
  bare := hh.bare
  depth := hh.depth
  lineFits := by
    have := hh.lineFits
    simp only [HdrState.append]
    split
    · exact this
    · simp; omega
  present := hh.present
  pending := hh.pending

theorem parity_flips (n : Word) : (n + 1).getLsbD 0 = !n.getLsbD 0 := by
  simp only [BitVec.getLsbD, BitVec.toNat_add, Nat.testBit_zero]
  have : n.toNat % 2 = 0 ∨ n.toNat % 2 = 1 := by omega
  rcases this with h | h <;> simp [h] <;> omega

theorem HdrInv.placed {h : HdrState} {b b' : Build} {code : List Bool} (hh : HdrInv h b)
    {n : Nat} (hp : Placed b b' n code h.pk) (hbare : ∀ i, ¬Childbare b'.arena i) (hl : code.length ≤ Config.maxCodeLen)
    (hln : h.ln.getLsbD 0 = false) : HdrInv { h with present := h.present.set h.pk.val true } b' where
  build := hp.ok
  bare := hbare
  depth p hn := by
    rcases (hp.nodes p).mp hn with h | h
    · exact hh.depth p h
    · exact h.length_le.trans hl
  lineFits := hh.lineFits
  present y := by
    rw [hp.symbols, ← hh.present y]
    by_cases hy : h.pk = y
    · subst hy; simp
    · rw [Vector.getElem_set_ne _ _ (by simpa [Fin.ext_iff] using hy)]
      simp [Ne.symm hy]
  pending hodd := by rw [show h.ln.getLsbD 0 = true from hodd] at hln; cases hln

/-- What ending a line comes to (R161 to R172). -/
theorem endLine_spec {marker : List Byte} {h : HdrState} {b : Build} (hh : HdrInv h b) :
    (∃ h' b', endLine marker h b = .ok h' b' ∧ HdrInv h' b' ∧ b.arena.length ≤ b'.arena.length) ∨
    (∃ b' sub, endLine marker h b = .raised b' sub ∧ ArenaOk b'.arena ∧ b.arena.length ≤ b'.arena.length) := by
  unfold endLine
  by_cases hodd : (h.ln + 1).getLsbD 0 = true
  · simp only [hodd, if_true]
    unfold keyLine
    dsimp only
    cases keySym marker h.lb h.ovf with
    | none => exact .inr ⟨b, _, rfl, hh.build.arenaOk, Nat.le_refl _⟩
    | some y =>
      dsimp only
      cases hp : h.present[y.val] with
      | true => exact .inr ⟨b, _, rfl, hh.build.arenaOk, Nat.le_refl _⟩
      | false =>
        exact .inl ⟨_, b, rfl, ⟨hh.build, hh.bare, hh.depth, Nat.zero_le _, hh.present, fun _ => hp⟩, Nat.le_refl _⟩
  · have heven : (h.ln + 1).getLsbD 0 = false := by simpa using hodd
    have hwas : h.ln.getLsbD 0 = true := by rw [parity_flips] at heven; simpa using heven
    simp only [heven]
    unfold codeLine
    dsimp only
    cases h.bad with
    | true => exact .inr ⟨b, _, rfl, hh.build.arenaOk, Nat.le_refl _⟩
    | false =>
      cases h.ovf with
      | true => exact .inr ⟨b, _, rfl, hh.build.arenaOk, Nat.le_refl _⟩
      | false =>
        have hy : ∀ i, ¬IsLeaf b.arena i h.pk := by
          intro i hi
          have := (hh.present h.pk).mpr ⟨i, hi⟩
          rw [hh.pending hwas] at this; cases this
        rcases insertPath_spec (cs := codeBits h.lb) hh.build hh.bare (.inl ⟨rfl, rfl⟩) hy with
          ⟨-, ⟨b', hi, hp, hb⟩ | ⟨b', hi, hr⟩⟩ | ⟨-, hi⟩
        · refine .inl ⟨_, b', by simp [hi]; rfl, ?_, by rw [hp.size]; omega⟩
          have h1 : HdrInv { h with ln := h.ln + 1 } b :=
            ⟨hh.build, hh.bare, hh.depth, hh.lineFits, hh.present, fun hc => by rw [show (h.ln + 1).getLsbD 0 = true from hc] at heven; cases heven⟩
          have h2 := h1.placed hp hb (by simpa [codeBits] using hh.lineFits) heven
          exact ⟨h2.build, h2.bare, h2.depth, Nat.zero_le _, h2.present, h2.pending⟩
        · exact .inr ⟨b', .arenaFull, by simp [hi], hr.ok.arenaOk, hr.grows⟩
        · exact .inr ⟨b, .collision, by simp [hi], hh.build.arenaOk, Nat.le_refl _⟩

theorem Inv.noEntries {s : State} (h : Inv s) (hc : s.ctValid = false) (y : Sym) : (ctEntry s y).valid = false := by
  cases hv : (ctEntry s y).valid with
  | false => rfl
  | true => rw [h.entryNeedsTable y hv] at hc; cases hc

theorem inv_hdrFault {s : State} {sub : SubCause} {ln : Word} {b : Build} (hv : s.treeValid = false)
    (hc : s.ctValid = false) (he : ∀ y, (ctEntry s y).valid = false) (hm : Wf.marker s.marker = true)
    (hb : ArenaOk b.arena) : Inv (hdrFault sub ln b s) := by
  refine Inv.mkDropped hb hc he (fun h => ?_) (fun h => ?_) (fun _ _ => rfl) trivial hm
  · rw [show (hdrFault sub ln b s).treeValid = s.treeValid from rfl, hv] at h; cases h
  · rw [show (hdrFault sub ln b s).treeValid = s.treeValid from rfl, hv] at h; cases h

theorem inv_buildHdr {s t : State} (h : Inv s) (he : execBuildHdr s = .next t)
    (_ : s.phase.command = some .buildHdr) : Inv t := by
  have hp := h.phase
  unfold execBuildHdr at he
  split at he
  · rename_i k hs
    rw [hs] at hp
    obtain ⟨hv, hc, hok⟩ := hp
    have hno := h.noEntries hc
    have hh : HdrInv k (buildOf s) := HdrOk.hdrInv h.arena hok
    unfold hdrLoop at he
    split at he
    · cases he; exact h
    · rename_i tok rest hsrc
      split at he
      · unfold hdrEnd at he
        have key : (∃ h' b', (if k.lb.isEmpty then LineDone.ok k (buildOf s) else endLine s.marker k (buildOf s)) = .ok h' b' ∧ HdrInv h' b') ∨
            (∃ b' sub, (if k.lb.isEmpty then LineDone.ok k (buildOf s) else endLine s.marker k (buildOf s)) = .raised b' sub ∧ ArenaOk b'.arena) := by
          split
          · exact .inl ⟨_, _, rfl, hh⟩
          · rcases endLine_spec (marker := s.marker) hh with ⟨h', b', h1, h2, -⟩ | ⟨b', sub, h1, h2, -⟩
            · exact .inl ⟨h', b', h1, h2⟩
            · exact .inr ⟨b', sub, h1, h2⟩
        rw [show (takeToken rest s).marker = s.marker from rfl, show buildOf (takeToken rest s) = buildOf s from rfl] at he
        rcases key with ⟨h', b', h1, h2⟩ | ⟨b', sub, h1, h2⟩
        · rw [h1] at he
          dsimp only at he
          split at he
          · cases he; exact inv_hdrFault hv hc hno h.marker h2.build.arenaOk
          · cases he
            refine Inv.mkDropped h2.build.arenaOk hc hno (fun hr => ?_) (fun _ hm => by cases hm) (fun hr _ => ?_)
              trivial h.marker
            · obtain ⟨r, hr⟩ := Option.isSome_iff_exists.mp hr
              exact ⟨r, hr, h2.rootOk hr⟩
            · exact Option.isNone_iff_eq_none.mp (by rw [← Option.not_isSome]; simpa using hr)
        · rw [h1] at he
          cases he; exact inv_hdrFault hv hc hno h.marker h2
      · unfold hdrByte at he
        split at he
        · rw [show (countIn (takeToken rest s)).marker = s.marker from rfl,
            show buildOf (countIn (takeToken rest s)) = buildOf s from rfl] at he
          rcases endLine_spec (marker := s.marker) hh with ⟨h', b', h1, h2, -⟩ | ⟨b', sub, h1, h2, -⟩
          · rw [h1] at he
            cases he
            refine Inv.mkDropped h2.build.arenaOk hc hno (fun hr => ?_) (fun hr => ?_) (fun _ hr => absurd rfl (hr h'))
              ⟨hv, hc, h2.hdrOk⟩ h.marker
            · exact absurd (hr.symm.trans hv) (by simp)
            · exact absurd (hr.symm.trans hv) (by simp)
          · rw [h1] at he
            cases he; exact inv_hdrFault hv hc hno h.marker h2
        · cases he
          refine Inv.frame h ⟨rfl, rfl, rfl, rfl, rfl, rfl, rfl⟩ ⟨hv, hc, ?_⟩ (fun _ hr => absurd rfl (hr _))
          exact (hh.append tok.data).hdrOk
  · rename_i hs
    unfold hdrStart at he
    split at he
    · cases he
      exact h.frame ⟨rfl, rfl, rfl, rfl, rfl, rfl, rfl⟩ trivial (fun ⟨k, hk⟩ => absurd hk (hs k))
    · cases he
      refine Inv.mkDropped arenaOk_nil rfl (fun y => ctEntry_dropTree s y) (fun h => by cases h) (fun h => by cases h)
        (fun _ hr => absurd rfl (hr _)) ⟨rfl, rfl, (HdrInv.cleared ⟨none, []⟩ rfl rfl).hdrOk⟩ h.marker

end Sys2Proof.Machine
end

