-- ==== Sys2Proof/Laws/Runs.lean ====
section
/-! SUPPORT. Runs of the engine left alone: how they compose, and the loops of COMPRESS, EMIT_HDR and DECOMPRESS
(spec/43_compress.md R195, spec/42_table.md R183, spec/44_decompress.md R213). -/

namespace Sys2Proof.Machine

/-! ### Composing runs of the engine -/

theorem engineRun_add (a b : Nat) (s : State) : engineRun (a + b) s =
    match engineRun a s with
    | .next t => engineRun b t
    | .fault r => .fault r
    | .refused r => .refused r := by
  induction a generalizing s with
  | zero => simp [engineRun]
  | succ a ih =>
    rw [Nat.succ_add]
    simp only [engineRun]
    cases engineStep s <;> simp [ih]

theorem Leads.refl (s : State) : Leads s s := ⟨0, rfl⟩

theorem Leads.trans {s t u : State} (h : Leads s t) (h' : Leads t u) : Leads s u := by
  obtain ⟨a, ha⟩ := h
  obtain ⟨b, hb⟩ := h'
  exact ⟨a + b, by rw [engineRun_add, ha]; exact hb⟩

theorem Leads.one {s t : State} {i : Instr} (hp : s.phase.command = some i) (h : exec i s = .next t) : Leads s t :=
  ⟨1, by simp [engineRun, engineStep, hp, h]⟩

theorem Leads.head {s t u : State} {i : Instr} (hp : s.phase.command = some i) (h : exec i s = .next t)
    (h' : Leads t u) : Leads s u := (Leads.one hp h).trans h'

theorem add_ofNat_succ (w : Word) (n : Nat) : w + 1 + BitVec.ofNat 32 n = w + BitVec.ofNat 32 (n + 1) := by
  rw [BitVec.add_assoc]; congr 1
  apply BitVec.eq_of_toNat_eq; simp [Nat.add_comm]

theorem add_ofNat_add (w : Word) (m n : Nat) : w + BitVec.ofNat 32 m + BitVec.ofNat 32 n = w + BitVec.ofNat 32 (m + n) := by
  rw [BitVec.add_assoc]; congr 1
  apply BitVec.eq_of_toNat_eq; simp

/-- A state with its streams, counters and phase replaced. -/
def State.stream (s : State) (src : List SrcToken) (snk : List SnkToken) (ic oc : Word) (ph : Phase) : State :=
  { s with src := src, snk := snk, inCount := ic, outCount := oc, phase := ph }

@[simp] theorem ctEntry_stream (s : State) (src snk ic oc ph) (y : Sym) : ctEntry (s.stream src snk ic oc ph) y = ctEntry s y := rfl
@[simp] theorem compNext_stream (s : State) (src snk ic oc ph) (y : Sym) (i : Nat) : compNext (s.stream src snk ic oc ph) y i = compNext s y i := rfl

variable {s : State}

def bitTok (b : Bool) : SnkToken := SnkToken.d (bitData b)

/-- COMPRESS puts the rest of a code (R195). -/
theorem compress_code (hr : s.snkReady = true) (src : List SrcToken) (snk : List SnkToken) (ic oc : Word) (y : Sym) (i : Nat) :
    Leads (s.stream src snk ic oc (compNext s y i))
      (s.stream src (snk ++ ((ctEntry s y).code.drop i).map bitTok) ic (oc + BitVec.ofNat 32 ((ctEntry s y).code.drop i).length)
        (if y = Config.eofSym then .compClose else .compTake)) := by
  by_cases hi : i < (ctEntry s y).code.length
  · have ih := compress_code hr src (snk ++ [bitTok (ctEntry s y).code[i]]) ic (oc + 1) y (i + 1)
    refine Leads.head (i := .compress) (t := s.stream src (snk ++ [bitTok (ctEntry s y).code[i]]) ic (oc + 1) (compNext s y (i + 1))) ?_ ?_ ?_
    · simp [State.stream, compNext, hi, Phase.command]
    · have hp : (s.stream src snk ic oc (compNext s y i)).phase = .compPut y i := by simp [State.stream, compNext, hi]
      simp only [exec, execCompress, hp, compressPut, ctEntry_stream, List.getElem?_eq_getElem hi]
      rw [if_pos (show (s.stream src snk ic oc (compNext s y i)).snkReady = true from hr)]
      rfl
    · rw [List.drop_eq_getElem_cons hi, List.map_cons, List.length_cons, ← add_ofNat_succ, List.append_cons snk _ (List.map _ _)]
      exact ih
  · rw [List.drop_eq_nil_of_le (by omega)]
    simp only [List.map_nil, List.append_nil, List.length_nil]
    have : compNext s y i = (if y = Config.eofSym then .compClose else .compTake) := by simp [compNext, hi]
    rw [this]
    have h0 : oc + BitVec.ofNat 32 0 = oc := by simp
    rw [h0]; exact Leads.refl _
termination_by (ctEntry s y).code.length - i

theorem symOfByte_ne_eof (b : Byte) : symOfByte b ≠ Config.eofSym := by
  intro he; have := congrArg Fin.val he; have hb := b.isLt; simp [symOfByte] at this; omega

theorem byteOfSym_symOfByte (b : Byte) : byteOfSym (symOfByte b) = b := by simp [byteOfSym, symOfByte]

theorem compress_bytes (hr : s.snkReady = true) (l : List Byte) (hl : ∀ c ∈ l, (ctEntry s (symOfByte c)).valid = true)
    (src : List SrcToken) (snk : List SnkToken) (ic oc : Word) :
    Leads (s.stream (l.map SrcToken.d ++ src) snk ic oc .compTake)
      (s.stream src (snk ++ (l.flatMap (fun b => (ctEntry s (symOfByte b)).code)).map bitTok) (ic + BitVec.ofNat 32 l.length)
        (oc + BitVec.ofNat 32 (l.flatMap (fun b => (ctEntry s (symOfByte b)).code)).length) .compTake) := by
  induction l generalizing snk ic oc with
  | nil =>
    have h0 : ∀ w : Word, w + BitVec.ofNat 32 0 = w := by simp
    simp only [List.map_nil, List.nil_append, List.flatMap_nil, List.length_nil, List.append_nil, h0]
    exact Leads.refl _
  | cons c l ih =>
    refine Leads.head (i := .compress) (t := s.stream (l.map SrcToken.d ++ src) snk (ic + 1) oc (compNext s (symOfByte c) 0)) rfl ?_ ?_
    · have hv := hl c (by simp)
      have hv' : (ctEntry (s.stream ((c :: l).map SrcToken.d ++ src) snk ic oc .compTake) (symOfByte c)).valid = true := hv
      have hs : (s.stream ((c :: l).map SrcToken.d ++ src) snk ic oc .compTake).src = SrcToken.d c :: (l.map SrcToken.d ++ src) := rfl
      simp only [exec, execCompress, show (s.stream ((c :: l).map SrcToken.d ++ src) snk ic oc .compTake).phase = .compTake from rfl, compressTake, hs]
      simp only [SrcToken.d, hv', Bool.not_true, Bool.false_eq_true, if_false]
      rfl
    · have h1 := compress_code hr (l.map SrcToken.d ++ src) snk (ic + 1) oc (symOfByte c) 0
      rw [if_neg (symOfByte_ne_eof c)] at h1
      have h2 := ih (fun c hc => hl c (by simp [hc])) (snk ++ ((ctEntry s (symOfByte c)).code.drop 0).map bitTok) (ic + 1) (oc + BitVec.ofNat 32 ((ctEntry s (symOfByte c)).code.drop 0).length)
      refine (h1.trans h2).trans ?_
      simp only [List.drop_zero, add_ofNat_add, add_ofNat_succ, List.flatMap_cons, List.map_append, List.length_append, List.append_assoc, List.length_cons]
      exact Leads.refl _

@[simp] theorem emitText_stream (s : State) (src snk ic oc ph) (y : Sym) : emitText (s.stream src snk ic oc ph) y = emitText s y := rfl
@[simp] theorem emitFrom_stream (s : State) (src snk ic oc ph) (k : Nat) : emitFrom (s.stream src snk ic oc ph) k = emitFrom s k := rfl

variable {s : State}

theorem emit_text (hr : s.snkReady = true) (src : List SrcToken) (snk : List SnkToken) (ic oc : Word) (y : Sym) (i : Nat)
    (hi : i < (emitText s y).length) :
    Leads (s.stream src snk ic oc (.emitPut y i))
      (s.stream src (snk ++ ((emitText s y).drop i).map SnkToken.d) ic (oc + BitVec.ofNat 32 ((emitText s y).drop i).length)
        (emitFrom s (y.val + 1))) := by
  have hstep : exec .emitHdr (s.stream src snk ic oc (.emitPut y i)) = .next (s.stream src (snk ++ [SnkToken.d (emitText s y)[i]]) ic (oc + 1) (if i + 1 < (emitText s y).length then .emitPut y (i + 1) else emitFrom s (y.val + 1))) := by
    simp only [exec, execEmitHdr, show (s.stream src snk ic oc (.emitPut y i)).phase = .emitPut y i from rfl, emitByte, emitText_stream, List.getElem?_eq_getElem hi]
    rw [if_pos (show (s.stream src snk ic oc (.emitPut y i)).snkReady = true from hr)]
    rfl
  refine Leads.head (i := .emitHdr) rfl hstep ?_
  rw [List.drop_eq_getElem_cons hi, List.map_cons, List.length_cons, ← add_ofNat_succ, List.append_cons snk _ (List.map _ _)]
  by_cases hi' : i + 1 < (emitText s y).length
  · rw [if_pos hi']
    exact emit_text hr src _ ic _ y (i + 1) hi'
  · rw [if_neg hi', List.drop_eq_nil_of_le (by omega)]
    simp only [List.map_nil, List.append_nil, List.length_nil]
    have h0 : oc + 1 + BitVec.ofNat 32 0 = oc + 1 := by simp
    rw [h0]; exact Leads.refl _
termination_by (emitText s y).length - i

/-- the rest of the canonical header from entry k on -/
def headerFrom (s : State) (k : Nat) : List Byte :=
  ((List.finRange 257).drop k).flatMap fun y => if (ctEntry s y).valid then emitText s y else []

/-- EMIT_HDR puts the two lines of R123. -/
theorem emitText_eq_pairLines (s : State) (y : Sym) : emitText s y = pairLines s y := rfl

theorem headerFrom_zero (s : State) : headerFrom s 0 = canonicalHeader s := by
  simp only [headerFrom, canonicalHeader, List.drop_zero, emitText_eq_pairLines]

theorem emitText_pos (s : State) (y : Sym) : 0 < (emitText s y).length := pairText_ne_nil _ _ _

theorem find_from (p : Sym → Bool) (k : Nat) :
    (List.finRange 257).find? (fun y => decide (k ≤ y.val) && p y) = ((List.finRange 257).drop k).find? p := by
  conv_lhs => rw [← List.take_append_drop k (List.finRange 257)]
  rw [List.find?_append]
  have h1 : (List.take k (List.finRange 257)).find? (fun y => decide (k ≤ y.val) && p y) = none := by
    rw [List.find?_eq_none]
    intro x hx
    obtain ⟨i, hi, rfl⟩ := List.getElem_of_mem hx
    simp at hi ⊢
    omega
  rw [h1, Option.none_or]
  have : ∀ l : List Sym, (∀ y ∈ l, k ≤ y.val) → l.find? (fun y => decide (k ≤ y.val) && p y) = l.find? p := by
    intro l hl
    induction l with
    | nil => rfl
    | cons a l ih =>
      simp only [List.find?_cons, hl a (by simp), decide_true, Bool.true_and]
      rw [ih (fun y hy => hl y (by simp [hy]))]
  apply this
  intro y hy
  obtain ⟨i, hi, rfl⟩ := List.getElem_of_mem hy
  simp

theorem emit_from (hr : s.snkReady = true) (src : List SrcToken) (snk : List SnkToken) (ic oc : Word) (k : Nat) :
    Leads (s.stream src snk ic oc (emitFrom s k))
      (s.stream src (snk ++ (headerFrom s k).map SnkToken.d) ic (oc + BitVec.ofNat 32 (headerFrom s k).length) .emitClose) := by
  by_cases hk : k < 257
  · have hcons : (List.finRange 257).drop k = ⟨k, hk⟩ :: (List.finRange 257).drop (k + 1) := by
      rw [List.drop_eq_getElem_cons (by simpa using hk)]; simp
    have hh : headerFrom s k = (if (ctEntry s ⟨k, hk⟩).valid then emitText s ⟨k, hk⟩ else []) ++ headerFrom s (k + 1) := by
      unfold headerFrom; rw [hcons, List.flatMap_cons]
    have hf : emitFrom s k = if (ctEntry s ⟨k, hk⟩).valid then .emitPut ⟨k, hk⟩ 0 else emitFrom s (k + 1) := by
      unfold emitFrom
      simp only [find_from, hcons, List.find?_cons]
      cases (ctEntry s ⟨k, hk⟩).valid <;> simp
    rw [hh, hf]
    cases hv : (ctEntry s ⟨k, hk⟩).valid with
    | true =>
      simp only [if_true]
      refine (emit_text hr src snk ic oc ⟨k, hk⟩ 0 (emitText_pos _ _)).trans ?_
      refine (emit_from hr src _ ic _ (k + 1)).trans ?_
      simp only [List.drop_zero, add_ofNat_add, List.map_append, List.length_append, List.append_assoc]
      exact Leads.refl _
    | false =>
      simpa using emit_from hr src snk ic oc (k + 1)
  · have hd : (List.finRange 257).drop k = [] := List.drop_eq_nil_of_le (by simp; omega)
    have h1 : headerFrom s k = [] := by unfold headerFrom; rw [hd]; rfl
    have h2 : emitFrom s k = .emitClose := by unfold emitFrom; simp only [find_from, hd]; rfl
    rw [h1, h2]
    have h0 : oc + BitVec.ofNat 32 0 = oc := by simp
    simp only [List.map_nil, List.append_nil, List.length_nil, h0]
    exact Leads.refl _
termination_by 257 - k

/-! DECOMPRESS -/

theorem tokens_cons {t : SrcToken} {l : List SrcToken} {b : Bool} {bs : List Bool} :
    BitTokens (t :: l) (b :: bs) ↔ t.isEnd = false ∧ tokenBit t = b ∧ BitTokens l bs := by
  unfold BitTokens
  simp; tauto

theorem dec_step {r p c : Nat} {t : SrcToken} {src : List SrcToken} {snk : List SnkToken} {ic oc : Word}
    (ht : t.isEnd = false) (hl : link s.arena p (tokenBit t) = some c) (hc : IsInternal s.arena c) :
    exec .decompress (s.stream (t :: src) snk ic oc (.decGeneral r p)) = .next (s.stream src snk (ic + 1) oc (.decGeneral r c)) := by
  obtain ⟨n, hn, hch⟩ := link_eq_some.mp hl
  obtain ⟨f, a, b, hc⟩ := hc
  simp [exec, execDecompress, State.stream, decGeneralStep, ht, hn, hch, hc, takeBit, countIn, takeToken]

theorem dec_leaf {r p c : Nat} {y : Sym} {t : SrcToken} {src : List SrcToken} {snk : List SnkToken} {ic oc : Word} (hr : s.snkReady = true)
    (ht : t.isEnd = false) (hl : link s.arena p (tokenBit t) = some c) (hc : IsLeaf s.arena c y) (hy : y ≠ Config.eofSym) :
    exec .decompress (s.stream (t :: src) snk ic oc (.decGeneral r p)) = .next (s.stream src (snk ++ [SnkToken.d (byteOfSym y)]) (ic + 1) (oc + 1) (.decGeneral r r)) := by
  obtain ⟨n, hn, hch⟩ := link_eq_some.mp hl
  obtain ⟨f, hc⟩ := hc
  simp [exec, execDecompress, State.stream, decGeneralStep, ht, hn, hch, hc, takeBit, countIn, takeToken, hy, hr, putData]

theorem dec_eof {r p c : Nat} {t : SrcToken} {src : List SrcToken} {snk : List SnkToken} {ic oc : Word}
    (ht : t.isEnd = false) (hl : link s.arena p (tokenBit t) = some c) (hc : IsLeaf s.arena c Config.eofSym) :
    exec .decompress (s.stream (t :: src) snk ic oc (.decGeneral r p)) = .next (s.stream src snk (ic + 1) oc (.decStop false)) := by
  obtain ⟨n, hn, hch⟩ := link_eq_some.mp hl
  obtain ⟨f, hc⟩ := hc
  simp [exec, execDecompress, State.stream, decGeneralStep, ht, hn, hch, hc, takeBit, countIn, takeToken]

/-- a path whose end is internal is walked with no output -/
theorem dec_walk {r p q : Nat} {bs : List Bool} {toks src : List SrcToken} {snk : List SnkToken} {ic oc : Word}
    (ht : BitTokens toks bs) (hf : follow s.arena bs p = some q) (hq : IsInternal s.arena q) :
    Leads (s.stream (toks ++ src) snk ic oc (.decGeneral r p)) (s.stream src snk (ic + BitVec.ofNat 32 toks.length) oc (.decGeneral r q)) := by
  induction bs generalizing p toks ic with
  | nil =>
    have : toks = [] := by simpa [BitTokens] using ht.2
    subst this
    simp at hf; subst hf
    have h0 : ic + BitVec.ofNat 32 0 = ic := by simp
    simp only [List.nil_append, List.length_nil, h0]; exact Leads.refl _
  | cons b bs ih =>
    cases toks with
    | nil => simp [BitTokens] at ht
    | cons t toks =>
      obtain ⟨h1, h2, h3⟩ := tokens_cons.mp ht
      rw [follow_cons] at hf
      cases hl : link s.arena p b with
      | none => simp [hl] at hf
      | some c =>
        simp [hl] at hf
        have hc : IsInternal s.arena c := by
          cases bs with
          | nil => simp at hf; subst hf; exact hq
          | cons b' bs' =>
            rw [follow_cons] at hf
            cases hl' : link s.arena c b' with
            | none => simp [hl'] at hf
            | some d => exact internal_of_link hl'
        refine Leads.head (i := .decompress) rfl (dec_step h1 (h2 ▸ hl) hc) ?_
        rw [List.length_cons, ← add_ofNat_succ]
        exact ih h3 hf

/-- a code of a leaf: walked, then the last bit -/
theorem leafAt_split {a : List Node} {r : Nat} {code : List Bool} {y : Sym} (h : LeafAt a r code y) (hi : IsInternal a r) :
    ∃ q b p c, code = q ++ [b] ∧ follow a q r = some p ∧ link a p b = some c ∧ IsLeaf a c y := by
  obtain ⟨j, hj, hl⟩ := h
  rcases List.eq_nil_or_concat code with rfl | ⟨q, b, rfl⟩
  · simp at hj; subst hj; exact absurd hi hl.not_internal
  · rw [List.concat_eq_append] at hj ⊢
    obtain ⟨p, hp, hb⟩ := follow_snoc_eq_some.mp hj
    exact ⟨q, b, p, j, rfl, hp, hb, hl⟩

theorem bitTokens_append {l : List SrcToken} {a b : List Bool} (h : BitTokens l (a ++ b)) :
    ∃ x y, l = x ++ y ∧ BitTokens x a ∧ BitTokens y b := by
  refine ⟨l.take a.length, l.drop a.length, (List.take_append_drop _ _).symm, ⟨fun t ht => h.1 t (List.mem_of_mem_take ht), ?_⟩, fun t ht => h.1 t (List.mem_of_mem_drop ht), ?_⟩
  · rw [List.map_take, h.2]; simp
  · rw [List.map_drop, h.2]; simp

theorem bitTokens_single {l : List SrcToken} {b : Bool} (h : BitTokens l [b]) : ∃ t, l = [t] ∧ t.isEnd = false ∧ tokenBit t = b := by
  cases l with
  | nil => simp [BitTokens] at h
  | cons t l =>
    obtain ⟨h1, h2, h3⟩ := tokens_cons.mp h
    have : l = [] := by simpa [BitTokens] using h3.2
    exact ⟨t, by rw [this], h1, h2⟩

theorem dec_bytes {r : Nat} (hint : IsInternal s.arena r) (hr : s.snkReady = true) {l : List Byte} {codes : List (List Bool)}
    (h : List.Forall₂ (fun b code => LeafAt s.arena r code (symOfByte b)) l codes) {toks src : List SrcToken} {snk : List SnkToken} {ic oc : Word}
    (ht : BitTokens toks codes.flatten) :
    Leads (s.stream (toks ++ src) snk ic oc (.decGeneral r r))
      (s.stream src (snk ++ l.map SnkToken.d) (ic + BitVec.ofNat 32 toks.length) (oc + BitVec.ofNat 32 l.length) (.decGeneral r r)) := by
  induction h generalizing toks snk ic oc with
  | nil =>
    have : toks = [] := by simpa [BitTokens] using ht.2
    subst this
    have h0 : ∀ w : Word, w + BitVec.ofNat 32 0 = w := by simp
    simp only [List.nil_append, List.length_nil, h0, List.map_nil, List.append_nil]; exact Leads.refl _
  | cons hc hrest ih =>
    rename_i b code l codes
    rw [List.flatten_cons] at ht
    obtain ⟨x, y, rfl, hx, hy⟩ := bitTokens_append ht
    obtain ⟨q, bit, p, c, rfl, hq, hb, hl⟩ := leafAt_split hc hint
    obtain ⟨x1, x2, rfl, hx1, hx2⟩ := bitTokens_append hx
    obtain ⟨t, rfl, ht1, ht2⟩ := bitTokens_single hx2
    rw [List.append_assoc, List.append_assoc]
    refine (dec_walk hx1 hq (internal_of_link hb)).trans ?_
    refine Leads.head (i := .decompress) rfl (dec_leaf hr ht1 (ht2 ▸ hb) hl (symOfByte_ne_eof b)) ?_
    refine (ih hy).trans ?_
    rw [byteOfSym_symOfByte]
    have e1 : ic + BitVec.ofNat 32 x1.length + 1 + BitVec.ofNat 32 y.length = ic + BitVec.ofNat 32 (x1 ++ [t] ++ y).length := by
      rw [add_ofNat_succ, add_ofNat_add]; congr 2; simp only [List.length_append, List.length_cons, List.length_nil]; omega
    rw [e1]
    simp only [List.map_cons, List.length_cons, ← add_ofNat_succ, List.append_cons snk _ (List.map _ _)]
    exact Leads.refl _

end Sys2Proof.Machine
end

