-- ==== Sys2Proof/Laws/HdrRuns.lean ====
section
/-! SUPPORT. The loop of BUILD_HDR over a header text (spec/41_header_build.md R160 to R173). -/

namespace Sys2Proof.Machine

/-! ### One line (R161, R162) -/

theorem odd_next {n : Word} (h : n.getLsbD 0 = false) : (n + 1).getLsbD 0 = true := by rw [parity_flips, h]; rfl

theorem even_next {n : Word} (h : n.getLsbD 0 = true) : (n + 1).getLsbD 0 = false := by rw [parity_flips, h]; rfl

/-- A line that ends well is counted and leaves the buffer empty (R161). -/
theorem endLine_ln {m : List Byte} {h h' : HdrState} {b b' : Build} (he : endLine m h b = .ok h' b') :
    h'.ln = h.ln + 1 ∧ h'.lb = [] := by
  unfold endLine at he
  split at he <;> cases he
  rename_i hk
  split at hk
  · unfold keyLine at hk
    split at hk
    · cases hk
    · split at hk <;> cases hk
      exact ⟨rfl, rfl⟩
  · unfold codeLine at hk
    split at hk
    · cases hk
    · split at hk
      · cases hk
      · split at hk <;> cases hk
        exact ⟨rfl, rfl⟩

/-- Insertion frees no node, in any state (R174). -/
theorem insertPath_grows {y : Sym} {cs : List Bool} {sl : Slot} {b b' : Build} {sub : SubCause}
    (h : insertPath y cs sl b = .raised b' sub ∨ insertPath y cs sl b = .done b') :
    b.arena.length ≤ b'.arena.length := by
  induction cs generalizing sl b with
  | nil =>
    unfold insertPath at h
    split at h
    · simp at h; rw [h.1]
    · split at h <;> simp at h
      · rw [h.1]
      · rw [← h, allocAt_length]; omega
  | cons c cs ih =>
    unfold insertPath at h
    split at h
    · split at h
      · simp at h; rw [h.1]
      · have := ih h
        rw [allocAt_length] at this; omega
    · split at h
      · simp at h
      · simp at h; rw [h.1]
      · exact ih h

/-! ### What a faulting line leaves of the arena (R174) -/

/-- What an insertion that faults leaves of the arena: earlier entries keep what they hold and gain at most links to new
entries, and every new entry is a placeholder internal node (R169, R172, R174). -/
structure KeepsNodes (a a' : List Node) : Prop where
  grows : a.length ≤ a'.length
  old : ∀ (k : Nat) (n : Node), a[k]? = some n → ∃ n' : Node, a'[k]? = some n' ∧ n'.kind = n.kind ∧ n'.sym = n.sym ∧ n'.freq = n.freq ∧
    ∀ bit, n'.child bit = n.child bit ∨ (n.child bit = none ∧ ∃ c, a.length ≤ c ∧ n'.child bit = some c)
  new : ∀ (k : Nat) (n : Node), a.length ≤ k → a'[k]? = some n → n.kind = true ∧ n.freq = none

theorem KeepsNodes.refl (a : List Node) : KeepsNodes a a where
  grows := Nat.le_refl _
  old := fun _ n h => ⟨n, h, rfl, rfl, rfl, fun _ => .inl rfl⟩
  new := fun k n hk h => by rw [List.getElem?_eq_none hk] at h; cases h

theorem KeepsNodes.trans {a b c : List Node} (h : KeepsNodes a b) (h' : KeepsNodes b c) : KeepsNodes a c where
  grows := Nat.le_trans h.grows h'.grows
  old := fun k n hk => by
    obtain ⟨n₁, h1, k1, s1, f1, l1⟩ := h.old k n hk
    obtain ⟨n₂, h2, k2, s2, f2, l2⟩ := h'.old k n₁ h1
    refine ⟨n₂, h2, k2.trans k1, s2.trans s1, f2.trans f1, fun bit => ?_⟩
    rcases l1 bit with e | ⟨e, c, hc, e'⟩ <;> rcases l2 bit with d | ⟨d, c', hc', d'⟩
    · exact .inl (d.trans e)
    · exact .inr ⟨e ▸ d, c', Nat.le_trans h.grows hc', d'⟩
    · exact .inr ⟨e, c, hc, d.trans e'⟩
    · rw [e'] at d; cases d
  new := fun k n hk hn => by
    by_cases hb : k < b.length
    · obtain ⟨n₂, h2, k2, -, f2, -⟩ := h'.old k b[k] (List.getElem?_eq_getElem hb)
      obtain ⟨k1, f1⟩ := h.new k b[k] hk (List.getElem?_eq_getElem hb)
      rw [hn] at h2; cases h2
      exact ⟨k2.trans k1, f2.trans f1⟩
    · exact h'.new k n (by omega) hn

/-- A written link leaves the rest of a node. -/
theorem setChild_fields (right : Bool) (c : Nat) (m : Node) :
    (setChild right c m).kind = m.kind ∧ (setChild right c m).sym = m.sym ∧ (setChild right c m).freq = m.freq ∧
    ∀ bit, (setChild right c m).child bit = m.child bit ∨ (bit = right ∧ (setChild right c m).child bit = some c) := by
  cases m <;> cases right <;> simp [setChild, Node.kind, Node.sym, Node.freq, Node.child, Node.left, Node.right]

/-- One allocation of a placeholder at an empty link field. -/
theorem allocAt_keepsNodes {b : Build} {slot : Slot} (he : slotGet b slot = none) :
    KeepsNodes b.arena (allocAt slot (.internal none none none) b).arena := by
  have side : ∀ (right : Bool) (i : Nat), slotGet b (childSlot i right) = none →
      (∀ j, (allocAt slot (.internal none none none) b).arena[j]? = ((b.arena ++ [.internal none none none])[j]?).map
        (fun m => if i = j then setChild right b.arena.length m else m)) →
      KeepsNodes b.arena (allocAt slot (.internal none none none) b).arena := by
    intro right i hs hg
    refine ⟨by rw [allocAt_length]; omega, fun k n hk => ?_, fun k n hk hn => ?_⟩
    · have hlt : k < b.arena.length := by
        by_contra h; rw [List.getElem?_eq_none (by omega)] at hk; cases hk
      rw [hg, List.getElem?_append_left hlt, hk]
      by_cases hik : i = k
      · subst hik
        obtain ⟨h1, h2, h3, h4⟩ := setChild_fields right b.arena.length n
        refine ⟨_, by simp, h1, h2, h3, fun bit => ?_⟩
        rcases h4 bit with h | ⟨rfl, h⟩
        · exact .inl h
        · refine .inr ⟨?_, b.arena.length, Nat.le_refl _, h⟩
          rw [slotGet_childSlot] at hs
          simpa [link, hk] using hs
      · exact ⟨n, by simp [hik], rfl, rfl, rfl, fun _ => .inl rfl⟩
    · rw [hg, Option.map_eq_some_iff] at hn
      obtain ⟨m, hm, rfl⟩ := hn
      have hm' : m = .internal none none none := by
        rw [List.getElem?_append_right hk] at hm
        cases h : k - b.arena.length with
        | zero => rw [h] at hm; simpa using hm.symm
        | succ j => rw [h] at hm; simp at hm
      subst hm'
      split <;> cases right <;> exact ⟨rfl, rfl⟩
  cases slot with
  | left i => exact side false i he (fun j => allocAt_getElem? j)
  | right i => exact side true i he (fun j => allocAt_getElem? j)
  | root =>
    refine ⟨by rw [allocAt_length]; omega, fun k n hk => ⟨n, ?_, rfl, rfl, rfl, fun _ => .inl rfl⟩, fun k n hk hn => ?_⟩
    · have hlt : k < b.arena.length := by
        by_contra h; rw [List.getElem?_eq_none (by omega)] at hk; cases hk
      rw [allocAt_getElem?, List.getElem?_append_left hlt, hk]
    · rw [allocAt_getElem?, List.getElem?_append_right hk] at hn
      cases h : k - b.arena.length with
      | zero => rw [h] at hn; simp at hn; subst hn; exact ⟨rfl, rfl⟩
      | succ j => rw [h] at hn; simp at hn

/-- An insertion that faults, in any state (R169, R174). -/
theorem insertPath_raised_keepsNodes {y : Sym} {cs : List Bool} {sl : Slot} {b b' : Build} {sub : SubCause}
    (h : insertPath y cs sl b = .raised b' sub) : KeepsNodes b.arena b'.arena := by
  induction cs generalizing sl b with
  | nil =>
    unfold insertPath at h
    split at h
    · cases h; exact .refl _
    · split at h <;> cases h
      exact .refl _
  | cons c cs ih =>
    unfold insertPath at h
    split at h
    · rename_i he
      split at h
      · cases h; exact .refl _
      · exact (allocAt_keepsNodes he).trans (ih h)
    · split at h
      · cases h
      · cases h; exact .refl _
      · exact ih h

/-- A line that faults (R161, R164, R168, R174). -/
theorem endLine_raised_keepsNodes {m : List Byte} {h : HdrState} {b b' : Build} {sub : SubCause}
    (he : endLine m h b = .raised b' sub) : KeepsNodes b.arena b'.arena := by
  unfold endLine at he
  split at he <;> cases he
  rename_i hk
  split at hk
  · unfold keyLine at hk
    split at hk
    · cases hk; exact .refl _
    · split at hk <;> cases hk
      exact .refl _
  · unfold codeLine at hk
    split at hk
    · cases hk; exact .refl _
    · split at hk
      · cases hk; exact .refl _
      · split at hk <;> cases hk
        rename_i hi
        exact insertPath_raised_keepsNodes hi

/-- A line that leaves an odd number of lines is a key line: it places no node (R162, R164). -/
theorem endLine_odd_build {m : List Byte} {h h' : HdrState} {b b' : Build} (he : endLine m h b = .ok h' b')
    (hodd : h'.ln.getLsbD 0 = true) : b' = b := by
  rw [(endLine_ln he).1] at hodd
  unfold endLine at he
  rw [if_pos hodd] at he
  split at he <;> cases he
  rename_i hk
  unfold keyLine at hk
  split at hk
  · cases hk
  · split at hk <;> cases hk
    rfl

/-! ### Runs of the loop -/

/-- a state of BUILD_HDR's loop -/
def State.hdrAt (s : State) (src : List SrcToken) (ic : Word) (h : HdrState) (b : Build) : State :=
  { s with src := src, inCount := ic, root := b.root, arena := b.arena, phase := .hdr h }

variable {s : State}

theorem hdr_step (src : List SrcToken) (ic : Word) (h : HdrState) (b : Build) (c : Byte) (hc : c ≠ 0x0A#8) :
    exec .buildHdr (s.hdrAt (SrcToken.d c :: src) ic h b) = .next (s.hdrAt src (ic + 1) (h.append c) b) := by
  simp only [exec, execBuildHdr, State.hdrAt, hdrLoop, SrcToken.d, hdrByte, hc, if_false]
  rfl

theorem hdr_bytes (l : List Byte) (hl : 0x0A#8 ∉ l) (src : List SrcToken) (ic : Word) (h : HdrState) (b : Build) :
    Leads (s.hdrAt (l.map SrcToken.d ++ src) ic h b) (s.hdrAt src (ic + BitVec.ofNat 32 l.length) (l.foldl (fun h c => h.append c) h) b) := by
  induction l generalizing ic h with
  | nil =>
    have h0 : ic + BitVec.ofNat 32 0 = ic := by simp
    simp only [List.map_nil, List.nil_append, List.length_nil, List.foldl_nil, h0]; exact Leads.refl _
  | cons c l ih =>
    simp at hl
    refine Leads.head (i := .buildHdr) rfl (hdr_step _ ic h b c (by simpa using Ne.symm hl.1)) ?_
    rw [List.length_cons, ← add_ofNat_succ]
    exact ih hl.2 (ic + 1) (h.append c)

theorem append_line (l : List Byte) (h : HdrState) (hlen : h.lb.length + l.length ≤ 256) :
    l.foldl (fun h c => h.append c) h = { h with lb := h.lb ++ l, ovf := h.ovf, bad := h.bad || l.any (fun c => !(c == 0x30#8 || c == 0x31#8)) } := by
  induction l generalizing h with
  | nil => simp
  | cons c l ih =>
    simp at hlen
    have hne : h.lb.length ≠ Config.lineMax := by simp only [Config.lineMax]; omega
    rw [List.foldl_cons, ih]
    · simp only [HdrState.append, hne, if_false, decide_false, Bool.or_false, List.any_cons, List.append_assoc, List.singleton_append, Bool.or_assoc]
    · simp only [HdrState.append, hne, if_false, List.length_append, List.length_singleton]; omega

theorem hdr_newline (src : List SrcToken) (ic : Word) {h h' : HdrState} {b b' : Build} (he : endLine s.marker h b = .ok h' b') :
    exec .buildHdr (s.hdrAt (SrcToken.d 0x0A#8 :: src) ic h b) = .next (s.hdrAt src (ic + 1) h' b') := by
  have : endLine (countIn (takeToken src (s.hdrAt (SrcToken.d 0x0A#8 :: src) ic h b))).marker h (buildOf (countIn (takeToken src (s.hdrAt (SrcToken.d 0x0A#8 :: src) ic h b)))) = .ok h' b' := he
  simp only [exec, execBuildHdr, show (s.hdrAt (SrcToken.d 0x0A#8 :: src) ic h b).phase = .hdr h from rfl, hdrLoop, show (s.hdrAt (SrcToken.d 0x0A#8 :: src) ic h b).src = SrcToken.d 0x0A#8 :: src from rfl, show (SrcToken.d 0x0A#8).isEnd = false from rfl, hdrByte, show (SrcToken.d 0x0A#8).data = 0x0A#8 from rfl, if_true, this, Bool.false_eq_true, if_false]
  rfl

theorem codeText_ok (code : List Bool) : codeBits (codeText code) = code ∧ 0x0A#8 ∉ codeText code ∧ (codeText code).any (fun c => !(c == 0x30#8 || c == 0x31#8)) = false := by
  refine ⟨?_, ?_, ?_⟩
  · unfold codeBits codeText
    rw [List.map_map]
    conv_rhs => rw [← List.map_id code]
    apply List.map_congr_left
    intro b _; cases b <;> rfl
  · unfold codeText
    intro h
    obtain ⟨b, -, hb⟩ := List.mem_map.mp h
    cases b <;> simp at hb
  · unfold codeText
    rw [List.any_map, List.any_eq_false]
    intro b _; cases b <;> simp

/-- what is known between two pairs -/
structure Between (h : HdrState) (b : Build) (done : List HdrPair) : Prop where
  inv : HdrInv h b
  clear : h.lb = [] ∧ h.ovf = false ∧ h.bad = false
  even : h.ln.getLsbD 0 = false
  leaves : ∀ d y, LeafFrom b d y ↔ ∃ p ∈ done, p.code = d ∧ p.sym = y
  nodes : ∀ q, (nodeAt b q).isSome ↔ ∃ p ∈ done, q <+: p.code
  reached : Reached b
  marks : ∀ y : Sym, h.present[y.val] = true ↔ ∃ p ∈ done, p.sym = y

/-- Before the first pair. -/
theorem Between.none : Between HdrState.cleared ⟨.none, []⟩ [] :=
  ⟨HdrInv.cleared _ rfl rfl, ⟨rfl, rfl, rfl⟩, by decide, by simp [LeafFrom, nodeAt], by simp [nodeAt],
    fun k hk => by simp at hk, by simp [HdrState.cleared]⟩

theorem Between.pair {h : HdrState} {b : Build} {done : List HdrPair} {p : HdrPair} (H : Between h b done)
    (hk : p.key.length ≤ Config.lineMax ∧ 0x0A#8 ∉ p.key ∧ keySym s.marker p.key false = some p.sym)
    (hsym : ∀ q ∈ done, q.sym ≠ p.sym) (hlen : p.code.length ≤ Config.maxCodeLen) (hfree : ∀ q ∈ done, PrefixFree p.code q.code)
    (hn : (((done ++ [p]).flatMap fun p => p.code.inits).dedup.length ≤ Config.nodeCap)) (src : List SrcToken) (ic : Word) :
    ∃ h' b', Between h' b' (done ++ [p]) ∧
      Leads (s.hdrAt ((p.key ++ [0x0A#8] ++ codeText p.code ++ [0x0A#8]).map SrcToken.d ++ src) ic h b)
        (s.hdrAt src (ic + BitVec.ofNat 32 (p.key ++ [0x0A#8] ++ codeText p.code ++ [0x0A#8]).length) h' b') := by
  obtain ⟨hlb, hov, hbad⟩ := H.clear
  have hpres : h.present[p.sym.val] = false := by
    cases hp : h.present[p.sym.val] with
    | false => rfl
    | true =>
      obtain ⟨q, hq, hqs⟩ := (H.marks p.sym).mp hp
      exact absurd hqs (hsym q hq)
  -- the key line
  have e1 := append_line p.key h (by rw [hlb]; simpa using hk.1)
  rw [hlb, hov, hbad] at e1
  simp only [List.nil_append, Bool.false_or] at e1
  set h1 : HdrState := { h with lb := p.key, ovf := false, bad := p.key.any (fun c => !(c == 0x30#8 || c == 0x31#8)) } with hh1
  have n1 : endLine s.marker h1 b = .ok { h with lb := [], ovf := false, bad := false, ln := h.ln + 1, pk := p.sym } b := by
    have hodd := odd_next H.even
    simp only [endLine, h1, hodd, if_true, keyLine, hk.2.2, hpres, Bool.false_eq_true, if_false, HdrState.clearLine]
  set h2 : HdrState := { h with lb := [], ovf := false, bad := false, ln := h.ln + 1, pk := p.sym } with hh2
  have i2 : HdrInv h2 b := ⟨H.inv.build, H.inv.bare, H.inv.depth, Nat.zero_le _, H.inv.present, fun _ => hpres⟩
  -- the code line
  obtain ⟨c1, c2, c3⟩ := codeText_ok p.code
  have clen : (codeText p.code).length = p.code.length := by simp [codeText]
  have e2 := append_line (codeText p.code) h2 (by simp [h2, clen]; exact hlen)
  simp only [h2, List.nil_append, Bool.false_or, c3] at e2
  set h3 : HdrState := { h with lb := codeText p.code, ovf := false, bad := false, ln := h.ln + 1, pk := p.sym } with hh3
  have hev : (h.ln + 1 + 1).getLsbD 0 = false := even_next (odd_next H.even)
  have hy : ∀ i, ¬IsLeaf b.arena i p.sym := by
    intro i hi
    have := (H.inv.present p.sym).mpr ⟨i, hi⟩
    rw [hpres] at this; cases this
  have hins : ∃ b', insertPath p.sym p.code .root b = .done b' ∧ Placed b b' (missingNodes b.root b.arena p.code) p.code p.sym ∧ ∀ i, ¬Childbare b'.arena i := by
    rcases insertPath_spec (cs := p.code) H.inv.build H.inv.bare (.inl ⟨rfl, rfl⟩) hy with
      ⟨-, ⟨b', h1, h2, h3⟩ | ⟨b', h1, hr⟩⟩ | ⟨⟨d, z, hd, hnf⟩, -⟩
    · exact ⟨b', h1, h2, h3⟩
    · exfalso
      have hre := hr.reached H.reached
      choose! q hq using hre
      have hsub : (Finset.range 513).image q ⊆ (((done ++ [p]).flatMap fun p => p.code.inits).toFinset).erase p.code := by
        intro x hx
        simp only [Finset.mem_image, Finset.mem_range] at hx
        obtain ⟨k, hk, rfl⟩ := hx
        have hk' : k < b'.arena.length := by rw [hr.full]; exact hk
        have hqk := hq k hk'
        simp only [Finset.mem_erase, List.mem_toFinset, List.mem_flatMap, List.mem_inits]
        constructor
        · intro heq
          rw [heq] at hqk
          have := hr.unplaced
          rw [List.nil_append, hqk] at this; cases this
        · rcases hr.nodes (q k) (by rw [hqk]; rfl) with hnn | hnn
          · obtain ⟨r, hr1, hr2⟩ := (H.nodes _).mp hnn
            exact ⟨r, by simp [hr1], hr2⟩
          · exact ⟨p, by simp, hnn⟩
      have hcard := Finset.card_le_card hsub
      have hinj : Set.InjOn q (Finset.range 513 : Finset ℕ) := by
        intro i hi j hj hij
        simp only [Finset.coe_range, Set.mem_Iio] at hi hj
        have h1 := hq i (by rw [hr.full]; exact hi)
        have h2 := hq j (by rw [hr.full]; exact hj)
        rw [hij, h2] at h1
        exact (Option.some.inj h1).symm
      rw [Finset.card_image_of_injOn hinj, Finset.card_range, Finset.card_erase_of_mem (by
        simp only [List.mem_toFinset, List.mem_flatMap, List.mem_inits]; exact ⟨p, by simp, List.prefix_refl _⟩), List.card_toFinset] at hcard
      simp only [Config.nodeCap] at hn
      omega
    · exfalso
      obtain ⟨q, hq, rfl, rfl⟩ := (H.leaves d z).mp hd
      exact hnf (hfree q hq)
  obtain ⟨b', hi, hpl, hb⟩ := hins
  have n2 : endLine s.marker h3 b = .ok { h with lb := [], ovf := false, bad := false, ln := h.ln + 1 + 1, pk := p.sym, present := h.present.set p.sym.val true } b' := by
    simp only [endLine, h3, hev, codeLine, c1, hi, Bool.false_eq_true, if_false, HdrState.clearLine]
  refine ⟨{ h with lb := [], ovf := false, bad := false, ln := h.ln + 1 + 1, pk := p.sym, present := h.present.set p.sym.val true }, b', ?_, ?_⟩
  · have hpI : HdrInv { h2 with ln := h.ln + 1 + 1, present := h.present.set p.sym.val true } b' := by
      have := HdrInv.placed (h := { h2 with ln := h.ln + 1 + 1 }) (b := b) ⟨i2.build, i2.bare, i2.depth, i2.lineFits, i2.present, fun hc => by rw [show (h.ln + 1 + 1).getLsbD 0 = true from hc] at hev; cases hev⟩ hpl hb hlen hev
      exact this
    refine ⟨hpI, ⟨rfl, rfl, rfl⟩, hev, ?_, ?_, hpl.reached H.reached, ?_⟩
    · intro d y
      rw [hpl.leaves, H.leaves]
      simp only [List.mem_append, List.mem_singleton]
      constructor
      · rintro (⟨q, hq, h1, h2⟩ | ⟨rfl, rfl⟩)
        · exact ⟨q, .inl hq, h1, h2⟩
        · exact ⟨p, .inr rfl, rfl, rfl⟩
      · rintro ⟨q, hq | rfl, h1, h2⟩
        · exact .inl ⟨q, hq, h1, h2⟩
        · exact .inr ⟨h1.symm, h2.symm⟩
    · intro q
      rw [hpl.nodes, H.nodes]
      simp only [List.mem_append, List.mem_singleton]
      constructor
      · rintro (⟨r, hr, h1⟩ | h1)
        · exact ⟨r, .inl hr, h1⟩
        · exact ⟨p, .inr rfl, h1⟩
      · rintro ⟨r, hr | rfl, hpre⟩
        · exact .inl ⟨r, hr, hpre⟩
        · exact .inr hpre
    · intro y
      show (h.present.set p.sym.val true)[y.val] = true ↔ _
      by_cases hyp : p.sym = y
      · subst hyp; simp
      · rw [Vector.getElem_set_ne _ _ (by simpa [Fin.ext_iff] using hyp), H.marks]
        simp only [List.mem_append, List.mem_singleton]
        constructor
        · rintro ⟨q, hq, h1⟩; exact ⟨q, .inl hq, h1⟩
        · rintro ⟨q, hq | rfl, hs⟩
          · exact ⟨q, hq, hs⟩
          · exact absurd hs hyp
  · have hsrc : (p.key ++ [0x0A#8] ++ codeText p.code ++ [0x0A#8]).map SrcToken.d ++ src =
        p.key.map SrcToken.d ++ (SrcToken.d 0x0A#8 :: ((codeText p.code).map SrcToken.d ++ (SrcToken.d 0x0A#8 :: src))) := by simp
    rw [hsrc]
    refine (hdr_bytes p.key hk.2.1 _ ic h b).trans ?_
    rw [e1]
    refine Leads.head (i := .buildHdr) rfl (hdr_newline _ _ n1) ?_
    refine (hdr_bytes (codeText p.code) c2 _ _ _ _).trans ?_
    rw [e2]
    refine Leads.head (i := .buildHdr) rfl (hdr_newline _ _ n2) ?_
    have : ic + BitVec.ofNat 32 p.key.length + 1 + BitVec.ofNat 32 (codeText p.code).length + 1 = ic + BitVec.ofNat 32 (p.key ++ [0x0A#8] ++ codeText p.code ++ [0x0A#8]).length := by
      have h1 : ∀ w : Word, w + 1 = w + BitVec.ofNat 32 1 := fun _ => rfl
      rw [h1, h1, add_ofNat_add, add_ofNat_add, add_ofNat_add]
      congr 2; simp; omega
    rw [this]
    exact Leads.refl _

theorem Between.list (l : List HdrPair) {h : HdrState} {b : Build} {done : List HdrPair} (H : Between h b done)
    (hk : HeaderOk s.marker (done ++ l)) (src : List SrcToken) (ic : Word) :
    ∃ h' b', Between h' b' (done ++ l) ∧
      Leads (s.hdrAt ((headerText l).map SrcToken.d ++ src) ic h b) (s.hdrAt src (ic + BitVec.ofNat 32 (headerText l).length) h' b') := by
  induction l generalizing h b done ic with
  | nil =>
    refine ⟨h, b, by simpa using H, ?_⟩
    have h0 : ic + BitVec.ofNat 32 0 = ic := by simp
    simp only [headerText, List.flatMap_nil, List.map_nil, List.nil_append, List.length_nil, h0]; exact Leads.refl _
  | cons p l ih =>
    have happ : done ++ p :: l = (done ++ [p]) ++ l := by simp
    have hmem : p ∈ done ++ p :: l := by simp
    have hsub : ((done ++ [p]).flatMap fun p => p.code.inits) ⊆ ((done ++ p :: l).flatMap fun p => p.code.inits) := by
      rw [happ, List.flatMap_append (ys := l)]
      exact List.subset_append_left _ _
    have hcount : ((done ++ [p]).flatMap fun p => p.code.inits).dedup.length ≤ Config.nodeCap := by
      refine le_trans ?_ hk.nodes
      rw [← List.card_toFinset, ← List.card_toFinset]
      exact Finset.card_le_card (fun x hx => by rw [List.mem_toFinset] at hx ⊢; exact hsub hx)
    have hpw := hk.codes
    rw [List.pairwise_append] at hpw
    have hnd := hk.symbols
    rw [List.map_append, List.map_cons, List.nodup_append] at hnd
    obtain ⟨h1, b1, B1, L1⟩ := H.pair (hk.keys p hmem) (fun q hq => by
        have := hnd.2.2 q.sym (List.mem_map_of_mem hq) p.sym (by simp)
        exact this) (hk.lengths p hmem) (fun q hq => by
        have := hpw.2.2 q hq p (by simp)
        exact ⟨this.2, this.1⟩) hcount ((headerText l).map SrcToken.d ++ src) ic
    obtain ⟨h2, b2, B2, L2⟩ := ih B1 (happ ▸ hk) (ic + BitVec.ofNat 32 (p.key ++ [0x0A#8] ++ codeText p.code ++ [0x0A#8]).length)
    refine ⟨h2, b2, happ ▸ B2, ?_⟩
    have e : headerText (p :: l) = (p.key ++ [0x0A#8] ++ codeText p.code ++ [0x0A#8]) ++ headerText l := by simp [headerText]
    rw [e, List.map_append, List.append_assoc, List.length_append, ← add_ofNat_add]
    exact L1.trans L2

end Sys2Proof.Machine
end

