-- ==== Sys2Proof/Laws/HostBus.lean ====
section
/-! SUPPORT. Accesses to the register window (spec/20_memory.md R81 to R84) and the STATUS word (spec/10_state.md R34). -/

namespace Sys2Proof.Machine

theorem access_ok {off : Nat} (h : off % 4 = 0) (h' : off < 0x800) : Wf.access off 4 = true := by
  simp [Wf.access, h, h']

theorem access_refused {off width : Nat} (h : Wf.access off width = false) :
    width ≠ 4 ∨ off % 4 ≠ 0 ∨ 0x800 ≤ off := by
  simp [Wf.access] at h; omega

theorem access_offsetOf (r : Reg) : Wf.access (offsetOf r) 4 = true := by
  refine access_ok ?_ ?_ <;> cases r <;> simp only [offsetOf] <;> omega

theorem regAt_freq (b : Fin 256) : regAt (0x400 + 4 * b.val) = .freq b := by
  unfold regAt
  rw [dif_pos (by omega)]
  congr 1
  apply Fin.ext; simp

theorem regAt_ctWord (k : Fin 8) : regAt (0x060 + 4 * k.val) = .ctWord k := by
  unfold regAt
  rw [dif_neg (by omega), dif_pos (by omega)]
  congr 1
  apply Fin.ext; simp

/-- Each register stands at its offset (R81). -/
theorem regAt_offsetOf (r : Reg) : regAt (offsetOf r) = r := by
  cases r with
  | freq b => exact regAt_freq b
  | ctWord k => exact regAt_ctWord k
  | _ => rfl

theorem busy_iff {s : State} : s.busy = true ↔ s.phase ≠ .idle := by
  cases h : s.phase <;> simp [State.busy, h, Phase.command]

@[simp] theorem statusWord_busy (s : State) : (statusWord s).getLsbD 0 = s.busy := by
  simp only [statusWord, BitVec.getLsbD_append]; simp

end Sys2Proof.Machine
end

