-- ==== Sys2Proof/Laws/PerInstr.lean ====
section
/-! SUPPORT. Statements made per command of the opcode map (spec/30_encoding.md R112). -/

namespace Sys2Proof

/-- Decoding the word of a command gives the command back (R112). -/
def Laws.RoundTrip.Statement (i : Instr) : Prop := i.Wf → decode (encode i) = .ok i

theorem Laws.RoundTrip.nop : Laws.RoundTrip.Statement .nop := fun _ => rfl

theorem Laws.RoundTrip.clrFreq : Laws.RoundTrip.Statement .clrFreq := fun _ => rfl

theorem Laws.RoundTrip.buildFreq : Laws.RoundTrip.Statement .buildFreq := fun _ => rfl

theorem Laws.RoundTrip.buildHdr : Laws.RoundTrip.Statement .buildHdr := fun _ => rfl

theorem Laws.RoundTrip.genTable : Laws.RoundTrip.Statement .genTable := fun _ => rfl

theorem Laws.RoundTrip.compress : Laws.RoundTrip.Statement .compress := fun _ => rfl

theorem Laws.RoundTrip.decompress : Laws.RoundTrip.Statement .decompress := fun _ => rfl

theorem Laws.RoundTrip.emitHdr : Laws.RoundTrip.Statement .emitHdr := fun _ => rfl

theorem Laws.RoundTrip.discard : Laws.RoundTrip.Statement .discard := fun _ => rfl

end Sys2Proof
end

