-- ==== Sys2Proof/Tests/Slice0.lean ====
section
/-! SUPPORT. Tests of the model: what WellFormed refuses, the words of the opcode map, one step of each command on the
spec's vectors (spec/95_test_vectors.md L2), and for each obligation with hypotheses a state and operands that meet
them. -/

namespace Sys2Proof.Tests

open Sys2Proof.Machine

/-! ### WellFormed refuses -/

theorem test_wf_reserved_bit : Wf.reservedClear 0x00000100#32 = false ∧ Wf.commandWord 0x80000000#32 = false := by decide

theorem test_wf_reserved_opcode : Wf.opcodeListed 0x00000009#32 = false ∧ Wf.commandWord 0x000000FF#32 = false := by decide

theorem test_wf_access_width : Wf.access 0x008 2 = false ∧ Wf.access 0x008 8 = false := by decide

theorem test_wf_access_align : Wf.access 0x00A 4 = false := by decide

theorem test_wf_access_range : Wf.access 0x800 4 = false ∧ Wf.access 0x7FC 4 = true := by decide

theorem test_wf_marker_length : Wf.markerLength [] = false ∧ Wf.markerLength (List.replicate 257 0x41#8) = false := by
  decide +kernel

theorem test_wf_marker_line : Wf.markerOneLine [0x41#8, 0x0A#8] = false := by decide

theorem test_wf_marker_key : Wf.markerNoKey [0x31#8, 0x32#8] = false ∧ Wf.marker [0x37#8] = false := by decide

/-! ### The opcode map (R110, R112): OPCODE in [7:0], RSVD [31:8] zero -/

theorem test_decode_nop : decode 0b00000000000000000000000000000000#32 = .ok .nop := by decide
theorem test_decode_clrFreq : decode 0b00000000000000000000000000000001#32 = .ok .clrFreq := by decide
theorem test_decode_buildFreq : decode 0b00000000000000000000000000000010#32 = .ok .buildFreq := by decide
theorem test_decode_buildHdr : decode 0b00000000000000000000000000000011#32 = .ok .buildHdr := by decide
theorem test_decode_genTable : decode 0b00000000000000000000000000000100#32 = .ok .genTable := by decide
theorem test_decode_compress : decode 0b00000000000000000000000000000101#32 = .ok .compress := by decide
theorem test_decode_decompress : decode 0b00000000000000000000000000000110#32 = .ok .decompress := by decide
theorem test_decode_emitHdr : decode 0b00000000000000000000000000000111#32 = .ok .emitHdr := by decide
theorem test_decode_discard : decode 0b00000000000000000000000000001000#32 = .ok .discard := by decide

theorem test_decode_refuses : decode 0x00000009#32 = .error .reservedOpcode ∧ decode 0x00000100#32 = .error .reservedBits ∧
    decodeTableWord 32 0x00000003 = some .buildHdr ∧ decodeTableWord 32 0x00000109 = none := by decide

/-! ### States of the tests -/

/-- The state after reset with FREQ all 0 and the marker "EOF". -/
def base : State := State.afterReset (Vector.replicate 256 0) [0x45#8, 0x4F#8, 0x46#8]

/-- `base` with an engine phase. -/
def inPhase (p : Phase) : State := { base with phase := p }

/-- `base` with one move to make. -/
def moving (m : Move) : State := { base with moves := [m] }

/-- `base` at COMPRESS, with one move to make. -/
def movingBusy (m : Move) : State := { base with phase := .compTake, moves := [m] }

/-- FREQ with one nonzero entry. -/
def oneFreq (x : Fin 256) (f : Word) : Vector Word 256 := (Vector.replicate 256 0).set x.val f

/-- The arena of vector V1. -/
def v1Arena : List Node :=
  [.leaf 97 (some 5), .leaf 98 (some 2), .leaf 256 (some 1), .internal (some 3) (some 2) (some 1),
    .internal (some 8) (some 3) (some 0)]

/-- The code table of vector V1. -/
def v1Table : Vector CtEntry 257 :=
  (((Vector.replicate 257 CtEntry.empty).set 97 ⟨true, [true]⟩).set 98 ⟨true, [false, true]⟩).set 256
    ⟨true, [false, false]⟩

/-- Vector V1 after GEN_TABLE, in a phase, with tokens on SRC. -/
def v1 (p : Phase) (src : List SrcToken) : State :=
  { base with arena := v1Arena, root := some 4, treeValid := true, ctValid := true, ct := v1Table, phase := p, src := src }

/-- A tree of one node, in a phase, with tokens on SRC. -/
def oneNode (n : Node) (p : Phase) (src : List SrcToken) : State :=
  { base with arena := [n], root := some 0, treeValid := true, treeMode := true, phase := p, src := src }

/-- One field of the next state an engine step answers. -/
def nextField {α : Type} (f : State → α) (a : Answer) : Option α :=
  match a with
  | .next t => some (f t)
  | .fault _ => none
  | .refused _ => none

/-! ### One step of each command -/

/-- V26: NOP clears OVERRUN. -/
theorem test_nop : nextField (fun t => (t.overrun, t.busy)) (exec .nop { inPhase (.start .nop) with overrun := true }) =
    some (false, false) := by decide

/-- V28: CLR_FREQ. -/
theorem test_clrFreq : nextField (fun t => (freqEntry t 0x61, freqEntry t 255))
    (exec .clrFreq { inPhase (.start .clrFreq) with freq := oneFreq 0x61 5 }) = some (0, 0) := by decide

/-- V2: FREQ[0x78] = 3 only: `0: Leaf 120 3`, `1: Leaf 256 1`, `2: Int 257 4 1 0`. -/
theorem test_buildFreq : nextField (fun t => (t.root, t.arena))
    (exec .buildFreq { inPhase (.start .buildFreq) with freq := oneFreq 0x78 3 }) =
    some (some 2, [.leaf 120 (some 3), .leaf 256 (some 1), .internal (some 4) (some 1) (some 0)]) := by decide +kernel

/-- V6a: the empty table. -/
theorem test_buildFreq_empty : nextField (fun t => (t.fault, t.errCause, t.errInfo)) (exec .buildFreq (inPhase (.start .buildFreq))) =
    some (true, 1, 0) := by decide +kernel

/-- V12: the key line `007` names symbol 7. -/
theorem test_buildHdr_key : nextField (fun t => match t.phase with | .hdr h => some (h.pk, h.ln) | _ => none)
    (exec .buildHdr { inPhase (.hdr { HdrState.cleared with lb := [0x30#8, 0x30#8, 0x37#8] }) with src := [SrcToken.d 0x0A#8] }) =
    some (some (7, 1)) := by decide

/-- V12: `97\n1` with an unterminated tail: one pair, NODE_COUNT 2. -/
theorem test_buildHdr_tail : nextField (fun t => (t.root, t.arena, t.treeValid))
    (exec .buildHdr { inPhase (.hdr { HdrState.cleared with lb := [0x31#8], ln := 1, pk := 97 }) with src := [SrcToken.eos] }) =
    some (some 0, [.internal none none (some 1), .leaf 97 none], true) := by decide

/-- V1: GEN_TABLE: 'a' "1", 'b' "01", EOF "00". -/
theorem test_genTable : nextField (fun t => (ctEntry t 97, ctEntry t 98, ctEntry t 256, (ctEntry t 99).valid))
    (exec .genTable { v1 (.start .genTable) [] with ct := Vector.replicate 257 CtEntry.empty, ctValid := false }) =
    some (⟨true, [true]⟩, ⟨true, [false, true]⟩, ⟨true, [false, false]⟩, false) := by decide +kernel

/-- V7: GEN_TABLE with no tree. -/
theorem test_genTable_empty : nextField (fun t => (t.errCause, t.errInfo, t.ctValid)) (exec .genTable (inPhase (.start .genTable))) =
    some (4, 0, false) := by decide

/-- V18b: 'c' has no code. -/
theorem test_compress_unknown : nextField (fun t => (t.errCause, t.errInfo, t.snk, t.src))
    (exec .compress (v1 .compTake [SrcToken.d 0x63#8, SrcToken.eos])) = some (6, 0x63, [], [SrcToken.eos]) := by decide

/-- V18: the second bit of 'b' is 1, and then the next byte is taken. -/
theorem test_compress_bit : nextField (fun t => (t.snk, t.outCount, t.phase)) (exec .compress (v1 (.compPut 98 1) [])) =
    some ([SnkToken.d 1], 1, .compTake) := by decide

/-- V19: bit 1 at the root of V1 puts 'a', whatever DATA[7:1] holds. -/
theorem test_decompress_leaf : nextField (fun t => (t.snk, t.inCount, t.phase))
    (exec .decompress (v1 (.decGeneral 4 4) [SrcToken.d 0x03#8])) = some ([SnkToken.d 0x61#8], 1, .decGeneral 4 4) := by decide

/-- V23: node 2 has no right child. -/
theorem test_decompress_null : nextField (fun t => (t.errCause, t.errInfo, t.inCount))
    (exec .decompress { inPhase (.decGeneral 0 2) with
      arena := [.internal none (some 2) (some 1), .leaf 97 none, .internal none (some 3) none, .leaf 256 none],
      root := some 0, treeValid := true, treeMode := true, src := [SrcToken.d 1, SrcToken.eos] }) =
    some (7, 0x00010002, 1) := by decide

/-- V8: the text begins with '9', and its last byte before CLOSE is the line terminator. -/
theorem test_emitHdr : nextField (fun t => (t.snk, t.phase)) (exec .emitHdr (v1 (.emitPut 97 0) [])) =
    some ([SnkToken.d 0x39#8], .emitPut 97 1) ∧
    nextField (fun t => (t.snk, t.phase)) (exec .emitHdr (v1 (.emitPut 256 6) [])) = some ([SnkToken.d 0x0A#8], .emitClose) := by decide

/-- V27: DISCARD after V1. -/
theorem test_discard : nextField (fun t => (t.root, t.arena, t.treeValid, t.ctValid)) (exec .discard (v1 (.start .discard) [])) =
    some (none, [], false, false) ∧
    nextField (fun t => (ctEntry t 97).valid) (exec .discard (v1 (.start .discard) [])) = some false := by decide +kernel

/-! ### Witnesses: each obligation's hypotheses are met, clause by clause -/

theorem witness_DecodeInvertsEncode : decode 0x00000008#32 = .ok .discard ∧
    (0x00000008#32).extractLsb' 8 24 = 0#24 ∧ ((0x00000008#32).extractLsb' 0 8).toNat ≤ 8 := by decide

theorem witness_LegalWordIsAccepted : ∃ (s : State) (rest : List Move) (i : Instr), s.busy = false ∧
    s.moves = .act (.write 0x008 4 (encode i)) :: rest :=
  ⟨moving (.act (.write 0x008 4 (encode .nop))), [], .nop, by decide, rfl⟩

theorem witness_IllegalWordFaultsAtAcceptance :
    (∃ (s : State) (rest : List Move) (w : Word), s.phase = .idle ∧ w.extractLsb' 8 24 ≠ 0#24 ∧
      s.moves = .act (.write 0x008 4 w) :: rest) ∧
    (∃ (s : State) (rest : List Move) (w : Word), s.phase = .idle ∧ 9 ≤ (w.extractLsb' 0 8).toNat ∧
      s.moves = .act (.write 0x008 4 w) :: rest) :=
  ⟨⟨moving (.act (.write 0x008 4 0x00000100)), [], 0x00000100, rfl, by decide, rfl⟩,
    ⟨moving (.act (.write 0x008 4 0x00000009)), [], 0x00000009, rfl, by decide, rfl⟩⟩

theorem witness_BusyWordOnlySetsOverrun : ∃ (s : State) (rest : List Move) (w : Word), s.busy = true ∧
    s.moves = .act (.write 0x008 4 w) :: rest :=
  ⟨movingBusy (.act (.write 0x008 4 0xFFFFFFFF)), [], 0xFFFFFFFF, by decide, rfl⟩

theorem witness_StepRunsTheAcceptedCommand :
    (∃ (s : State) (i : Instr), s.phase.command = some i ∧ s.moves = []) ∧
    (∃ (s : State) (i : Instr) (rest : List Move), s.phase.command = some i ∧ s.moves = .engine :: rest) ∧
    (∃ s : State, s.phase = .idle ∧ s.moves = []) ∧
    (∃ (s : State) (rest : List Move), s.phase = .idle ∧ s.moves = .engine :: rest) :=
  ⟨⟨inPhase (.start .compress), .compress, rfl, rfl⟩, ⟨movingBusy .engine, .compress, [], rfl, rfl⟩, ⟨base, rfl, rfl⟩,
    ⟨moving .engine, [], rfl, rfl⟩⟩

theorem witness_ResetMoveLeavesTheResetState : ∃ (s : State) (rest : List Move), s.moves = .act .reset :: rest :=
  ⟨movingBusy (.act .reset), [], rfl⟩

theorem witness_UndefinedAccessesAreRefused :
    (∃ (s : State) (rest : List Move), s.moves = .act (.read 0x008 2) :: rest ∧ 2 ≠ 4) ∧
    (∃ (s : State) (rest : List Move) (v : Word), s.moves = .act (.write 0x00A 4 v) :: rest ∧ 0x00A % 4 ≠ 0) ∧
    (∃ (s : State) (rest : List Move), s.moves = .act (.read 0x800 4) :: rest ∧ 0x800 ≤ 0x800) ∧
    (∃ (s : State) (rest : List Move), s.moves = .act (.read 0x7FC 4) :: rest ∧ 0x7FC % 4 = 0 ∧ 0x7FC < 0x800) ∧
    (∃ (s : State) (rest : List Move) (v : Word), s.moves = .act (.write 0x000 4 v) :: rest ∧ 0x000 % 4 = 0) :=
  ⟨⟨moving (.act (.read 0x008 2)), [], rfl, by decide⟩, ⟨moving (.act (.write 0x00A 4 0)), [], 0, rfl, by decide⟩,
    ⟨moving (.act (.read 0x800 4)), [], rfl, by decide⟩, ⟨moving (.act (.read 0x7FC 4)), [], rfl, by decide⟩,
    ⟨moving (.act (.write 0x000 4 1)), [], 1, rfl, by decide⟩⟩

theorem witness_ReservedOffsetsReadZero : ∀ off ∈ [0x044, 0x05C, 0x080, 0x3FC],
    off % 4 = 0 ∧ 0x040 < off ∧ off < 0x400 ∧ (off < 0x060 ∨ 0x080 ≤ off) ∧
    (∃ (s : State) (rest : List Move), s.moves = .act (.read off 4) :: rest) ∧
    ∃ (s : State) (rest : List Move) (v : Word), s.moves = .act (.write off 4 v) :: rest := by
  intro off h
  refine ⟨?_, ?_, ?_, ?_, ⟨moving (.act (.read off 4)), [], rfl⟩, ⟨movingBusy (.act (.write off 4 1)), [], 1, rfl⟩⟩ <;>
    revert off <;> decide

theorem witness_ReadOnlyRegistersIgnoreWrites :
    (∀ off ∈ [0x000, 0x00C, 0x040, 0x060, 0x07C], off % 4 = 0 ∧ (off ≤ 0x040 ∨ (0x060 ≤ off ∧ off < 0x080)) ∧
      off ≠ 0x008 ∧ off ≠ 0x028 ∧ off ≠ 0x030) ∧
    (∃ (s : State) (rest : List Move) (v : Word), s.moves = .act (.write 0x040 4 v) :: rest) ∧
    ∀ off ∈ [0x000, 0x004, 0x008], ∃ (s : State) (rest : List Move), s.moves = .act (.read off 4) :: rest :=
  ⟨by decide, ⟨movingBusy (.act (.write 0x040 4 1)), [], 1, rfl⟩, fun off _ => ⟨moving (.act (.read off 4)), [], rfl⟩⟩

theorem witness_SelectorsStoreTheirBits : ∀ off ∈ [0x028, 0x030],
    (∃ (s : State) (rest : List Move) (v : Word), s.moves = .act (.write off 4 v) :: rest) ∧
    ∃ (s : State) (rest : List Move), s.moves = .act (.read off 4) :: rest :=
  fun off _ => ⟨⟨movingBusy (.act (.write off 4 0xFFFFFFFF)), [], _, rfl⟩, ⟨moving (.act (.read off 4)), [], rfl⟩⟩

theorem witness_FreqEntriesStoreWrites : ∀ b ∈ [(0 : Fin 256), 255],
    (∃ (s : State) (rest : List Move) (v : Word), s.moves = .act (.write (0x400 + 4 * b.val) 4 v) :: rest ∧ s.busy = true) ∧
    (∃ (s : State) (rest : List Move) (v : Word), s.moves = .act (.write (0x400 + 4 * b.val) 4 v) :: rest ∧ s.busy = false) ∧
    (∃ (s : State) (rest : List Move), s.moves = .act (.read (0x400 + 4 * b.val) 4) :: rest) ∧ ∃ c : Fin 256, c ≠ b :=
  fun b _ => ⟨⟨movingBusy (.act (.write (0x400 + 4 * b.val) 4 1)), [], 1, rfl, rfl⟩,
    ⟨moving (.act (.write (0x400 + 4 * b.val) 4 1)), [], 1, rfl, rfl⟩,
    ⟨moving (.act (.read (0x400 + 4 * b.val) 4)), [], rfl⟩, if b = 0 then 1 else 0, by
      split
      · rename_i h; rw [h]; decide
      · rename_i h; exact fun he => h he.symm⟩

theorem witness_BusyReadbackIsUnspecified :
    (∀ off ∈ [0x000, 0x040, 0x044, 0x060, 0x07C, 0x400, 0x7FC],
      (∃ (s : State) (rest : List Move), s.moves = .act (.read off 4) :: rest ∧ s.busy = true) ∧
      ∃ (s : State) (rest : List Move), s.moves = .act (.read off 4) :: rest ∧ s.busy = false) ∧
    (∃ k : Fin 8, 0x07C = 0x060 + 4 * k.val ∧ Reg.ctWord 7 = .ctWord k) ∧
    ∃ b : Fin 256, 0x7FC = 0x400 + 4 * b.val ∧ Reg.freq 255 = .freq b :=
  ⟨fun off _ => ⟨⟨movingBusy (.act (.read off 4)), [], rfl, rfl⟩, ⟨moving (.act (.read off 4)), [], rfl, rfl⟩⟩,
    ⟨7, by decide, rfl⟩, ⟨255, by decide, rfl⟩⟩

theorem witness_ReadbackRegisters :
    base.root = none ∧ (v1 .idle []).root = some 4 ∧ (v1 .idle []).arena.length ≤ 513 ∧
    257 ≤ ({ base with ctSel := 257 } : State).ctSel.toNat ∧
    (({ base with ctSel := 256 } : State).ctSel.toNat = (256 : Sym).val ∧ (ctEntry base 256).valid = false) ∧
    (({ v1 .idle [] with ctSel := 98 } : State).ctSel.toNat = (98 : Sym).val ∧ (ctEntry (v1 .idle []) 98).valid = true ∧
      (ctEntry (v1 .idle []) 98).code.length ≤ 256) ∧
    base.arena.length ≤ base.nodeSel.toNat ∧
    ({ v1 .idle [] with nodeSel := 0 } : State).arena[0]? = some (.leaf 97 (some 5)) ∧
    ({ v1 .idle [] with nodeSel := 4 } : State).arena[4]? = some (.internal (some 8) (some 3) (some 0)) := by decide

theorem witness_WaitPollsStatus :
    (∃ (s : State) (rest : List Move), s.moves = .act .wait :: rest ∧ s.busy = true) ∧
    ∃ (s : State) (rest : List Move), s.moves = .act .wait :: rest ∧ s.busy = false :=
  ⟨⟨movingBusy (.act .wait), [], rfl, by decide⟩, ⟨moving (.act .wait), [], rfl, by decide⟩⟩

theorem witness_AgentsMoveThePorts :
    (∃ (s : State) (rest : List Move) (tok : SrcToken), s.moves = .act (.offer tok) :: rest ∧ s.src ≠ []) ∧
    (∃ (s : State) (rest : List Move), s.moves = .act .drain :: rest ∧ s.src ≠ []) ∧
    (∃ (s : State) (rest : List Move), s.moves = .act (.sink false) :: rest ∧ s.snkReady = true) ∧
    (∃ (s : State) (rest : List Move), s.moves = .act (.presence false true) :: rest ∧ s.busy = false) ∧
    (∃ (s : State) (rest : List Move), s.moves = .act (.presence true true) :: rest ∧ s.busy = true ∧
      true = s.srcPresent ∧ true = s.snkPresent) ∧
    ∃ (s : State) (rest : List Move), s.moves = .act (.presence true false) :: rest ∧ s.busy = true ∧
      false ≠ s.snkPresent :=
  ⟨⟨{ moving (.act (.offer (.d 1))) with src := [.eos] }, [], .d 1, rfl, by decide⟩,
    ⟨{ movingBusy (.act .drain) with src := [.eos] }, [], rfl, by decide⟩, ⟨moving (.act (.sink false)), [], rfl, rfl⟩,
    ⟨moving (.act (.presence false true)), [], rfl, rfl⟩, ⟨movingBusy (.act (.presence true true)), [], rfl, rfl, rfl, rfl⟩,
    ⟨movingBusy (.act (.presence true false)), [], rfl, rfl, by decide⟩⟩

/-- A token goes to the end of SRC (R90). -/
theorem test_offer_appends :
    nextField State.src (step { moving (.act (.offer .eos)) with src := [.d 1] }) = some [.d 1, .eos] := by decide

theorem witness_EnginePortsAreFifos : ∃ t, exec .nop base = .next t := ⟨_, rfl⟩

theorem witness_EngineHoldsOnItsPorts :
    (∃ (s : State) (i : Instr), s.phase.command = some i ∧ s.src = [] ∧ s.phase = .compTake) ∧
    (∃ (s : State) (i : Instr) (h : HdrState), s.phase.command = some i ∧ s.src = [] ∧ s.phase = .hdr h) ∧
    (∃ (s : State) (i : Instr) (r p : Nat), s.phase.command = some i ∧ s.src = [] ∧ s.phase = .decGeneral r p) ∧
    (∃ (s : State) (i : Instr) (r : Nat), s.phase.command = some i ∧ s.src = [] ∧ s.phase = .decDegenerate r) ∧
    (∀ p ∈ [Phase.compClose, .emitClose, .decStop true],
      ∃ (s : State) (i : Instr), s.phase.command = some i ∧ s.snkReady = false ∧ s.phase = p) ∧
    (∃ (s : State) (y : Sym) (n : Nat), s.snkReady = false ∧ s.phase = .compPut y n ∧ n < (ctEntry s y).code.length) ∧
    (∃ (s : State) (y : Sym) (n : Nat), s.snkReady = false ∧ s.phase = .emitPut y n ∧ n < (pairLines s y).length) ∧
    -- the second bit of "01", the code of 'b' in V1, and a one-leaf tree
    (∃ (s : State) (data : Byte) (rest : List SrcToken) (r p c : Nat), s.snkReady = false ∧
      s.src = ⟨false, data⟩ :: rest ∧ s.phase = .decGeneral r p ∧ link s.arena p (data.getLsbD 0) = some c ∧
      IsLeaf s.arena c (symOfByte 98)) ∧
    ∃ (s : State) (data : Byte) (rest : List SrcToken) (r : Nat), s.snkReady = false ∧
      s.src = ⟨false, data⟩ :: rest ∧ s.phase = .decDegenerate r ∧ IsLeaf s.arena r (symOfByte 98) :=
  ⟨⟨inPhase .compTake, _, rfl, rfl, rfl⟩, ⟨inPhase (.hdr HdrState.cleared), _, _, rfl, rfl, rfl⟩,
    ⟨inPhase (.decGeneral 4 4), _, _, _, rfl, rfl, rfl⟩, ⟨inPhase (.decDegenerate 0), _, _, rfl, rfl, rfl⟩,
    fun p hp => by
      simp only [List.mem_cons, List.not_mem_nil, or_false] at hp
      rcases hp with rfl | rfl | rfl <;> exact ⟨{ inPhase _ with snkReady := false }, _, rfl, rfl, rfl⟩,
    ⟨{ v1 (.compPut 97 0) [] with snkReady := false }, 97, 0, rfl, rfl, by decide⟩,
    ⟨{ v1 (.emitPut 97 0) [] with snkReady := false }, 97, 0, rfl, rfl, by decide⟩,
    ⟨{ v1 (.decGeneral 4 3) [.d 1] with snkReady := false }, 1, [], 4, 3, 1, rfl, rfl, rfl, by decide, some 2, rfl⟩,
    ⟨{ oneNode (.leaf 98 none) (.decDegenerate 0) [.d 0] with snkReady := false }, 0, [], 0, rfl, rfl, rfl, none, rfl⟩⟩

theorem witness_CommandsLeaveHostStateAlone : ∃ t, exec .clrFreq base = .next t := ⟨_, rfl⟩

theorem witness_FlagsHaveTheirWriters :
    (∃ t, exec .discard (v1 (.start .discard) []) = .next t ∧ t.root ≠ some 4 ∧ t.ctValid = false) ∧
    nextField State.ctValid (exec .genTable { v1 (.start .genTable) [] with ctValid := false }) = some true :=
  ⟨⟨_, rfl, by decide, rfl⟩, by decide +kernel⟩

theorem witness_CommandsRaiseTheirOwnCauses : ∃ t, exec .genTable base = .next t ∧ base.fault = false ∧ t.fault = true :=
  ⟨_, rfl, rfl, rfl⟩

theorem witness_FaultEndsTheCommand :
    ∃ t, exec .buildHdr { inPhase (.hdr HdrState.cleared) with src := [SrcToken.d 0x0A#8] } = .next t ∧ t.fault = true ∧
      t.errCause.extractLsb' 8 8 ≠ 0#8 := ⟨_, rfl, rfl, by decide⟩

theorem witness_StartCheckFaultsChangeNothingElse : ∃ (i : Instr) (s t : State), s.phase = .start i ∧ s.fault = false ∧
    exec i s = .next t ∧ t.fault = true := ⟨.genTable, inPhase (.start .genTable), _, rfl, rfl, rfl, rfl⟩

theorem witness_NopClearsOverrun :
    (∃ t, exec .nop { base with overrun := true } = .next t ∧ t.overrun = false) ∧
    ∃ (s : State) (rest : List Move), s.busy = true ∧ s.moves = .act (.write 0x008 4 (encode .nop)) :: rest :=
  ⟨⟨_, rfl, rfl⟩, movingBusy (.act (.write 0x008 4 (encode .nop))), [], by decide, rfl⟩

theorem witness_MissingInputsFault : (∀ b : Fin 256, base.freq[b.val] = 0#32) ∧ base.treeValid = false :=
  ⟨fun b => by simp [base, State.afterReset], rfl⟩

/-- A state ready for BUILD_FREQ: one nonzero count. -/
def counted (f : Word) : State := { inPhase (.start .buildFreq) with freq := oneFreq 0x78 f }

theorem counted_freq (f : Word) : (counted f).freq[(0x78 : Fin 256).val] = f := by
  simp [counted, oneFreq]

theorem witness_BuildFreqLayout : ∃ s : State, ∃ b : Fin 256, s.freq[b.val] ≠ 0#32 :=
  ⟨counted 3, 0x78, by rw [counted_freq]; decide⟩

theorem witness_BuildFreqMergesSmallestKeys : ∃ s t : State, (∃ b : Fin 256, s.freq[b.val] ≠ 0#32) ∧
    exec .buildFreq s = .next t ∧ ∃ (k : Nat) (f : Option NodeFreq) (a b : Nat),
      t.arena[k]? = some (Node.internal f (some a) (some b)) :=
  ⟨counted 3, _, ⟨0x78, by rw [counted_freq]; decide⟩,
    execBuildFreq_next ⟨0x78, by rw [counted_freq]; decide⟩, 2, some 4, 1, 0, by decide +kernel⟩

theorem witness_BuildFreqSumsExactly : ∃ s t : State, (∃ b : Fin 256, s.freq[b.val] ≠ 0#32) ∧
    exec .buildFreq s = .next t ∧ t.arena[2]? = some (.internal (some 0x100000000#40) (some 1) (some 0)) :=
  ⟨counted 0xFFFFFFFF, _, ⟨0x78, by rw [counted_freq]; decide⟩,
    execBuildFreq_next ⟨0x78, by rw [counted_freq]; decide⟩, by decide +kernel⟩

theorem witness_BuildFreqTreeIsFull : ∃ s t : State, (∃ b : Fin 256, s.freq[b.val] ≠ 0#32) ∧ exec .buildFreq s = .next t :=
  ⟨counted 1, _, ⟨0x78, by rw [counted_freq]; decide⟩, execBuildFreq_next ⟨0x78, by rw [counted_freq]; decide⟩⟩

theorem witness_SingleSymbolCodes : ∀ f ∈ [1#32, 2#32, 0xFFFFFFFF#32], ∃ (s : State) (x : Fin 256),
    s.freq[x.val] = f ∧ s.freq[x.val] ≠ 0#32 ∧ ∀ b : Fin 256, b ≠ x → s.freq[b.val] = 0#32 := by
  intro f hf
  refine ⟨counted f, 0x78, counted_freq f, ?_, fun b hb => ?_⟩
  · rw [counted_freq]
    simp only [List.mem_cons, List.not_mem_nil, or_false] at hf
    rcases hf with rfl | rfl | rfl <;> decide
  · have hne : (0x78 : Fin 256).val ≠ b.val := fun h => hb (Fin.ext h).symm
    simp only [counted, oneFreq, inPhase]
    rw [Vector.getElem_set_ne _ _ hne]; simp

theorem witness_BuildHdrCollectsLines :
    (∃ s : State, s.phase = .start .buildHdr ∧ s.srcPresent = false) ∧
    (∃ s : State, s.phase = .start .buildHdr ∧ s.srcPresent = true) ∧
    (∃ (s : State) (h : HdrState) (c : Byte) (rest : List SrcToken), s.phase = .hdr h ∧ s.src = ⟨false, c⟩ :: rest ∧
      c ≠ 0x0A#8 ∧ h.lb.length = 255) ∧
    ∃ (s : State) (h : HdrState) (c : Byte) (rest : List SrcToken), s.phase = .hdr h ∧ s.src = ⟨false, c⟩ :: rest ∧
      c ≠ 0x0A#8 ∧ h.lb.length = 256 :=
  ⟨⟨{ inPhase (.start .buildHdr) with srcPresent := false }, rfl, rfl⟩, ⟨inPhase (.start .buildHdr), rfl, rfl⟩,
    ⟨{ inPhase (.hdr { HdrState.cleared with lb := List.replicate 255 0x30#8 }) with src := [SrcToken.d 0x31#8] }, _, _, _,
      rfl, rfl, by decide, List.length_replicate⟩,
    ⟨{ inPhase (.hdr { HdrState.cleared with lb := List.replicate 256 0x30#8 }) with src := [SrcToken.d 0x31#8] }, _, _, _,
      rfl, rfl, by decide, List.length_replicate⟩⟩

/-- BUILD_HDR about to take the end of a line. -/
def atLineEnd (h : HdrState) : State := { inPhase (.hdr h) with src := [SrcToken.d 0x0A#8] }

theorem witness_KeyLinesResolve :
    (∀ h : HdrState, (atLineEnd h).phase = .hdr h ∧ (atLineEnd h).src = [⟨false, 0x0A#8⟩]) ∧
    HdrState.cleared.ln.getLsbD 0 = false ∧ Wf.marker base.marker = true ∧
    -- no key: too long, no digit, above 255
    ([0x78#8] ≠ base.marker ∧ ¬(0x30 ≤ (0x78#8).toNat ∧ (0x78#8).toNat ≤ 0x39)) ∧
    ([0x32#8, 0x35#8, 0x36#8] ≠ base.marker ∧ ¬decValue [0x32#8, 0x35#8, 0x36#8] ≤ 255) ∧
    -- the marker, not placed and placed
    (HdrState.cleared.present[256] = false ∧ (HdrState.cleared.present.set 256 true)[256] = true) ∧
    -- a decimal key at both ends of its range
    (1 ≤ [0x32#8, 0x35#8, 0x35#8].length ∧ [0x32#8, 0x35#8, 0x35#8].length ≤ 3 ∧
      (∀ c ∈ [0x32#8, 0x35#8, 0x35#8], 0x30 ≤ c.toNat ∧ c.toNat ≤ 0x39) ∧ decValue [0x32#8, 0x35#8, 0x35#8] = 255) ∧
    decValue [0x30#8] = 0 := by
  refine ⟨fun h => ⟨rfl, rfl⟩, by decide, by decide, by decide, by decide, by simp [HdrState.cleared], by decide, by decide⟩

theorem witness_CodeLinesAreChecked :
    (∃ (s : State) (h : HdrState) (rest : List SrcToken), s.phase = .hdr h ∧ s.src = ⟨false, 0x0A#8⟩ :: rest ∧
      h.ln.getLsbD 0 = true ∧ h.bad = true) ∧
    ∃ (s : State) (h : HdrState) (rest : List SrcToken), s.phase = .hdr h ∧ s.src = ⟨false, 0x0A#8⟩ :: rest ∧
      h.ln.getLsbD 0 = true ∧ h.bad = false ∧ h.ovf = true :=
  ⟨⟨atLineEnd { HdrState.cleared with ln := 1, bad := true }, _, _, rfl, rfl, by decide, rfl⟩,
    ⟨atLineEnd { HdrState.cleared with ln := 1, ovf := true }, _, _, rfl, rfl, by decide, rfl, rfl⟩⟩

/-- A state of BUILD_HDR's loop meets the invariant where its working state does. -/
theorem inv_atLineEnd {h : HdrState} {b : Build} (hh : HdrInv h b) :
    Inv { atLineEnd h with root := b.root, arena := b.arena } := by
  refine Inv.mkDropped hh.build.arenaOk rfl (fun y => ?_) (fun hv => by cases hv) (fun hv => by cases hv)
    (fun _ hn => absurd rfl (hn h)) ⟨rfl, rfl, hh.hdrOk⟩ (show Wf.marker base.marker = true by decide)
  simp [ctEntry, atLineEnd, inPhase, base, State.afterReset, CtEntry.empty]

/-- The working state with a code line of symbol 2 pending. -/
theorem hdrInv_pending {h : HdrState} {b : Build} (hh : HdrInv h b) (lb : List Byte) (hl : lb.length ≤ 256) (n : Word)
    (y : Sym) (hy : h.present[y.val] = false) : HdrInv { h with lb := lb, ln := n, pk := y } b :=
  ⟨hh.build, hh.bare, hh.depth, hl, hh.present, fun _ => hy⟩

/-- The two pairs of vector V16, which fill the arena. -/
def fullPairs : List HdrPair :=
  [⟨[0x30#8], 0, List.replicate 256 false⟩, ⟨[0x31#8], 1, List.replicate 256 true⟩]

theorem inits_replicate_card (l : List (List Bool)) (h : ∀ q ∈ l, ∃ n ≤ 256, q = List.replicate n false ∨ q = List.replicate n true) :
    l.dedup.length ≤ 513 := by
  rw [← List.card_toFinset]
  have hsub : l.toFinset ⊆ (Finset.range 257).image (fun n => List.replicate n false) ∪
      (Finset.range 256).image (fun n => List.replicate (n + 1) true) := by
    intro q hq
    obtain ⟨n, hn, rfl | rfl⟩ := h q (List.mem_toFinset.mp hq)
    · exact Finset.mem_union_left _ (Finset.mem_image_of_mem _ (Finset.mem_range.mpr (by omega)))
    · cases n with
      | zero => exact Finset.mem_union_left _ (Finset.mem_image.mpr ⟨0, by simp, rfl⟩)
      | succ n => exact Finset.mem_union_right _ (Finset.mem_image.mpr ⟨n, Finset.mem_range.mpr (by omega), rfl⟩)
  refine (Finset.card_le_card hsub).trans ((Finset.card_union_le _ _).trans ?_)
  have h1 := Finset.card_image_le (s := Finset.range 257) (f := fun n => List.replicate n false)
  have h2 := Finset.card_image_le (s := Finset.range 256) (f := fun n => List.replicate (n + 1) true)
  simp only [Finset.card_range] at h1 h2
  omega

theorem replicate_prefix {n m : Nat} {x y : Bool} (hn : n ≠ 0) (h : List.replicate n x <+: List.replicate m y) : x = y :=
  List.eq_of_mem_replicate (h.subset (List.mem_replicate.mpr ⟨hn, rfl⟩))

theorem fullPairs_ok : HeaderOk base.marker fullPairs where
  keys p hp := by
    simp only [fullPairs, List.mem_cons, List.not_mem_nil, or_false] at hp
    rcases hp with rfl | rfl <;> exact ⟨by decide, by decide, by decide⟩
  symbols := by decide
  lengths p hp := by
    simp only [fullPairs, List.mem_cons, List.not_mem_nil, or_false] at hp
    rcases hp with rfl | rfl <;> exact List.length_replicate.le
  codes := by
    have hne : ∀ {x y : Bool}, x ≠ y → ¬List.replicate 256 x <+: List.replicate 256 y :=
      fun hxy hp => hxy (replicate_prefix (by decide) hp)
    simp only [fullPairs, List.pairwise_cons, List.mem_cons, List.not_mem_nil, or_false, forall_eq]
    exact ⟨⟨hne (by decide), hne (by decide)⟩, fun _ h => h.elim, List.Pairwise.nil⟩
  nodes := by
    refine inits_replicate_card _ fun q hq => ?_
    simp only [fullPairs, List.flatMap_cons, List.flatMap_nil, List.append_nil, List.mem_append, List.mem_inits] at hq
    rcases hq with hq | hq
    · obtain ⟨hn, he⟩ := List.prefix_replicate_iff.mp hq
      exact ⟨_, hn, .inl he⟩
    · obtain ⟨hn, he⟩ := List.prefix_replicate_iff.mp hq
      exact ⟨_, hn, .inr he⟩

theorem fullPairs_nodes {q : List Bool} : (∃ p ∈ fullPairs, q <+: p.code) ↔
    ∃ n ≤ 256, q = List.replicate n false ∨ q = List.replicate n true := by
  simp only [fullPairs, List.mem_cons, List.not_mem_nil, or_false, exists_eq_or_imp, exists_eq_left,
    List.prefix_replicate_iff]
  constructor
  · rintro (⟨h, he⟩ | ⟨h, he⟩)
    · exact ⟨_, h, .inl he⟩
    · exact ⟨_, h, .inr he⟩
  · rintro ⟨n, hn, rfl | rfl⟩
    · exact .inl ⟨by rw [List.length_replicate]; exact hn, by rw [List.length_replicate]⟩
    · exact .inr ⟨by rw [List.length_replicate]; exact hn, by rw [List.length_replicate]⟩

/-- The tree of the two pairs has 513 nodes. -/
theorem fullPairs_arena {h : HdrState} {b : Build} (B : Between h b fullPairs) : 513 ≤ b.arena.length := by
  have hn : ∀ q, (∃ n ≤ 256, q = List.replicate n false ∨ q = List.replicate n true) → ∃ k, nodeAt b q = some k := by
    intro q hq
    exact Option.isSome_iff_exists.mp ((B.nodes q).mpr (fullPairs_nodes.mpr hq))
  choose! f hf using hn
  let S : Finset (List Bool) := (Finset.range 257).image (fun n => List.replicate n false) ∪
    (Finset.range 256).image (fun n => List.replicate (n + 1) true)
  have hS : ∀ q ∈ S, ∃ n ≤ 256, q = List.replicate n false ∨ q = List.replicate n true := by
    intro q hq
    rcases Finset.mem_union.mp hq with hq | hq
    · obtain ⟨n, hn, rfl⟩ := Finset.mem_image.mp hq
      exact ⟨n, by have := Finset.mem_range.mp hn; omega, .inl rfl⟩
    · obtain ⟨n, hn, rfl⟩ := Finset.mem_image.mp hq
      exact ⟨n + 1, by have := Finset.mem_range.mp hn; omega, .inr rfl⟩
  have hcard : S.card = 513 := by
    rw [Finset.card_union_of_disjoint, Finset.card_image_of_injective, Finset.card_image_of_injective,
      Finset.card_range, Finset.card_range]
    · intro m n h
      have := congrArg List.length h
      simp only [List.length_replicate] at this
      omega
    · intro m n h
      have := congrArg List.length h
      simpa only [List.length_replicate] using this
    · rw [Finset.disjoint_left]
      intro q hq hq'
      obtain ⟨m, -, rfl⟩ := Finset.mem_image.mp hq
      obtain ⟨n, -, hn⟩ := Finset.mem_image.mp hq'
      have : true ∈ List.replicate m false := hn ▸ List.mem_replicate.mpr ⟨by omega, rfl⟩
      exact absurd (List.eq_of_mem_replicate this) (by decide)
  have hle : S.card ≤ (Finset.range b.arena.length).card := by
    refine Finset.card_le_card_of_injOn f (fun q hq => ?_) (fun q hq q' hq' he => ?_)
    · exact Finset.mem_coe.mpr (Finset.mem_range.mpr (B.inv.build.nodeAt_lt (hf q (hS q hq))))
    · have h1 := hf q (hS q hq)
      rw [he] at h1
      exact B.inv.build.nodeAt_inj h1 (hf q' (hS q' hq'))
  rw [hcard, Finset.card_range] at hle
  exact hle

/-- What the premises of CodeLinesInsertOrFault say. -/
def CodePending (s : State) (h : HdrState) : Prop :=
  Inv s ∧ s.phase = .hdr h ∧ s.src = [⟨false, 0x0A#8⟩] ∧ h.ln.getLsbD 0 = true ∧ h.bad = false ∧ h.ovf = false

theorem witness_CodeLinesInsertOrFault_collides : ∃ (s : State) (h : HdrState), CodePending s h ∧
    ∃ r d y, s.root = some r ∧ LeafAt s.arena r d y ∧ ¬PrefixFree (h.lb.map (fun c => c == 0x31#8)) d := by
  obtain ⟨h, b, B, -⟩ := Between.list (s := base) fullPairs Between.none fullPairs_ok [] 0
  have hp : h.present[(2 : Sym).val] = false := by
    rw [Bool.eq_false_iff]
    intro hc
    obtain ⟨p, hp, hs⟩ := (B.marks 2).mp hc
    simp only [List.nil_append, fullPairs, List.mem_cons, List.not_mem_nil, or_false] at hp
    rcases hp with rfl | rfl <;> exact absurd hs (by decide)
  have hleaf := (B.leaves (List.replicate 256 false) 0).mpr ⟨_, List.mem_cons_self, rfl, rfl⟩
  obtain ⟨r, hr, hl⟩ := leafFrom_iff.mp hleaf
  refine ⟨_, _, ⟨inv_atLineEnd (hdrInv_pending B.inv [0x30#8] (by decide) 1 2 hp), rfl, rfl, show (1#32).getLsbD 0 = true by decide,
      B.clear.2.2, B.clear.2.1⟩,
    r, _, 0, hr, hl, fun hpf => hpf.1 ?_⟩
  exact List.prefix_replicate_iff.mpr ⟨show 1 ≤ 256 by decide, rfl⟩

theorem witness_CodeLinesInsertOrFault_full : ∃ (s : State) (h : HdrState), CodePending s h ∧
    (¬∃ r d y, s.root = some r ∧ LeafAt s.arena r d y ∧ ¬PrefixFree (h.lb.map (fun c => c == 0x31#8)) d) ∧
    513 < s.arena.length + missingNodes s.root s.arena (h.lb.map (fun c => c == 0x31#8)) := by
  obtain ⟨h, b, B, -⟩ := Between.list (s := base) fullPairs Between.none fullPairs_ok [] 0
  have hp : h.present[(2 : Sym).val] = false := by
    rw [Bool.eq_false_iff]
    intro hc
    obtain ⟨p, hp, hs⟩ := (B.marks 2).mp hc
    simp only [List.nil_append, fullPairs, List.mem_cons, List.not_mem_nil, or_false] at hp
    rcases hp with rfl | rfl <;> exact absurd hs (by decide)
  have hnot : ∀ (n : Nat) (x : Bool), ¬[false, true] <+: List.replicate n x := by
    intro n x hc
    have h1 := List.eq_of_mem_replicate (hc.subset (show false ∈ [false, true] by decide))
    have h2 := List.eq_of_mem_replicate (hc.subset (show true ∈ [false, true] by decide))
    exact absurd (h1.trans h2.symm) (by decide)
  refine ⟨_, _, ⟨inv_atLineEnd (hdrInv_pending B.inv [0x30#8, 0x31#8] (by decide) 1 2 hp), rfl, rfl, show (1#32).getLsbD 0 = true by decide,
      B.clear.2.2, B.clear.2.1⟩, ?_, ?_⟩
  · rintro ⟨r, d, y, hr, hl, hpf⟩
    obtain ⟨p, hp, rfl, -⟩ := (B.leaves d y).mp (leafFrom_iff.mpr ⟨r, hr, hl⟩)
    simp only [List.nil_append, fullPairs, List.mem_cons, List.not_mem_nil, or_false] at hp
    refine hpf ⟨?_, fun hc => ?_⟩
    · rcases hp with rfl | rfl <;> exact hnot 256 _
    · have := hc.length_le
      rcases hp with rfl | rfl <;> exact absurd (List.length_replicate.symm.le.trans this) (show ¬256 ≤ 2 by decide)
  · have h1 := fullPairs_arena B
    have h2 : 0 < missingNodes b.root b.arena [false, true] := by
      refine List.length_pos_of_mem (a := 2) (List.mem_filter.mpr ⟨by decide, ?_⟩)
      show (nodeAt b [false, true]).isNone = true
      rw [← Option.not_isSome, Bool.not_eq_true', Bool.eq_false_iff]
      intro hc
      obtain ⟨n, -, he | he⟩ := fullPairs_nodes.mp ((B.nodes _).mp hc)
      · exact hnot n false (he ▸ List.prefix_refl _)
      · exact hnot n true (he ▸ List.prefix_refl _)
    show 513 < b.arena.length + missingNodes b.root b.arena [false, true]
    omega

theorem witness_CodeLinesInsertOrFault_fits : ∃ (s : State) (h : HdrState), CodePending s h ∧
    (¬∃ r d y, s.root = some r ∧ LeafAt s.arena r d y ∧ ¬PrefixFree (h.lb.map (fun c => c == 0x31#8)) d) ∧
    s.arena.length + missingNodes s.root s.arena (h.lb.map (fun c => c == 0x31#8)) ≤ 513 := by
  refine ⟨_, _, ⟨inv_atLineEnd (hdrInv_pending Between.none.inv [0x30#8] (by decide) 1 2 (by simp [HdrState.cleared])),
    rfl, rfl, by decide, rfl, rfl⟩, ?_, by decide⟩
  rintro ⟨r, d, y, hr, -⟩
  cases hr

theorem witness_BuildHdrEnds : ∀ n ∈ [0#32, 1#32], ∃ (s : State) (h : HdrState) (data : Byte) (rest : List SrcToken),
    s.phase = .hdr h ∧ s.src = ⟨true, data⟩ :: rest ∧ h.lb = [] ∧ h.ln = n :=
  fun n _ => ⟨{ inPhase (.hdr { HdrState.cleared with ln := n }) with src := [SrcToken.eos] }, _, _, _, rfl, rfl, rfl, rfl⟩

theorem witness_UnterminatedTailIsALine :
    (∃ (s t : State) (h : HdrState) (data : Byte) (rest : List SrcToken), s.phase = .hdr h ∧ h.lb ≠ [] ∧
      s.src = ⟨true, data⟩ :: rest ∧ exec .buildHdr { s with src := ⟨false, 0x0A#8⟩ :: s.src } = .next t ∧ t.phase = .idle) ∧
    ∃ (s t : State) (h h' : HdrState) (data : Byte) (rest : List SrcToken), s.phase = .hdr h ∧ h.lb ≠ [] ∧
      s.src = ⟨true, data⟩ :: rest ∧ exec .buildHdr { s with src := ⟨false, 0x0A#8⟩ :: s.src } = .next t ∧ t.phase = .hdr h' :=
  ⟨⟨{ inPhase (.hdr { HdrState.cleared with lb := [0x78#8] }) with src := [SrcToken.eos] }, _, _, _, _, rfl, by decide, rfl, rfl, rfl⟩,
    ⟨{ inPhase (.hdr { HdrState.cleared with lb := [0x31#8] }) with src := [SrcToken.eos] }, _, _, _, _, _, rfl, by decide, rfl, rfl, rfl⟩⟩

/-- BUILD_HDR at the end of the code line "00", with 512 nodes allocated and no ROOT. -/
def oneNodeLeft : State :=
  { atLineEnd { HdrState.cleared with lb := [0x30#8, 0x30#8], ln := 1, pk := 97 } with
    arena := List.replicate 512 (.leaf 98 none) }

/-- The path needs three nodes and one is left: that one is allocated, a placeholder, before ARENA_FULL (R169, R171). -/
theorem test_arena_full_keeps_nodes :
    nextField (fun t => (t.fault, t.errCause, t.arena.length, t.arena[511]?, t.arena[512]?)) (exec .buildHdr oneNodeLeft) =
      some (true, 0x00000703#32, 513, some (.leaf 98 none), some (.internal none none none)) := by
  decide +kernel

theorem witness_HeaderFaultDiscardsTheTree :
    (∃ (s t : State) (h : HdrState) (n : Node), s.phase = .hdr h ∧ s.fault = false ∧ exec .buildHdr s = .next t ∧
      t.fault = true ∧ s.arena[0]? = some n) ∧
    ∃ (s t : State) (h : HdrState) (n : Node), s.phase = .hdr h ∧ s.fault = false ∧ exec .buildHdr s = .next t ∧
      t.fault = true ∧ s.arena.length ≤ 512 ∧ t.arena[512]? = some n := by
  refine ⟨⟨{ atLineEnd HdrState.cleared with arena := v1Arena }, _, _, _, rfl, rfl, rfl, rfl, rfl⟩, ?_⟩
  have h := test_arena_full_keeps_nodes
  cases he : exec .buildHdr oneNodeLeft with
  | next t =>
    rw [he] at h
    have h' := Option.some.inj h
    simp only [Prod.mk.injEq] at h'
    exact ⟨oneNodeLeft, t, _, _, rfl, rfl, he, h'.1, by decide +kernel, h'.2.2.2.2⟩
  | fault f => rw [he] at h; cases h
  | refused r => rw [he] at h; cases h

theorem witness_BuildHdrBuildsTheListedTree : ∀ l ∈ [[], fullPairs], ∃ (s : State) (data : Byte) (rest : List SrcToken),
    Wf.marker s.marker = true ∧ s.phase = .start .buildHdr ∧ s.fault = false ∧ s.srcPresent = true ∧
    HeaderOk s.marker l ∧ s.src = (headerText l).map SrcToken.d ++ ⟨true, data⟩ :: rest := by
  intro l hl
  refine ⟨{ inPhase (.start .buildHdr) with src := (headerText l).map SrcToken.d ++ [SrcToken.eos] }, _, _,
    show Wf.marker base.marker = true by decide, rfl, rfl, rfl, ?_, rfl⟩
  simp only [List.mem_cons, List.not_mem_nil, or_false] at hl
  rcases hl with rfl | rfl
  · exact ⟨fun p hp => (by cases hp), List.nodup_nil, fun p hp => (by cases hp), List.Pairwise.nil, Nat.zero_le _⟩
  · exact fullPairs_ok

/-- A state with the tree BUILD_FREQ builds. -/
def grown (f : Vector Word 256) (p : Phase) : State :=
  { inPhase p with arena := (mergeAll f).1, root := some (2 * leafCount f - 2), treeValid := true }

theorem inv_grown (f : Vector Word 256) (p : Phase) (hp : PhaseOk (grown f p) p) : Inv (grown f p) := by
  refine Inv.mkDropped (mergeAll_arenaOk f) rfl (fun y => ?_) (fun _ => ⟨_, rfl, mergeAll_rootOk f⟩)
    (fun _ _ => ⟨_, rfl, mergeAll_freqTreeOk f⟩) (fun h => by cases h) hp (show Wf.marker base.marker = true by decide)
  simp [ctEntry, grown, inPhase, base, State.afterReset, CtEntry.empty]

theorem witness_GenTableRecordsEveryLeaf : ∃ (s : State) (r : Nat), Inv s ∧ s.treeValid = true ∧ s.root = some r :=
  ⟨grown (oneFreq 0x78 3) (.start .genTable), _, inv_grown _ _ trivial, rfl, rfl⟩

/-- GEN_TABLE on the tree of a FREQ completes, in a state of the invariant. -/
theorem tabled (f : Vector Word 256) : ∃ t, execGenTable (grown f (.start .genTable)) = .next t ∧ Inv t ∧
    t.ctValid = true ∧ t.treeMode = false := by
  obtain ⟨l, hl, -⟩ := visit_root_spec (mergeAll_arenaOk f) (mergeAll_rootOk f).allocated
  have hvr : visitRoot (grown f (.start .genTable)) = some l := hl
  have he : execGenTable (grown f (.start .genTable)) =
      .next (finish { grown f (.start .genTable) with
        ct := fillTable (clearValid (grown f (.start .genTable)).ct) l, ctValid := true }) := by
    unfold execGenTable
    rw [if_neg (show ¬(!(grown f (.start .genTable)).treeValid) = true from by simp [grown]), hvr]
  exact ⟨_, he, inv_genTable (inv_grown f (.start .genTable) trivial) he rfl, rfl, rfl⟩

theorem witness_TableIsPrefixFree : ∃ s t : State, Inv s ∧ step s = .next t ∧ Inv t ∧ t.ctValid = true ∧
    t.treeMode = false ∧ ∃ y z : Sym, y ≠ z ∧ (ctEntry t y).valid = true ∧ (ctEntry t z).valid = true := by
  obtain ⟨t, he, hi, hc, hm⟩ := tabled (oneFreq 0x78 3)
  have hs : step (grown (oneFreq 0x78 3) (.start .genTable)) = .next t := he
  obtain ⟨r, hr, -⟩ := hi.tree (hi.tableNeedsTree hc)
  have hrr : r = 2 * leafCount (oneFreq 0x78 3) - 2 ∧ t.arena = (mergeAll (oneFreq 0x78 3)).1 := by
    unfold execGenTable at he
    rw [if_neg (show ¬(!(grown (oneFreq 0x78 3) (.start .genTable)).treeValid) = true from by simp [grown])] at he
    split at he
    · cases he
    · cases he
      have hr : some (2 * leafCount (oneFreq 0x78 3) - 2) = some r := hr
      exact ⟨(Option.some.inj hr).symm, rfl⟩
  have hv : ∀ y : Sym, (y = 256 ∨ ∃ b : Fin 256, b.val = y.val ∧ (oneFreq 0x78 3)[b.val] ≠ 0) → (ctEntry t y).valid = true := by
    intro y hy
    obtain ⟨p, hp⟩ := (mergeAll_leafAt (oneFreq 0x78 3) y).mpr hy
    rw [← hrr.1, ← hrr.2] at hp
    exact ((hi.tableOfTree hc r hr y p).mpr hp).1
  refine ⟨_, t, inv_grown (oneFreq 0x78 3) (.start .genTable) trivial, hs, hi, hc, hm, 0x78, 256, by decide, hv _ (.inr ⟨0x78, rfl, ?_⟩), hv _ (.inl rfl)⟩
  simp [oneFreq]

theorem witness_EmitHdrSteps :
    (∃ s : State, s.phase = .start .emitHdr ∧ s.snkPresent = false) ∧
    (∃ s : State, s.phase = .start .emitHdr ∧ s.snkPresent = true ∧ s.ctValid = false) ∧
    (∃ s : State, s.phase = .start .emitHdr ∧ s.snkPresent = true ∧ s.ctValid = true) ∧
    (∃ (s : State) (y : Sym) (n : Nat) (c : Byte), s.phase = .emitPut y n ∧ s.snkReady = true ∧
      (pairLines s y)[n]? = some c ∧ n + 1 < (pairLines s y).length) ∧
    (∃ s : State, s.phase = .emitClose ∧ s.snkReady = true) :=
  ⟨⟨{ inPhase (.start .emitHdr) with snkPresent := false }, rfl, rfl⟩, ⟨inPhase (.start .emitHdr), rfl, rfl, rfl⟩,
    ⟨v1 (.start .emitHdr) [], rfl, rfl, rfl⟩, ⟨v1 (.emitPut 97 0) [], 97, 0, 0x39, rfl, rfl, by decide, by decide⟩,
    ⟨inPhase .emitClose, rfl, rfl⟩⟩

theorem witness_EmitHdrPutsCanonicalHeader : ∃ s : State, s.phase = .start .emitHdr ∧ s.snkPresent = true ∧
    s.snkReady = true ∧ s.ctValid = true := ⟨v1 (.start .emitHdr) [], rfl, rfl, rfl, rfl⟩

theorem witness_DecimalTextOfSymbols : (9 : Fin 256).val < 10 ∧ 10 ≤ (10 : Fin 256).val ∧ (99 : Fin 256).val < 100 ∧
    0x39#8 ∈ decText 9 := by decide

theorem witness_CompressStartChecks :
    (∃ s : State, s.phase = .start .compress ∧ s.srcPresent = false ∧ s.snkPresent = false) ∧
    (∃ s : State, s.phase = .start .compress ∧ s.srcPresent = true ∧ s.snkPresent = false) ∧
    (∃ s : State, s.phase = .start .compress ∧ s.srcPresent = true ∧ s.snkPresent = true ∧ s.ctValid = false) ∧
    (∃ s : State, s.phase = .start .compress ∧ s.srcPresent = true ∧ s.snkPresent = true ∧ s.ctValid = true ∧
      (ctEntry s 256).valid = false) ∧
    (∃ s : State, s.phase = .start .compress ∧ s.srcPresent = true ∧ s.snkPresent = true ∧ s.ctValid = true ∧
      (ctEntry s 256).valid = true) :=
  ⟨⟨{ inPhase (.start .compress) with srcPresent := false, snkPresent := false }, rfl, rfl, rfl⟩,
    ⟨{ inPhase (.start .compress) with snkPresent := false }, rfl, rfl, rfl⟩, ⟨inPhase (.start .compress), rfl, rfl, rfl, rfl⟩,
    ⟨{ inPhase (.start .compress) with ctValid := true }, rfl, rfl, rfl, rfl, by decide⟩,
    ⟨v1 (.start .compress) [], rfl, rfl, rfl, rfl, by decide⟩⟩

theorem witness_CompressSteps :
    (∃ (s : State) (c : Byte) (y : Sym) (rest : List SrcToken), s.phase = .compTake ∧ s.src = ⟨false, c⟩ :: rest ∧
      y.val = c.toNat ∧ (ctEntry s y).valid = false) ∧
    (∃ (s : State) (c : Byte) (y : Sym) (rest : List SrcToken), s.phase = .compTake ∧ s.src = ⟨false, c⟩ :: rest ∧
      y.val = c.toNat ∧ (ctEntry s y).valid = true) ∧
    (∃ (s : State) (data : Byte) (rest : List SrcToken), s.phase = .compTake ∧ s.src = ⟨true, data⟩ :: rest) ∧
    (∃ (s : State) (y : Sym) (n : Nat) (b : Bool), s.phase = .compPut y n ∧ s.snkReady = true ∧
      (ctEntry s y).code[n]? = some b) ∧
    (∃ s : State, s.phase = .compClose ∧ s.snkReady = true) :=
  ⟨⟨v1 .compTake [SrcToken.d 0xFF], 0xFF, 0xFF, [], rfl, rfl, by decide, by decide⟩,
    ⟨v1 .compTake [SrcToken.d 0x61], 0x61, 0x61, [], rfl, rfl, by decide, by decide⟩,
    ⟨v1 .compTake [SrcToken.eos], 0, [], rfl, rfl⟩, ⟨v1 (.compPut 98 1) [], 98, 1, true, rfl, rfl, by decide⟩,
    ⟨inPhase .compClose, rfl, rfl⟩⟩

theorem witness_CompressPutsPayload : ∀ l ∈ [[], [0x61#8, 0x62#8]], ∃ (s : State) (data : Byte) (rest : List SrcToken),
    s.phase = .start .compress ∧ s.srcPresent = true ∧ s.snkPresent = true ∧ s.snkReady = true ∧ s.ctValid = true ∧
    (ctEntry s 256).valid = true ∧ (∀ c ∈ l, (ctEntry s (symOfByte c)).valid = true) ∧
    s.src = l.map SrcToken.d ++ ⟨true, data⟩ :: rest := by
  intro l hl
  refine ⟨v1 (.start .compress) (l.map SrcToken.d ++ [SrcToken.eos]), 0, [], rfl, rfl, rfl, rfl, rfl,
    show v1Table[256].valid = true by decide, fun c hc => ?_, rfl⟩
  have hc' : c ∈ [0x61#8, 0x62#8] := by
    simp only [List.mem_cons, List.not_mem_nil, or_false] at hl
    rcases hl with rfl | rfl
    · cases hc
    · exact hc
  simp only [List.mem_cons, List.not_mem_nil, or_false] at hc'
  rcases hc' with rfl | rfl
  · exact show v1Table[(symOfByte 0x61#8).val].valid = true by decide
  · exact show v1Table[(symOfByte 0x62#8).val].valid = true by decide

theorem witness_DecompressStartChecks :
    (∃ s : State, s.phase = .start .decompress ∧ s.srcPresent = false ∧ s.snkPresent = false) ∧
    (∃ s : State, s.phase = .start .decompress ∧ s.srcPresent = true ∧ s.snkPresent = true ∧ s.treeValid = false) ∧
    (∃ (s : State) (r : Nat) (f : Option NodeFreq) (a b : Nat), s.phase = .start .decompress ∧ s.srcPresent = true ∧
      s.snkPresent = true ∧ s.treeValid = true ∧ s.root = some r ∧ s.arena[r]? = some (Node.internal f (some a) (some b))) ∧
    (∃ (s : State) (r : Nat) (n : Node), s.phase = .start .decompress ∧ s.srcPresent = true ∧ s.snkPresent = true ∧
      s.treeValid = true ∧ s.root = some r ∧ s.arena[r]? = some n ∧ ¬∃ f a b, n = .internal f (some a) (some b)) :=
  ⟨⟨{ inPhase (.start .decompress) with srcPresent := false, snkPresent := false }, rfl, rfl, rfl⟩,
    ⟨inPhase (.start .decompress), rfl, rfl, rfl, rfl⟩,
    ⟨v1 (.start .decompress) [], 4, some 8, 3, 0, rfl, rfl, rfl, rfl, rfl, rfl⟩,
    ⟨oneNode (.leaf 256 none) (.start .decompress) [], 0, _, rfl, rfl, rfl, rfl, rfl, rfl, by rintro ⟨f, a, b, h⟩; cases h⟩⟩

theorem witness_DecompressGeneralStep :
    (∃ (s : State) (r p : Nat) (rest : List SrcToken) (data : Byte), s.phase = .decGeneral r p ∧ s.src = ⟨true, data⟩ :: rest) ∧
    (∃ (s : State) (r p : Nat) (rest : List SrcToken) (data : Byte), s.phase = .decGeneral r p ∧
      s.src = ⟨false, data⟩ :: rest ∧ IsInternal s.arena p ∧ link s.arena p (data.getLsbD 0) = none) ∧
    (∃ (s : State) (r p c : Nat) (rest : List SrcToken) (data : Byte), s.phase = .decGeneral r p ∧
      s.src = ⟨false, data⟩ :: rest ∧ IsInternal s.arena p ∧ link s.arena p (data.getLsbD 0) = some c ∧ IsLeaf s.arena c 256) ∧
    (∃ (s : State) (r p c : Nat) (rest : List SrcToken) (data b : Byte), s.phase = .decGeneral r p ∧
      s.src = ⟨false, data⟩ :: rest ∧ IsInternal s.arena p ∧ link s.arena p (data.getLsbD 0) = some c ∧
      IsLeaf s.arena c (symOfByte b) ∧ s.snkReady = true) ∧
    (∃ (s : State) (r p c : Nat) (rest : List SrcToken) (data : Byte), s.phase = .decGeneral r p ∧
      s.src = ⟨false, data⟩ :: rest ∧ IsInternal s.arena p ∧ link s.arena p (data.getLsbD 0) = some c ∧ IsInternal s.arena c) :=
  ⟨⟨v1 (.decGeneral 4 3) [SrcToken.eos], 4, 3, [], 0, rfl, rfl⟩,
    ⟨{ oneNode (.internal none none none) (.decGeneral 0 0) [SrcToken.d 1] with src := [SrcToken.d 1] }, 0, 0, [], 1, rfl, rfl,
      ⟨none, none, none, rfl⟩, rfl⟩,
    ⟨v1 (.decGeneral 4 3) [SrcToken.d 0], 4, 3, 2, [], 0, rfl, rfl, ⟨_, _, _, rfl⟩, rfl, _, rfl⟩,
    ⟨v1 (.decGeneral 4 4) [SrcToken.d 1], 4, 4, 0, [], 1, 0x61, rfl, rfl, ⟨_, _, _, rfl⟩, rfl, ⟨some 5, rfl⟩, rfl⟩,
    ⟨v1 (.decGeneral 4 4) [SrcToken.d 0], 4, 4, 3, [], 0, rfl, rfl, ⟨_, _, _, rfl⟩, rfl, _, _, _, rfl⟩⟩

theorem witness_DecompressDegenerateStepAndStop :
    (∃ (s : State) (r : Nat) (rest : List SrcToken) (data : Byte), s.phase = .decDegenerate r ∧ s.src = ⟨true, data⟩ :: rest) ∧
    (∃ (s : State) (r : Nat) (rest : List SrcToken) (data : Byte), s.phase = .decDegenerate r ∧
      s.src = ⟨false, data⟩ :: rest ∧ IsLeaf s.arena r 256) ∧
    (∃ (s : State) (r : Nat) (rest : List SrcToken) (data : Byte), s.phase = .decDegenerate r ∧
      s.src = ⟨false, data⟩ :: rest ∧ IsInternal s.arena r) ∧
    (∃ (s : State) (r : Nat) (rest : List SrcToken) (data b : Byte), s.phase = .decDegenerate r ∧
      s.src = ⟨false, data⟩ :: rest ∧ IsLeaf s.arena r (symOfByte b) ∧ s.snkReady = true) ∧
    (∃ (s : State) (reason : Bool), s.phase = .decStop reason ∧ s.snkReady = true) :=
  ⟨⟨oneNode (.leaf 256 none) (.decDegenerate 0) [SrcToken.eos], 0, [], 0, rfl, rfl⟩,
    ⟨oneNode (.leaf 256 none) (.decDegenerate 0) [SrcToken.d 0], 0, [], 0, rfl, rfl, none, rfl⟩,
    ⟨oneNode (.internal none none (some 1)) (.decDegenerate 0) [SrcToken.d 0], 0, [], 0, rfl, rfl, none, none, some 1, rfl⟩,
    ⟨oneNode (.leaf 0x41 none) (.decDegenerate 0) [SrcToken.d 1], 0, [], 1, 0x41, rfl, rfl, ⟨none, rfl⟩, rfl⟩,
    ⟨inPhase (.decStop true), true, rfl, rfl⟩⟩

/-- Data tokens for a list of bits. -/
theorem bitTokens_of (l : List Bool) : ∃ toks, BitTokens toks l := by
  refine ⟨l.map (fun b => SrcToken.d (bitData b)), fun t ht => ?_, ?_⟩
  · obtain ⟨b, -, rfl⟩ := List.mem_map.mp ht
    rfl
  · rw [List.map_map]
    conv_rhs => rw [← List.map_id l]
    exact List.map_congr_left fun b _ => by cases b <;> rfl

theorem witness_DecompressEmitsSpelledBytes :
    ∃ (s : State) (r : Nat) (codes : List (List Bool)) (eof : List Bool) (toks toks' : List SrcToken), Inv s ∧
      s.phase = .decGeneral r r ∧ s.snkReady = true ∧
      List.Forall₂ (fun b code => LeafAt s.arena r code (symOfByte b)) [0x78#8] codes ∧
      LeafAt s.arena r eof 256 ∧ BitTokens toks (codes.flatten ++ eof) ∧
      (follow s.arena [] r = some r ∧ IsInternal s.arena r ∧ BitTokens toks' (codes.flatten ++ [])) := by
  have hL : leafCount (oneFreq 0x78 3) = 2 := by decide +kernel
  have hlen := mergeAll_length (oneFreq 0x78 3)
  obtain ⟨x, y, f, ha, -⟩ := (mergeAll_spec (oneFreq 0x78 3)).1.merged (2 * leafCount (oneFreq 0x78 3) - 2) (by omega) (by omega)
  obtain ⟨c, hc⟩ := (mergeAll_leafAt (oneFreq 0x78 3) 0x78).mpr (.inr ⟨0x78, rfl, by simp [oneFreq]⟩)
  obtain ⟨e, he⟩ := (mergeAll_leafAt (oneFreq 0x78 3) 256).mpr (.inl rfl)
  obtain ⟨toks, ht⟩ := bitTokens_of ([c].flatten ++ e)
  obtain ⟨toks', ht'⟩ := bitTokens_of ([c].flatten ++ [])
  exact ⟨grown (oneFreq 0x78 3) (.decGeneral _ _), _, [c], e, toks, toks',
    inv_grown _ _ ⟨rfl, rfl, ⟨_, ha, rfl⟩, _, _, _, ha⟩, rfl, rfl, .cons hc .nil, he, ht, rfl, ⟨_, _, _, ha⟩, ht'⟩

theorem witness_CompressThenDecompressIsIdentity : ∃ (s : State) (l : List Byte), (∃ b : Fin 256, s.freq[b.val] ≠ 0#32) ∧
    (∀ c ∈ l, s.freq[c.toNat] ≠ 0#32) ∧ l ≠ [] ∧ s.srcPresent = true ∧ s.snkPresent = true ∧ s.snkReady = true ∧
    s.fault = false := by
  refine ⟨counted 3, [0x78#8], ⟨0x78, by rw [counted_freq]; decide⟩, fun c hc => ?_, by decide, rfl, rfl, rfl, rfl⟩
  rw [List.mem_singleton] at hc
  subst hc
  have := counted_freq 3
  exact fun h => absurd (this.symm.trans h) (by decide)

theorem witness_HeaderRoundTripKeepsEveryCode : ∃ s : State, (∃ b : Fin 256, s.freq[b.val] ≠ 0#32) ∧
    Wf.marker s.marker = true ∧ s.srcPresent = true ∧ s.snkPresent = true ∧ s.snkReady = true ∧ s.fault = false :=
  ⟨counted 3, ⟨0x78, by rw [counted_freq]; decide⟩, show Wf.marker base.marker = true by decide, rfl, rfl, rfl, rfl⟩

theorem witness_ResetMeetsInvariant : ∃ marker : List Byte, Wf.marker marker = true := ⟨[0x45#8, 0x4F#8, 0x46#8], by decide⟩

theorem witness_StepKeepsInvariant : ∃ s t : State, Inv s ∧ step s = .next t ∧ t.treeValid = true ∧ t.phase ≠ s.phase :=
  ⟨grown (oneFreq 0x78 3) (.start .clrFreq), _, inv_grown _ _ trivial, rfl, rfl, by intro h; cases h⟩

theorem witness_StepsAlwaysAnswer : ∃ s : State, Inv s ∧ s.moves = [] :=
  ⟨grown (oneFreq 0x78 3) (.start .genTable), inv_grown _ _ trivial, rfl⟩

end Sys2Proof.Tests
end

/-! SUPPORT. Every step keeps the invariant (spec/10_state.md R66). -/

namespace Sys2Proof.Machine

/-! ### The state after reset -/

/-- With no tree, no table and the engine in IDLE the invariant asks only for a legal marker (R270). -/
theorem inv_afterReset (freq : Vector Word 256) {marker : List Byte} (hm : Wf.marker marker = true) :
    Inv (State.afterReset freq marker) := by
  refine Inv.mkDropped arenaOk_nil rfl (fun y => ?_) (fun h => by cases h) (fun h => by cases h) (fun _ _ => rfl)
    trivial hm
  simp [ctEntry, State.afterReset, CtEntry.empty]

/-- The parameter EOF_MARKER_TEXT meets R6. -/
theorem eofMarkerText_legal : Wf.marker Config.eofMarkerText = true := by
  unfold Config.eofMarkerText
  split
  · assumption
  · decide

/-- Settles O56: the reset state has no tree and no table, and its marker is legal. -/
theorem resetMeetsInvariant : Obligations.ResetMeetsInvariant :=
  ⟨fun freq _ hm => inv_afterReset freq hm, inv_afterReset _ eofMarkerText_legal⟩

/-! ### The engine -/

/-- A command that has one step runs it at START (R60). -/
theorem phase_start_of_command {ph : Phase} {i : Instr} (h : ph.command = some i)
    (hi : i ∉ [Instr.buildHdr, .compress, .decompress, .emitHdr]) : ph = .start i := by
  cases ph <;> simp only [Phase.command, Option.some.injEq, reduceCtorEq] at h <;> subst h <;> simp_all

/-- A step of the running command keeps the invariant. -/
theorem exec_keeps_inv {s t : State} {i : Instr} (h : Inv s) (hph : s.phase.command = some i)
    (he : exec i s = .next t) : Inv t := by
  cases i with
  | nop => exact inv_nop h he (phase_start_of_command hph (by decide))
  | clrFreq => exact inv_clrFreq h he (phase_start_of_command hph (by decide))
  | buildFreq => exact inv_buildFreq h he (phase_start_of_command hph (by decide))
  | buildHdr => exact inv_buildHdr h he hph
  | genTable => exact inv_genTable h he (phase_start_of_command hph (by decide))
  | compress => exact inv_compress h he hph
  | decompress => exact inv_decompress h he hph
  | emitHdr => exact inv_emitHdr h he hph
  | discard => exact inv_discard h he

theorem engineStep_keeps_inv {s t : State} (h : Inv s) (he : engineStep s = .next t) : Inv t := by
  unfold engineStep at he
  split at he
  · exact exec_keeps_inv h ‹_› he
  · cases he; exact h

/-! ### The agents around the engine -/

/-- A step that touches neither the tree, the table nor the phase keeps the invariant. -/
theorem Inv.frame_same_phase {s t : State} (h : Inv s) (e : SameTree s t) (hp : t.phase = s.phase) : Inv t :=
  h.frame e (hp ▸ h.phase) fun ⟨k, hk⟩ hn => absurd (hp.trans hk) (hn k)

/-- Acceptance moves the engine from IDLE to START, or back to IDLE with BAD_COMMAND (R113, R114). -/
theorem accept_keeps_inv {s : State} (h : Inv s) (hidle : s.phase = .idle) (w : Word) : Inv (accept w s) := by
  unfold accept
  split
  · exact h.frame ⟨rfl, rfl, rfl, rfl, rfl, rfl, rfl⟩ trivial (by simp [hidle])
  · exact h.frame ⟨rfl, rfl, rfl, rfl, rfl, rfl, rfl⟩ trivial (by simp [hidle])

theorem setOverrun_keeps_inv {s : State} (h : Inv s) : Inv (setOverrun s) :=
  h.frame_same_phase ⟨rfl, rfl, rfl, rfl, rfl, rfl, rfl⟩ rfl

theorem writeReg_keeps_inv {s : State} (h : Inv s) (r : Reg) (v : Word) : Inv (writeReg r v s) := by
  cases r with
  | cmd =>
    change Inv (writeCmd v s)
    unfold writeCmd
    split
    · exact setOverrun_keeps_inv h
    · refine accept_keeps_inv h ?_ v
      by_contra hph
      exact absurd (busy_iff.mpr hph) ‹_›
  | freq b =>
    change Inv (writeFreq b v s)
    unfold writeFreq
    split
    · exact setOverrun_keeps_inv h
    · exact h.frame_same_phase ⟨rfl, rfl, rfl, rfl, rfl, rfl, rfl⟩ rfl
  | ctSel => exact h.frame_same_phase ⟨rfl, rfl, rfl, rfl, rfl, rfl, rfl⟩ rfl
  | nodeSel => exact h.frame_same_phase ⟨rfl, rfl, rfl, rfl, rfl, rfl, rfl⟩ rfl
  | _ => exact h

theorem readReg_keeps_inv {s : State} (h : Inv s) (r : Reg) : Inv (readReg r s) := by
  unfold readReg
  split <;> exact h.frame_same_phase ⟨rfl, rfl, rfl, rfl, rfl, rfl, rfl⟩ rfl

/-- The reset input leaves the state after reset but for what no rule of the invariant reads (R270). -/
theorem hardReset_keeps_inv {s : State} (h : Inv s) : Inv (hardReset s) :=
  (inv_afterReset (drawnFreq s.draws) h.marker).frame_same_phase ⟨rfl, rfl, rfl, rfl, rfl, rfl, rfl⟩ rfl

theorem act_keeps_inv {s t : State} (h : Inv s) (a : Action) (he : act a s = .next t) : Inv t := by
  cases a with
  | write off width v =>
    change hostWrite off width v s = .next t at he
    unfold hostWrite at he
    split at he
    · cases he; exact writeReg_keeps_inv h _ v
    · cases he
  | read off width =>
    change hostRead off width s = .next t at he
    unfold hostRead at he
    split at he
    · cases he; exact readReg_keeps_inv h _
    · cases he
  | wait | offer | drain | sink =>
    cases he; exact h.frame_same_phase ⟨rfl, rfl, rfl, rfl, rfl, rfl, rfl⟩ rfl
  | presence a b =>
    change setPresence a b s = .next t at he
    unfold setPresence at he
    split at he
    · cases he
    · cases he; exact h.frame_same_phase ⟨rfl, rfl, rfl, rfl, rfl, rfl, rfl⟩ rfl
  | reset => cases he; exact hardReset_keeps_inv h

/-- Settles O57: by the move the step makes, the engine's by its command and an agent's by its action. -/
theorem stepKeepsInvariant : Obligations.StepKeepsInvariant := by
  intro s t h he
  have hmoves (rest : List Move) : Inv { s with moves := rest } :=
    h.frame_same_phase ⟨rfl, rfl, rfl, rfl, rfl, rfl, rfl⟩ rfl
  unfold step at he
  split at he
  · exact engineStep_keeps_inv h he
  · exact engineStep_keeps_inv (hmoves _) he
  · exact act_keeps_inv (hmoves _) _ he

end Sys2Proof.Machine

/-! SUPPORT. What the step of each command may write (spec/10_state.md R37 to R43, R57 to R59). -/

namespace Sys2Proof.Machine

/-! ### The fields a command writes -/

/-- `s` with the tree and the table of `t`. -/
def withTreeOf (s t : State) : State :=
  { s with treeValid := t.treeValid, root := t.root, arena := t.arena, ctValid := t.ctValid, ct := t.ct }

/-- `s` with the fields of `t` that are this command's own to write (R37 to R42, R57 to R59). -/
def ownWrites (i : Instr) (s t : State) : State :=
  match i with
  | .nop => { s with overrun := t.overrun }
  | .clrFreq => { s with freq := t.freq }
  | .buildFreq => { withTreeOf s t with treeMode := t.treeMode }
  | .buildHdr => { withTreeOf s t with treeMode := t.treeMode }
  | .genTable => { s with ctValid := t.ctValid, ct := t.ct }
  | .compress => s
  | .decompress => { s with endReason := t.endReason, midcode := t.midcode }
  | .emitHdr => s
  | .discard => withTreeOf s t

/-- `s` with the fields of `t` every command may write: the fault registers, the phase, the ports and their counters. -/
def withEngineOf (s t : State) : State :=
  { s with
    fault := t.fault, errCause := t.errCause, errInfo := t.errInfo, phase := t.phase,
    src := t.src, snk := t.snk, inCount := t.inCount, outCount := t.outCount }

/-- From `s` to `t` a command writes no more than its own fields and those of every command. -/
def WritesOnly (i : Instr) (s t : State) : Prop := t = withEngineOf (ownWrites i s t) t

theorem execBuildFreq_writes {s t : State} (h : execBuildFreq s = .next t) : WritesOnly .buildFreq s t := by
  unfold execBuildFreq at h
  split at h <;> cases h <;> rfl

theorem execGenTable_writes {s t : State} (h : execGenTable s = .next t) : WritesOnly .genTable s t := by
  unfold execGenTable at h
  split at h
  · cases h; rfl
  · split at h <;> cases h; rfl

theorem hdrEnd_writes {s t : State} {k : HdrState} (h : hdrEnd k s = .next t) : WritesOnly .buildHdr s t := by
  unfold hdrEnd at h
  split at h
  · split at h <;> cases h <;> rfl
  · cases h; rfl
  · cases h

theorem hdrByte_writes {s t : State} {k : HdrState} {c : Byte} (h : hdrByte k c s = .next t) :
    WritesOnly .buildHdr s t := by
  unfold hdrByte at h
  split at h
  · split at h <;> cases h <;> rfl
  · cases h; rfl

theorem execBuildHdr_writes {s t : State} (h : execBuildHdr s = .next t) : WritesOnly .buildHdr s t := by
  unfold execBuildHdr at h
  split at h
  · unfold hdrLoop at h
    split at h
    · cases h; rfl
    · split at h
      · exact (hdrEnd_writes h :)
      · exact (hdrByte_writes h :)
  · unfold hdrStart at h
    split at h <;> cases h <;> rfl

theorem execCompress_writes {s t : State} (h : execCompress s = .next t) : WritesOnly .compress s t := by
  unfold execCompress at h
  split at h
  · unfold compressTake at h
    split at h
    · cases h; rfl
    · split at h
      · cases h; rfl
      · split at h <;> cases h <;> rfl
  · unfold compressPut at h
    split at h
    · cases h
    · split at h <;> cases h <;> rfl
  · unfold compressClose at h
    split at h <;> cases h <;> rfl
  · unfold compressStart at h
    repeat' split at h
    all_goals cases h; rfl

/-- Every answer of the general path updates only the fields of every command, MIDCODE and END_REASON (R213, R214). -/
theorem decGeneralStep_writes {s t : State} {r p : Nat} (h : decGeneralStep r p s = .next t) :
    WritesOnly .decompress s t := by
  unfold decGeneralStep at h
  repeat' split at h
  all_goals cases h
  all_goals rfl

/-- Every answer of the degenerate path updates only the fields of every command (R212). -/
theorem decDegenerateStep_writes {s t : State} {r : Nat} (h : decDegenerateStep r s = .next t) :
    WritesOnly .decompress s t := by
  unfold decDegenerateStep at h
  repeat' split at h
  all_goals cases h
  all_goals rfl

theorem execDecompress_writes {s t : State} (h : execDecompress s = .next t) : WritesOnly .decompress s t := by
  unfold execDecompress at h
  split at h
  · exact decGeneralStep_writes h
  · exact decDegenerateStep_writes h
  · unfold decStopStep at h
    split at h <;> cases h <;> rfl
  · unfold decompressStart at h
    repeat' split at h
    all_goals cases h
    all_goals rfl

theorem execEmitHdr_writes {s t : State} (h : execEmitHdr s = .next t) : WritesOnly .emitHdr s t := by
  unfold execEmitHdr at h
  split at h
  · unfold emitByte at h
    split at h
    · cases h
    · split at h <;> cases h <;> rfl
  · unfold emitEnd at h
    split at h <;> cases h <;> rfl
  · unfold emitStart at h
    repeat' split at h
    all_goals cases h; rfl

/-- What the step of a command may write, for every command and state. -/
theorem exec_writes {i : Instr} {s t : State} (h : exec i s = .next t) : WritesOnly i s t := by
  cases i with
  | nop => cases h; rfl
  | clrFreq => cases h; rfl
  | buildFreq => exact execBuildFreq_writes h
  | buildHdr => exact execBuildHdr_writes h
  | genTable => exact execGenTable_writes h
  | compress => exact execCompress_writes h
  | decompress => exact execDecompress_writes h
  | emitHdr => exact execEmitHdr_writes h
  | discard => cases h; rfl

/-! ### What is outside a command's own fields -/

/-- The commands that write the tree: they drop it, and two of them build the next one (R37). -/
def WritesTree (i : Instr) : Prop := i = .buildFreq ∨ i = .buildHdr ∨ i = .discard

section
variable {i : Instr} (s t : State)

theorem ownWrites_overrun (hi : i ≠ .nop) : (ownWrites i s t).overrun = s.overrun := by
  cases i <;> simp [ownWrites, withTreeOf] at hi ⊢

theorem ownWrites_freq (hi : i ≠ .clrFreq) : (ownWrites i s t).freq = s.freq := by
  cases i <;> simp [ownWrites, withTreeOf] at hi ⊢

theorem ownWrites_treeValid (hi : ¬WritesTree i) : (ownWrites i s t).treeValid = s.treeValid := by
  cases i <;> simp [ownWrites, WritesTree] at hi ⊢

theorem ownWrites_root (hi : ¬WritesTree i) : (ownWrites i s t).root = s.root := by
  cases i <;> simp [ownWrites, WritesTree] at hi ⊢

theorem ownWrites_arena (hi : ¬WritesTree i) : (ownWrites i s t).arena = s.arena := by
  cases i <;> simp [ownWrites, WritesTree] at hi ⊢

theorem ownWrites_ctValid (hi : ¬WritesTree i) (hg : i ≠ .genTable) : (ownWrites i s t).ctValid = s.ctValid := by
  cases i <;> simp [ownWrites, WritesTree] at hi hg ⊢

theorem ownWrites_ct (hi : ¬WritesTree i) (hg : i ≠ .genTable) : (ownWrites i s t).ct = s.ct := by
  cases i <;> simp [ownWrites, WritesTree] at hi hg ⊢

theorem ownWrites_treeMode (hi : ¬(i = .buildFreq ∨ i = .buildHdr)) : (ownWrites i s t).treeMode = s.treeMode := by
  cases i <;> simp [ownWrites, withTreeOf] at hi ⊢

theorem ownWrites_endReason (hi : i ≠ .decompress) : (ownWrites i s t).endReason = s.endReason := by
  cases i <;> simp [ownWrites, withTreeOf] at hi ⊢

theorem ownWrites_midcode (hi : i ≠ .decompress) : (ownWrites i s t).midcode = s.midcode := by
  cases i <;> simp [ownWrites, withTreeOf] at hi ⊢

end

/-- A field that no command shares and this one does not own keeps its value. -/
theorem WritesOnly.keeps {α : Type} {i : Instr} {s t : State} (h : WritesOnly i s t) (field : State → α)
    (hf : field (withEngineOf (ownWrites i s t) t) = field s) : field t = field s :=
  (congrArg field h).trans hf

/-- Settles O19: each field is outside what the command may write. -/
theorem commandsLeaveHostStateAlone : Obligations.CommandsLeaveHostStateAlone := by
  intro i s t he
  have h := exec_writes he
  refine ⟨h.keeps State.ctSel ?_, h.keeps State.nodeSel ?_, h.keeps State.lastOp ?_, h.keeps State.srcPresent ?_,
    h.keeps State.snkPresent ?_, h.keeps State.snkReady ?_, h.keeps State.marker ?_, h.keeps State.moves ?_,
    h.keeps State.reads ?_, h.keeps State.draws ?_, fun hi => h.keeps State.overrun (ownWrites_overrun s t hi),
    fun hi => h.keeps State.freq (ownWrites_freq s t hi)⟩
  all_goals cases i <;> rfl

/-! ### The code table -/

/-- CT_VALID and the table stay as they are. -/
def TableKept (s t : State) : Prop := t.ctValid = s.ctValid ∧ t.ct = s.ct

/-- CT_VALID is 0, and with it every VALID (R38). -/
def TableCleared (t : State) : Prop := t.ctValid = false ∧ ∀ y, (ctEntry t y).valid = false

theorem execBuildFreq_table {s t : State} (h : execBuildFreq s = .next t) : TableKept s t ∨ TableCleared t := by
  unfold execBuildFreq at h
  split at h <;> cases h
  · exact .inl ⟨rfl, rfl⟩
  · exact .inr ⟨rfl, ctEntry_dropTree s⟩

theorem hdrEnd_table {s t : State} {k : HdrState} (h : hdrEnd k s = .next t) : TableKept s t := by
  unfold hdrEnd at h
  split at h
  · split at h <;> cases h <;> exact ⟨rfl, rfl⟩
  · cases h; exact ⟨rfl, rfl⟩
  · cases h

theorem hdrByte_table {s t : State} {k : HdrState} {c : Byte} (h : hdrByte k c s = .next t) : TableKept s t := by
  unfold hdrByte at h
  split at h
  · split at h <;> cases h <;> exact ⟨rfl, rfl⟩
  · cases h; exact ⟨rfl, rfl⟩

/-- BUILD_HDR clears the table at START and keeps it in its loop (R160). -/
theorem execBuildHdr_table {s t : State} (h : execBuildHdr s = .next t) : TableKept s t ∨ TableCleared t := by
  unfold execBuildHdr at h
  split at h
  · left
    unfold hdrLoop at h
    split at h
    · cases h; exact ⟨rfl, rfl⟩
    · split at h
      · exact (hdrEnd_table h :)
      · exact (hdrByte_table h :)
  · unfold hdrStart at h
    split at h <;> cases h
    · exact .inl ⟨rfl, rfl⟩
    · exact .inr ⟨rfl, ctEntry_dropTree s⟩

theorem execGenTable_table {s t : State} (h : execGenTable s = .next t) : TableKept s t ∨ t.ctValid = true := by
  unfold execGenTable at h
  split at h
  · cases h; exact .inl ⟨rfl, rfl⟩
  · split at h <;> cases h
    exact .inr rfl

/-- Only GEN_TABLE does anything to the table but keep or clear it (R38). -/
theorem exec_table {i : Instr} {s t : State} (he : exec i s = .next t) (hg : i ≠ .genTable) :
    TableKept s t ∨ TableCleared t := by
  by_cases hi : WritesTree i
  · rcases hi with rfl | rfl | rfl
    · exact execBuildFreq_table he
    · exact execBuildHdr_table he
    · cases he; exact .inr ⟨rfl, ctEntry_dropTree s⟩
  · have h := exec_writes he
    exact .inl ⟨h.keeps State.ctValid (ownWrites_ctValid s t hi hg), h.keeps State.ct (ownWrites_ct s t hi hg)⟩

/-- CT_VALID is set by GEN_TABLE alone (R38). -/
theorem exec_sets_ctValid {i : Instr} {s t : State} (he : exec i s = .next t) (hs : s.ctValid = false)
    (ht : t.ctValid = true) : i = .genTable := by
  by_contra hg
  rcases exec_table he hg with ⟨hk, -⟩ | ⟨hc, -⟩ <;> simp_all

/-- CT_VALID is cleared by the commands that write the tree, and every VALID with it (R38). -/
theorem exec_clears_ctValid {i : Instr} {s t : State} (he : exec i s = .next t) (hs : s.ctValid = true)
    (ht : t.ctValid = false) : WritesTree i ∧ ∀ y, (ctEntry t y).valid = false := by
  have changed : t.ctValid ≠ s.ctValid := by simp [hs, ht]
  have hg : i ≠ .genTable := by
    rintro rfl
    rcases execGenTable_table he with ⟨hk, -⟩ | hset
    · exact changed hk
    · simp [ht] at hset
  refine ⟨?_, ?_⟩
  · by_contra hi
    exact changed ((exec_writes he).keeps State.ctValid (ownWrites_ctValid s t hi hg))
  · rcases exec_table he hg with ⟨hk, -⟩ | ⟨-, hc⟩
    · exact absurd hk changed
    · exact hc

/-- Settles O20: a command writes no field outside its own; for CT_VALID, by what each can do to the table. -/
theorem flagsHaveTheirWriters : Obligations.FlagsHaveTheirWriters := by
  intro i s t he
  have h := exec_writes he
  refine ⟨fun hne => ?_, exec_sets_ctValid he, exec_clears_ctValid he, fun hne => ?_, fun hne => ?_, fun hne => ?_⟩
  · by_contra hi
    rcases hne with hne | hne | hne
    · exact hne (h.keeps State.treeValid (ownWrites_treeValid s t hi))
    · exact hne (h.keeps State.root (ownWrites_root s t hi))
    · exact hne (h.keeps State.arena (ownWrites_arena s t hi))
  · by_contra hi
    rw [not_or] at hi
    exact hne (h.keeps State.ct (ownWrites_ct s t hi.2 hi.1))
  · by_contra hi
    exact hne (h.keeps State.treeMode (ownWrites_treeMode s t hi))
  · by_contra hi
    rcases hne with hne | hne
    · exact hne (h.keeps State.endReason (ownWrites_endReason s t hi))
    · exact hne (h.keeps State.midcode (ownWrites_midcode s t hi))

end Sys2Proof.Machine

/-! SUPPORT. The register window: STATUS, the selectors, FREQ and the readback registers (spec/10_state.md R34 to R57). -/

namespace Sys2Proof.Machine

/-! ### A host access as one step (R82, R92) -/

theorem step_write {s : State} {rest : List Move} {v : Word} (r : Reg)
    (hm : s.moves = .act (.write (offsetOf r) 4 v) :: rest) :
    step s = .next (writeReg r v { s with moves := rest }) := by
  simp [step, hm, act, hostWrite, access_offsetOf, regAt_offsetOf]

theorem step_read {s : State} {rest : List Move} (r : Reg) (hm : s.moves = .act (.read (offsetOf r) 4) :: rest) :
    step s = .next (readReg r { s with moves := rest }) := by
  simp [step, hm, act, hostRead, access_offsetOf, regAt_offsetOf]

/-- A register that R67 does not list reads its value, busy or not. -/
theorem readReg_specified {r : Reg} (h : unspecifiedWhileBusy r = false) (s : State) :
    readReg r s = returnRead (regValue s r) s := by
  simp [readReg, h]

/-! ### The selectors and FREQ -/

/-- The word CT_SEL reads has bits [31:9] zero (R50). -/
theorem regValue_ctSel (s : State) : regValue s .ctSel = 0#23 ++ s.ctSel := BitVec.setWidth_eq_append (by decide)

/-- The word NODE_SEL reads has bits [31:16] zero (R53). -/
theorem regValue_nodeSel (s : State) : regValue s .nodeSel = 0#16 ++ s.nodeSel := BitVec.setWidth_eq_append (by decide)

/-- Settles O11: the selectors store and read their own bits at their offsets. -/
theorem selectorsStoreTheirBits : Obligations.SelectorsStoreTheirBits := by
  refine ⟨fun s rest v => ⟨step_write .ctSel, step_write .nodeSel, fun hm => ?_, fun hm => ?_⟩, fun _ _ => ⟨rfl, rfl⟩⟩
  · rw [step_read .ctSel hm, readReg_specified rfl, regValue_ctSel]
    rfl
  · rw [step_read .nodeSel hm, readReg_specified rfl, regValue_nodeSel]
    rfl

theorem writeFreq_busy {s : State} (hb : s.busy = true) (b : Fin 256) (v : Word) :
    writeFreq b v s = setOverrun s := if_pos hb

theorem writeFreq_idle {s : State} (hb : s.busy = false) (b : Fin 256) (v : Word) :
    writeFreq b v s = { s with freq := s.freq.set b.val v } := by
  simp [writeFreq, hb]

/-- Settles O12: by BUSY at the write, and a read of FREQ is never unspecified. -/
theorem freqEntriesStoreWrites : Obligations.FreqEntriesStoreWrites := by
  intro s rest b v
  refine ⟨fun hm hb => ?_, fun hm hb => ⟨s.freq.set b.val v, ?_, by simp, fun c hc => ?_⟩, fun hm => ?_⟩
  · rw [step_write (.freq b) hm]
    exact congrArg _ (writeFreq_busy (s := { s with moves := rest }) hb b v)
  · rw [step_write (.freq b) hm]
    exact congrArg _ (writeFreq_idle (s := { s with moves := rest }) hb b v)
  · exact Vector.getElem_set_ne _ _ (by simpa [Fin.ext_iff, eq_comm] using hc)
  · rw [step_read (.freq b) hm, readReg_specified rfl]
    rfl

/-! ### STATUS -/

/-- Settles O14: the bits of the concatenation of R34, from the low end. -/
theorem statusWordFields : Obligations.StatusWordFields := by
  intro s
  have hbusy : (statusWord s).getLsbD 0 = true ↔ s.phase ≠ .idle := by rw [statusWord_busy, busy_iff]
  refine ⟨rfl, hbusy, ?_⟩
  simp only [statusWord, BitVec.getLsbD_append, BitVec.extractLsb'_append_eq_ite]
  simp

/-! ### The readback registers -/

/-- Two fields side by side, as a number. -/
theorem toNat_append_eq_add {m n : Nat} (x : BitVec m) (y : BitVec n) :
    (x ++ y).toNat = 2 ^ n * x.toNat + y.toNat := by
  rw [BitVec.toNat_append, ← Nat.shiftLeft_add_eq_or_of_lt y.isLt, Nat.shiftLeft_eq, Nat.mul_comm]

theorem selectedEntry_sym {s : State} {y : Sym} (h : s.ctSel.toNat = y.val) :
    selectedEntry s = some (ctEntry s y) := by
  simp [selectedEntry, ctEntry, h]

theorem selectedEntry_outside {s : State} (h : 257 ≤ s.ctSel.toNat) : selectedEntry s = none := by
  simp [selectedEntry, h]

/-- With no valid entry selected CT_INFO and every CT_WORDk read 0 (R51, R52). -/
theorem ct_reads_zero {s : State} (h : ∀ e, selectedEntry s = some e → e.valid = false) :
    regValue s .ctInfo = 0 ∧ ∀ k, regValue s (.ctWord k) = 0 := by
  simp only [regValue, ctInfoWord, ctWordOf]
  cases he : selectedEntry s with
  | none => exact ⟨rfl, fun _ => rfl⟩
  | some e => simp [h e he]

/-- CT_INFO of a valid entry: VALID in bit 31 and LEN (R51). -/
theorem ctInfoWord_toNat {s : State} {e : CtEntry} (he : selectedEntry s = some e) (hv : e.valid = true)
    (hlen : e.code.length ≤ 256) : (ctInfoWord s).toNat = 2 ^ 31 + e.code.length := by
  simp only [ctInfoWord, he, hv, if_true, toNat_append_eq_add]
  simp; omega

/-- Bit `j` of CT_WORDk is code bit `32k + j`, and 0 past LEN (R52). -/
theorem ctWordOf_getLsbD {s : State} {e : CtEntry} (he : selectedEntry s = some e) (hv : e.valid = true) (k : Nat)
    (j : Fin 32) : (ctWordOf s k).getLsbD j.val = e.code.getD (32 * k + j.val) false := by
  simp [ctWordOf, he, hv, List.getD_eq_getElem?_getD]

/-- With no node selected the four node registers read 0 (R54 to R56). -/
theorem node_reads_zero {s : State} (h : selectedNode s = none) :
    regValue s .nodeInfo = 0 ∧ regValue s .nodeFreqLo = 0 ∧ regValue s .nodeFreqHi = 0 ∧
      regValue s .nodeLinks = 0 := by
  simp [regValue, nodeInfoWord, nodeFreqLoWord, nodeFreqHiWord, nodeLinksWord, h]

theorem node_sym_lt (n : Node) : n.sym < 2 ^ 9 := by
  cases n with
  | leaf y f => exact y.isLt.trans (by decide)
  | internal f l r => exact (by decide : Config.tieInternal < 2 ^ 9)

/-- NODE_INFO of the selected node: allocated, KIND, FREQ_KNOWN and SYM (R54). -/
theorem nodeInfoWord_toNat {s : State} {n : Node} (hn : selectedNode s = some n) :
    (nodeInfoWord s).toNat = 1 + 2 * n.kind.toNat + 4 * n.freqKnown.toNat + 2 ^ 16 * n.sym := by
  have := node_sym_lt n
  simp only [nodeInfoWord, hn, toNat_append_eq_add]
  simp; omega

/-- The two words of FREQ of the selected node (R55). -/
theorem node_freq_words {s : State} {n : Node} (hn : selectedNode s = some n) :
    regValue s .nodeFreqLo = n.freqBits.extractLsb' 0 32 ∧
      regValue s .nodeFreqHi = 0#24 ++ n.freqBits.extractLsb' 32 8 := by
  simp only [regValue, nodeFreqLoWord, nodeFreqHiWord, hn, true_and]
  exact BitVec.setWidth_eq_append (by decide)

theorem node_links_word {s : State} {n : Node} (hn : selectedNode s = some n) :
    regValue s .nodeLinks = idxBits n.right ++ idxBits n.left := by
  simp only [regValue, nodeLinksWord, hn]

/-- Settles O15: register by register; the node registers by whether a node is selected and of which kind. -/
theorem readbackRegisters : Obligations.ReadbackRegisters := by
  intro s
  refine ⟨rfl, rfl, rfl, rfl, fun hr => ?_, fun r hr hlt => ?_, fun hlen => ?_, fun hsel => ?_, fun y hy hv => ?_,
    fun y hy hv hlen => ⟨?_, fun k j => ?_⟩, fun hsel => ?_, fun y f hn => ?_, fun f l r hn => ?_⟩
  · simp [regValue, hr, idxBits]
  · simp [regValue, hr, idxBits]; omega
  · simp [regValue]; omega
  · exact ct_reads_zero (by simp [selectedEntry_outside hsel])
  · exact ct_reads_zero (by simp [selectedEntry_sym hy, hv])
  · exact ctInfoWord_toNat (selectedEntry_sym hy) hv hlen
  · exact ctWordOf_getLsbD (selectedEntry_sym hy) hv k j
  · exact node_reads_zero (List.getElem?_eq_none hsel)
  · obtain ⟨hlo, hhi⟩ := node_freq_words hn
    refine ⟨(nodeInfoWord_toNat hn).trans ?_, hlo, hhi, (node_links_word hn).trans
      (show Config.idxNil ++ Config.idxNil = 0xFFFFFFFF#32 by decide)⟩
    cases f <;> rfl
  · obtain ⟨hlo, hhi⟩ := node_freq_words hn
    refine ⟨(nodeInfoWord_toNat hn).trans ?_, hlo, hhi, (node_links_word hn).trans ?_⟩
    · cases f <;> rfl
    · cases l <;> cases r <;> rfl

end Sys2Proof.Machine

/-! SUPPORT. The engine step by phase, and when it answers a next state (spec/10_state.md R60, spec/20_memory.md R90,
R97). -/

namespace Sys2Proof.Machine

/-! ### The step of a phase (R60) -/

/-- The first step of a command, from START. -/
def startStep : Instr → State → Answer
  | .nop => execNop
  | .clrFreq => execClrFreq
  | .buildFreq => execBuildFreq
  | .buildHdr => hdrStart
  | .genTable => execGenTable
  | .compress => compressStart
  | .decompress => decompressStart
  | .emitHdr => emitStart
  | .discard => execDiscard

/-- The engine step of a phase; in IDLE there is none, and the state stays (log entry 7). -/
def phaseStep : Phase → State → Answer
  | .idle => .next
  | .start i => startStep i
  | .hdr h => hdrLoop h
  | .compTake => compressTake
  | .compPut y i => compressPut y i
  | .compClose => compressClose
  | .decGeneral r p => decGeneralStep r p
  | .decDegenerate r => decDegenerateStep r
  | .decStop reason => decStopStep reason
  | .emitPut y pos => emitByte y pos
  | .emitClose => emitEnd

/-- The step of the running command is the one its phase says (R60). -/
theorem exec_eq_phaseStep {s : State} {i : Instr} (h : s.phase.command = some i) : exec i s = phaseStep s.phase s := by
  cases hph : s.phase with
  | idle => simp [hph, Phase.command] at h
  | start op =>
    rw [hph] at h
    cases h
    cases i <;> simp [exec, execBuildHdr, execCompress, execDecompress, execEmitHdr, hph, phaseStep, startStep]
  | _ =>
    rw [hph] at h
    cases h
    simp [exec, execBuildHdr, execCompress, execDecompress, execEmitHdr, hph, phaseStep]

theorem engineStep_eq_phaseStep (s : State) : engineStep s = phaseStep s.phase s := by
  unfold engineStep
  split
  · exact exec_eq_phaseStep ‹_›
  · rename_i hc
    cases hph : s.phase <;> simp [hph, Phase.command] at hc
    rfl

/-! ### Steps that answer a next state -/

/-- A next state, not a stop of the model. -/
def IsNext (a : Answer) : Prop := ∃ t, a = .next t

@[simp] theorem isNext_next (t : State) : IsNext (.next t) := ⟨t, rfl⟩

theorem isNext_ite {c : Prop} [Decidable c] {a b : Answer} (ha : c → IsNext a) (hb : ¬c → IsNext b) :
    IsNext (if c then a else b) := by
  split
  · exact ha ‹_›
  · exact hb ‹_›

section
variable {s : State}

/-- GEN_TABLE's traversal of a tree of the invariant ends (R97, R180). -/
theorem execGenTable_isNext (h : Inv s) : IsNext (execGenTable s) := by
  refine isNext_ite (fun _ => isNext_next _) fun hv => ?_
  obtain ⟨r, hr, hok⟩ := h.tree (by simpa using hv)
  obtain ⟨l, hl, -⟩ := visit_root_spec h.arena hok.allocated
  simp [visitRoot, hr, hl]

theorem compressStart_isNext (s : State) : IsNext (compressStart s) :=
  isNext_ite (fun _ => isNext_next _) fun _ => isNext_ite (fun _ => isNext_next _) fun _ =>
    isNext_ite (fun _ => isNext_next _) fun _ => isNext_next _

/-- With TREE_VALID, ROOT is an allocated entry (R66 (a)). -/
theorem decompressStart_isNext (h : Inv s) : IsNext (decompressStart s) := by
  refine isNext_ite (fun _ => isNext_next _) fun _ => isNext_ite (fun _ => isNext_next _) fun hv => ?_
  obtain ⟨r, n, hr, hn, -⟩ := decompressStart_root h (by simpa using hv)
  simp [hr, hn]

theorem emitStart_isNext (s : State) : IsNext (emitStart s) :=
  isNext_ite (fun _ => isNext_next _) fun _ => isNext_ite (fun _ => isNext_next _) fun _ => isNext_next _

theorem startStep_isNext (h : Inv s) (i : Instr) : IsNext (startStep i s) := by
  cases i with
  | nop | clrFreq | discard => exact isNext_next _
  | buildFreq | buildHdr => exact isNext_ite (fun _ => isNext_next _) fun _ => isNext_next _
  | genTable => exact execGenTable_isNext h
  | compress => exact compressStart_isNext s
  | decompress => exact decompressStart_isNext h
  | emitHdr => exact emitStart_isNext s

/-- Ending a line never meets a corrupt arena (R97, R169). -/
theorem endLine_ne_corrupt {k : HdrState} {b : Build} (hk : HdrInv k b) (marker : List Byte) :
    endLine marker k b ≠ .corrupt := by
  rcases endLine_spec (marker := marker) hk with ⟨_, _, he, -⟩ | ⟨_, _, he, -⟩ <;> simp [he]

theorem hdrByte_isNext {k : HdrState} (hk : HdrInv k (buildOf s)) (c : Byte) : IsNext (hdrByte k c s) := by
  refine isNext_ite (fun _ => ?_) fun _ => isNext_next _
  split
  · exact isNext_next _
  · exact isNext_next _
  · exact absurd ‹_› (endLine_ne_corrupt hk _)

theorem hdrEnd_isNext {k : HdrState} (hk : HdrInv k (buildOf s)) : IsNext (hdrEnd k s) := by
  unfold hdrEnd
  split
  · exact isNext_ite (fun _ => isNext_next _) fun _ => isNext_next _
  · exact isNext_next _
  · rename_i hc
    split at hc
    · cases hc
    · exact absurd hc (endLine_ne_corrupt hk _)

theorem hdrLoop_isNext {k : HdrState} (hk : HdrInv k (buildOf s)) : IsNext (hdrLoop k s) := by
  unfold hdrLoop
  split
  · exact isNext_next _
  · rename_i tok rest _
    exact isNext_ite (fun _ => hdrEnd_isNext hk) fun _ => hdrByte_isNext (s := countIn (takeToken rest s)) hk tok.data

theorem compressTake_isNext (s : State) : IsNext (compressTake s) := by
  unfold compressTake
  split
  · exact isNext_next _
  · exact isNext_ite (fun _ => isNext_next _) fun _ => isNext_ite (fun _ => isNext_next _) fun _ => isNext_next _

theorem compressPut_isNext {y : Sym} {i : Nat} (hi : i < (ctEntry s y).code.length) : IsNext (compressPut y i s) := by
  simp only [compressPut, List.getElem?_eq_getElem hi]
  exact isNext_ite (fun _ => isNext_next _) fun _ => isNext_next _

theorem emitByte_isNext {y : Sym} {pos : Nat} (hpos : pos < (emitText s y).length) : IsNext (emitByte y pos s) := by
  simp only [emitByte, List.getElem?_eq_getElem hpos]
  exact isNext_ite (fun _ => isNext_next _) fun _ => isNext_next _

/-- From an internal pointer both the pointer and the child a bit selects are allocated (R97, R213). -/
theorem decGeneralStep_isNext (ha : ArenaOk s.arena) (r : Nat) {p : Nat} (hp : IsInternal s.arena p) :
    IsNext (decGeneralStep r p s) := by
  obtain ⟨f, l, l', hn⟩ := hp
  unfold decGeneralStep
  split
  · exact isNext_next _
  · refine isNext_ite (fun _ => isNext_next _) fun _ => ?_
    simp only [hn]
    split
    · exact isNext_next _
    · rename_i c hc
      have hlt : c < s.arena.length := ha.inRange p _ c (link_eq_some.mpr ⟨_, hn, hc⟩)
      split
      · rename_i hnone
        exact absurd hlt (by simpa using hnone)
      · exact isNext_next _
      · exact isNext_ite (fun _ => isNext_next _) fun _ => isNext_ite (fun _ => isNext_next _) fun _ => isNext_next _

theorem decDegenerateStep_isNext {r : Nat} {n : Node} (hn : s.arena[r]? = some n) :
    IsNext (decDegenerateStep r s) := by
  unfold decDegenerateStep
  split
  · exact isNext_next _
  · refine isNext_ite (fun _ => isNext_next _) fun _ => ?_
    cases n with
    | internal f l r' => simp [hn]
    | leaf y f =>
      simp only [hn]
      exact isNext_ite (fun _ => isNext_next _) fun _ => isNext_ite (fun _ => isNext_next _) fun _ => isNext_next _

/-- The engine of a state of the invariant does not stop: what its phase holds is what its step needs (R97). -/
theorem engineStep_isNext (h : Inv s) : IsNext (engineStep s) := by
  rw [engineStep_eq_phaseStep]
  have hp := h.phase
  cases hph : s.phase with
  | idle => exact isNext_next _
  | start i => exact startStep_isNext h i
  | hdr k =>
    rw [hph] at hp
    obtain ⟨-, -, hok⟩ := hp
    exact hdrLoop_isNext (HdrOk.hdrInv h.arena hok)
  | compTake => exact compressTake_isNext s
  | compPut y i =>
    rw [hph] at hp
    obtain ⟨-, -, -, hi⟩ := hp
    exact compressPut_isNext hi
  | compClose | decStop | emitClose => exact isNext_ite (fun _ => isNext_next _) fun _ => isNext_next _
  | decGeneral r p =>
    rw [hph] at hp
    obtain ⟨-, -, -, hint⟩ := hp
    exact decGeneralStep_isNext h.arena r hint
  | decDegenerate r =>
    rw [hph] at hp
    obtain ⟨-, -, n, hn, -⟩ := hp
    exact decDegenerateStep_isNext hn
  | emitPut y pos =>
    rw [hph] at hp
    obtain ⟨-, -, hpos⟩ := hp
    exact emitByte_isNext hpos

end

/-! ### The next move (R92) -/

theorem step_no_moves {s : State} (hm : s.moves = []) : step s = engineStep s := by
  simp [step, hm]

theorem step_engine {s : State} {rest : List Move} (hm : s.moves = .engine :: rest) :
    step s = engineStep { s with moves := rest } := by
  simp [step, hm]

theorem step_act {s : State} {rest : List Move} {a : Action} (hm : s.moves = .act a :: rest) :
    step s = act a { s with moves := rest } := by
  simp [step, hm]

/-- A host access R82 does not define. -/
def UndefinedAccess (off width : Nat) : Prop := width ≠ 4 ∨ off % 4 ≠ 0 ∨ 0x800 ≤ off

theorem access_iff {off width : Nat} : Wf.access off width = true ↔ ¬UndefinedAccess off width := by
  simp [Wf.access, UndefinedAccess]; omega

section
variable {off width : Nat} (s : State)

theorem hostRead_defined (h : ¬UndefinedAccess off width) : hostRead off width s = .next (readReg (regAt off) s) :=
  if_pos (access_iff.mpr h)

theorem hostRead_undefined (h : UndefinedAccess off width) : hostRead off width s = .refused .undefinedAccess :=
  if_neg fun hw => access_iff.mp hw h

theorem hostWrite_defined (h : ¬UndefinedAccess off width) (v : Word) :
    hostWrite off width v s = .next (writeReg (regAt off) v s) :=
  if_pos (access_iff.mpr h)

theorem hostWrite_undefined (h : UndefinedAccess off width) (v : Word) :
    hostWrite off width v s = .refused .undefinedAccess :=
  if_neg fun hw => access_iff.mp hw h

end

/-- The presence inputs are set while BUSY = 0, and at any time to what they are (R91, R280). -/
theorem setPresence_allowed {s : State} {a b : Bool} (h : s.busy = true → a = s.srcPresent ∧ b = s.snkPresent) :
    setPresence a b s = .next { s with srcPresent := a, snkPresent := b } :=
  if_neg (by simpa using h)

theorem setPresence_refused {s : State} {a b : Bool} (hb : s.busy = true)
    (h : ¬(a = s.srcPresent ∧ b = s.snkPresent)) : setPresence a b s = .refused .presenceChangedWhileBusy :=
  if_pos (by simpa [hb] using not_and_or.mp h)

/-- Settles O58: the engine's moves by the phase's part of the invariant, an agent's by its action. -/
theorem stepsAlwaysAnswer : Obligations.StepsAlwaysAnswer := by
  intro s h
  have hmoves (rest : List Move) : Inv { s with moves := rest } :=
    h.frame_same_phase ⟨rfl, rfl, rfl, rfl, rfl, rfl, rfl⟩ rfl
  cases hm : s.moves with
  | nil =>
    left
    rw [step_no_moves hm]
    exact engineStep_isNext h
  | cons m rest =>
    cases m with
    | engine =>
      left
      rw [step_engine hm]
      exact engineStep_isNext (hmoves rest)
    | act a =>
      rw [step_act hm]
      cases a with
      | read off width =>
        by_cases hu : UndefinedAccess off width
        · exact .inr (.inl ⟨off, width, rest, rfl, hu, hostRead_undefined _ hu⟩)
        · exact .inl ⟨_, hostRead_defined _ hu⟩
      | write off width v =>
        by_cases hu : UndefinedAccess off width
        · exact .inr (.inr (.inl ⟨off, width, v, rest, rfl, hu, hostWrite_undefined _ hu v⟩))
        · exact .inl ⟨_, hostWrite_defined _ hu v⟩
      | presence a b =>
        by_cases hp : s.busy = true → a = s.srcPresent ∧ b = s.snkPresent
        · exact .inl ⟨_, setPresence_allowed hp⟩
        · obtain ⟨hb, hne⟩ := Classical.not_imp.mp hp
          exact .inr (.inr (.inr ⟨a, b, rest, rfl, hb, hne, setPresence_refused hb hne⟩))
      | wait | offer | drain | sink | reset => exact .inl ⟨_, rfl⟩

end Sys2Proof.Machine

/-! SUPPORT. The two ports: what an engine step does to them and when it holds (spec/20_memory.md R90,
spec/70_reset_and_hazards.md R276, R281). -/

namespace Sys2Proof.Machine

/-! ### The ports are FIFOs (R90) -/

/-- SRC keeps its tokens, or the oldest one leaves. -/
def TakesOldest (s t : State) : Prop := t.src = s.src ∨ ∃ tok, s.src = tok :: t.src

/-- SNK keeps its tokens, or gets one at its end, which the sink accepts. -/
def PutsLast (s t : State) : Prop := t.snk = s.snk ∨ (s.snkReady = true ∧ ∃ tok, t.snk = s.snk ++ [tok])

/-- What R90 allows a step to do to the ports. -/
def PortsAreFifos (s t : State) : Prop := TakesOldest s t ∧ PutsLast s t

/-- Both ports keep their tokens. -/
def PortsKept (s t : State) : Prop := t.src = s.src ∧ t.snk = s.snk

section
variable {s t : State}

theorem PortsKept.fifos (h : PortsKept s t) : PortsAreFifos s t := ⟨.inl h.1, .inl h.2⟩

theorem portsAreFifos_refl (s : State) : PortsAreFifos s s := ⟨.inl rfl, .inl rfl⟩

/-- The oldest token leaves SRC and nothing else happens to the ports. -/
theorem portsAreFifos_take {tok : SrcToken} (h : s.src = tok :: t.src) (hk : t.snk = s.snk) : PortsAreFifos s t :=
  ⟨.inr ⟨tok, h⟩, .inl hk⟩

theorem portsAreFifos_put {tok : SnkToken} (h : t.src = s.src) (hr : s.snkReady = true) (hk : t.snk = s.snk ++ [tok]) :
    PortsAreFifos s t :=
  ⟨.inl h, .inr ⟨hr, tok, hk⟩⟩

/-- The oldest token leaves SRC and a token goes to the end of SNK, in one step. -/
theorem portsAreFifos_takePut {tok : SrcToken} {tok' : SnkToken} (h : s.src = tok :: t.src) (hr : s.snkReady = true)
    (hk : t.snk = s.snk ++ [tok']) : PortsAreFifos s t :=
  ⟨.inr ⟨tok, h⟩, .inr ⟨hr, tok', hk⟩⟩

/-- The commands of one step leave the ports alone. -/
theorem execBuildFreq_ports (h : execBuildFreq s = .next t) : PortsKept s t := by
  unfold execBuildFreq at h
  split at h <;> cases h <;> exact ⟨rfl, rfl⟩

theorem execGenTable_ports (h : execGenTable s = .next t) : PortsKept s t := by
  unfold execGenTable at h
  split at h
  · cases h; exact ⟨rfl, rfl⟩
  · split at h <;> cases h; exact ⟨rfl, rfl⟩

theorem hdrEnd_ports {k : HdrState} (h : hdrEnd k s = .next t) : PortsKept s t := by
  unfold hdrEnd at h
  split at h
  · split at h <;> cases h <;> exact ⟨rfl, rfl⟩
  · cases h; exact ⟨rfl, rfl⟩
  · cases h

theorem hdrByte_ports {k : HdrState} {c : Byte} (h : hdrByte k c s = .next t) : PortsKept s t := by
  unfold hdrByte at h
  split at h
  · split at h <;> cases h <;> exact ⟨rfl, rfl⟩
  · cases h; exact ⟨rfl, rfl⟩

theorem execBuildHdr_ports (h : execBuildHdr s = .next t) : PortsAreFifos s t := by
  unfold execBuildHdr at h
  split at h
  · unfold hdrLoop at h
    split at h
    · cases h; exact portsAreFifos_refl s
    · rename_i tok rest hsrc
      have taken : PortsKept (takeToken rest s) t → PortsAreFifos s t := fun ⟨hs, hk⟩ =>
        portsAreFifos_take (tok := tok) (by rw [hs, hsrc]; rfl) hk
      split at h
      · exact taken (hdrEnd_ports h)
      · exact taken (hdrByte_ports h :)
  · unfold hdrStart at h
    split at h <;> cases h <;> exact portsAreFifos_refl s

theorem execCompress_ports (h : execCompress s = .next t) : PortsAreFifos s t := by
  unfold execCompress at h
  split at h
  · unfold compressTake at h
    split at h
    · cases h; exact portsAreFifos_refl s
    · rename_i hsrc
      split at h
      · cases h; exact portsAreFifos_take hsrc rfl
      · split at h <;> cases h <;> exact portsAreFifos_take hsrc rfl
  · unfold compressPut at h
    split at h
    · cases h
    · split at h <;> cases h
      · exact portsAreFifos_put rfl ‹_› rfl
      · exact portsAreFifos_refl s
  · unfold compressClose at h
    split at h <;> cases h
    · exact portsAreFifos_put rfl ‹_› rfl
    · exact portsAreFifos_refl s
  · unfold compressStart at h
    repeat' split at h
    all_goals cases h; exact PortsKept.fifos ⟨rfl, rfl⟩

/-- The general path takes a token in every answer but a hold, and puts with it after the leaf of a byte (R213). -/
theorem decGeneralStep_ports {r p : Nat} (h : decGeneralStep r p s = .next t) : PortsAreFifos s t := by
  unfold decGeneralStep at h
  split at h
  · cases h; exact portsAreFifos_refl s
  · rename_i hsrc
    split at h
    · cases h; exact portsAreFifos_take hsrc rfl
    · split at h
      · cases h
      · split at h
        · cases h; exact portsAreFifos_take hsrc rfl
        · split at h
          · cases h
          · cases h; exact portsAreFifos_take hsrc rfl
          · split at h
            · cases h; exact portsAreFifos_take hsrc rfl
            · split at h <;> cases h
              · exact portsAreFifos_takePut hsrc ‹_› rfl
              · exact portsAreFifos_refl s

/-- The degenerate path takes a token in every answer but a hold, and puts with it for a byte (R212). -/
theorem decDegenerateStep_ports {r : Nat} (h : decDegenerateStep r s = .next t) : PortsAreFifos s t := by
  unfold decDegenerateStep at h
  split at h
  · cases h; exact portsAreFifos_refl s
  · rename_i hsrc
    split at h
    · cases h; exact portsAreFifos_take hsrc rfl
    · split at h
      · cases h
      · cases h; exact portsAreFifos_take hsrc rfl
      · split at h
        · cases h; exact portsAreFifos_take hsrc rfl
        · split at h <;> cases h
          · exact portsAreFifos_takePut hsrc ‹_› rfl
          · exact portsAreFifos_refl s

theorem execDecompress_ports (h : execDecompress s = .next t) : PortsAreFifos s t := by
  unfold execDecompress at h
  split at h
  · exact decGeneralStep_ports h
  · exact decDegenerateStep_ports h
  · unfold decStopStep at h
    split at h <;> cases h
    · exact portsAreFifos_put rfl ‹_› rfl
    · exact portsAreFifos_refl s
  · unfold decompressStart at h
    repeat' split at h
    all_goals cases h
    all_goals exact PortsKept.fifos ⟨rfl, rfl⟩

theorem execEmitHdr_ports (h : execEmitHdr s = .next t) : PortsAreFifos s t := by
  unfold execEmitHdr at h
  split at h
  · unfold emitByte at h
    split at h
    · cases h
    · split at h <;> cases h
      · exact portsAreFifos_put rfl ‹_› rfl
      · exact portsAreFifos_refl s
  · unfold emitEnd at h
    split at h <;> cases h
    · exact portsAreFifos_put rfl ‹_› rfl
    · exact portsAreFifos_refl s
  · unfold emitStart at h
    repeat' split at h
    all_goals cases h; exact PortsKept.fifos ⟨rfl, rfl⟩

end

/-- Settles O17: command by command. -/
theorem enginePortsAreFifos : Obligations.EnginePortsAreFifos := by
  intro i s t h
  change PortsAreFifos s t
  cases i with
  | nop | clrFreq | discard => cases h; exact PortsKept.fifos ⟨rfl, rfl⟩
  | buildFreq => exact (execBuildFreq_ports h).fifos
  | buildHdr => exact execBuildHdr_ports h
  | genTable => exact (execGenTable_ports h).fifos
  | compress => exact execCompress_ports h
  | decompress => exact execDecompress_ports h
  | emitHdr => exact execEmitHdr_ports h

/-! ### The engine holds (R276, R281) -/

section
variable {s : State}

/-- A phase whose step takes a token before anything else. -/
def AtTake (ph : Phase) : Prop :=
  ph = .compTake ∨ (∃ h, ph = .hdr h) ∨ (∃ r p, ph = .decGeneral r p) ∨ ∃ r, ph = .decDegenerate r

theorem phaseStep_holds_at_take {ph : Phase} (hsrc : s.src = []) (h : AtTake ph) : phaseStep ph s = .next s := by
  rcases h with rfl | ⟨h, rfl⟩ | ⟨r, p, rfl⟩ | ⟨r, rfl⟩
  · simp [phaseStep, compressTake, hsrc]
  · simp [phaseStep, hdrLoop, hsrc]
  · simp [phaseStep, decGeneralStep, hsrc]
  · simp [phaseStep, decDegenerateStep, hsrc]

/-- A phase whose step puts a token, at a position inside its code or text. -/
def AtPut (s : State) (ph : Phase) : Prop :=
  ph = .compClose ∨ ph = .emitClose ∨ (∃ b, ph = .decStop b) ∨
    (∃ y n, ph = .compPut y n ∧ n < (ctEntry s y).code.length) ∨
    ∃ y n, ph = .emitPut y n ∧ n < (pairLines s y).length

theorem phaseStep_holds_at_put {ph : Phase} (hr : s.snkReady = false) (h : AtPut s ph) : phaseStep ph s = .next s := by
  rcases h with rfl | rfl | ⟨b, rfl⟩ | ⟨y, n, rfl, hn⟩ | ⟨y, n, rfl, hn⟩
  · simp [phaseStep, compressClose, hr]
  · simp [phaseStep, emitEnd, hr]
  · simp [phaseStep, decStopStep, hr]
  · simp [phaseStep, compressPut, List.getElem?_eq_getElem hn, hr]
  · rw [← emitText_eq_pairLines] at hn
    simp [phaseStep, emitByte, List.getElem?_eq_getElem hn, hr]

/-- The leaf of a byte below the pointer holds the bit that leads to it (R213). -/
theorem decGeneralStep_holds_at_byte {r p c : Nat} {data b : Byte} {rest : List SrcToken} (hr : s.snkReady = false)
    (hsrc : s.src = ⟨false, data⟩ :: rest) (hl : link s.arena p (data.getLsbD 0) = some c)
    (hc : IsLeaf s.arena c (symOfByte b)) : decGeneralStep r p s = .next s := by
  obtain ⟨n, hn, hch⟩ := link_eq_some.mp hl
  obtain ⟨f, hf⟩ := hc
  have hbit : n.child (tokenBit ⟨false, data⟩) = some c := hch
  simp [decGeneralStep, hsrc, hn, hbit, hf, symOfByte_ne_eof, hr]

/-- A root that is the leaf of a byte holds the token that would put it (R212). -/
theorem decDegenerateStep_holds_at_byte {r : Nat} {data b : Byte} {rest : List SrcToken} (hr : s.snkReady = false)
    (hsrc : s.src = ⟨false, data⟩ :: rest) (hc : IsLeaf s.arena r (symOfByte b)) :
    decDegenerateStep r s = .next s := by
  obtain ⟨f, hf⟩ := hc
  simp [decDegenerateStep, hsrc, hf, symOfByte_ne_eof, hr]

end

/-- Settles O18: by the step of the phase the running command is in. -/
theorem engineHoldsOnItsPorts : Obligations.EngineHoldsOnItsPorts := by
  intro s i hi
  rw [exec_eq_phaseStep hi]
  refine ⟨phaseStep_holds_at_take, phaseStep_holds_at_put, ?_⟩
  rintro data b rest hr hsrc (⟨r, p, c, hph, hl, hc⟩ | ⟨r, hph, hc⟩)
  · rw [hph]
    exact decGeneralStep_holds_at_byte hr hsrc hl hc
  · rw [hph]
    exact decDegenerateStep_holds_at_byte hr hsrc hc

end Sys2Proof.Machine

/-! SUPPORT. The register window as one step of the host (spec/20_memory.md R81 to R84), and the moves of the other
agents (R90, R91, R98). -/

namespace Sys2Proof.Machine

/-! ### Defined and undefined accesses (R82) -/

/-- Settles O8: an access is answered exactly if R82 defines it. -/
theorem undefinedAccessesAreRefused : Obligations.UndefinedAccessesAreRefused := by
  intro s rest off width v
  refine ⟨fun hu => ⟨fun hm => ?_, fun hm => ?_⟩, fun hw ha hlt => ?_⟩
  · exact (step_act hm).trans (hostRead_undefined _ hu)
  · exact (step_act hm).trans (hostWrite_undefined _ hu v)
  · have hd : ¬UndefinedAccess off width := by rw [UndefinedAccess]; omega
    exact ⟨fun hm => ⟨_, (step_act hm).trans (hostRead_defined _ hd)⟩,
      fun hm => ⟨_, (step_act hm).trans (hostWrite_defined _ hd v)⟩⟩

/-- A 32-bit write at an aligned offset writes the register that stands there. -/
theorem step_write_at {s : State} {rest : List Move} {off : Nat} {v : Word} (ha : off % 4 = 0) (hlt : off < 0x800)
    (hm : s.moves = .act (.write off 4 v) :: rest) :
    step s = .next (writeReg (regAt off) v { s with moves := rest }) :=
  (step_act hm).trans (if_pos (access_ok ha hlt))

/-- A 32-bit read at an aligned offset reads the register that stands there. -/
theorem step_read_at {s : State} {rest : List Move} {off : Nat} (ha : off % 4 = 0) (hlt : off < 0x800)
    (hm : s.moves = .act (.read off 4) :: rest) :
    step s = .next (readReg (regAt off) { s with moves := rest }) :=
  (step_act hm).trans (if_pos (access_ok ha hlt))

/-! ### Registers a write does not reach (R83, R84) -/

/-- The registers that take a write; the others are read-only or reserved (R81). -/
def IsWritable (r : Reg) : Prop := r = .cmd ∨ r = .ctSel ∨ r = .nodeSel ∨ ∃ b, r = .freq b

theorem writeReg_ignored {r : Reg} (h : ¬IsWritable r) (v : Word) (s : State) : writeReg r v s = s := by
  cases r with
  | cmd | ctSel | nodeSel | freq b => simp [IsWritable] at h
  | _ => rfl

/-- Below FREQ only the offsets of CMD, CT_SEL and NODE_SEL take a write (R81). -/
theorem regAt_not_isWritable {off : Nat} (hlt : off < 0x400) (hcmd : off ≠ 0x008) (hct : off ≠ 0x028)
    (hnode : off ≠ 0x030) : ¬IsWritable (regAt off) := by
  unfold regAt
  rw [dif_neg (by omega)]
  split
  · simp [IsWritable]
  · split <;> simp [IsWritable] at hcmd hct hnode ⊢

/-- Past NODE_LINKS and outside CT_WORD0..7 an offset below FREQ is reserved (R83). -/
theorem regAt_reserved {off : Nat} (hlo : 0x040 < off) (hhi : off < 0x400) (hw : off < 0x060 ∨ 0x080 ≤ off) :
    regAt off = .reserved := by
  unfold regAt
  rw [dif_neg (by omega), dif_neg (by omega)]
  split
  case h_18 => rfl
  all_goals omega

/-- Settles O9: the offsets are those of the reserved register, which reads 0 and is not written. -/
theorem reservedOffsetsReadZero : Obligations.ReservedOffsetsReadZero := by
  intro s rest off v ha hlo hhi hw
  refine ⟨fun hm => ?_, fun hm => ?_⟩
  · rw [step_read_at ha (by omega) hm, regAt_reserved hlo hhi hw, readReg_specified rfl]
    rfl
  · rw [step_write_at ha (by omega) hm,
      writeReg_ignored (regAt_not_isWritable hhi (by omega) (by omega) (by omega))]

/-- Settles O10: none of the offsets takes a write, and the reads of ID, PARAMS and CMD are never unspecified. -/
theorem readOnlyRegistersIgnoreWrites : Obligations.ReadOnlyRegistersIgnoreWrites := by
  intro s rest v
  refine ⟨fun off ha hoff hcmd hct hnode hm => ?_, fun hm => ?_, fun hm => ?_, fun hm => ?_⟩
  · rw [step_write_at ha (by omega) hm, writeReg_ignored (regAt_not_isWritable (by omega) hcmd hct hnode)]
  · rw [step_read .id hm, readReg_specified rfl]
    rfl
  · rw [step_read .params hm, readReg_specified rfl]
    rfl
  · rw [step_read .cmd hm, readReg_specified rfl]
    rfl

/-! ### Reads while BUSY (R67) -/

/-- The readback registers of R67. -/
def IsReadback (r : Reg) : Prop :=
  r ∈ [.treeRoot, .nodeCount, .ctInfo, .nodeInfo, .nodeFreqLo, .nodeFreqHi, .nodeLinks] ∨ ∃ k, r = .ctWord k

theorem unspecifiedWhileBusy_iff (r : Reg) : unspecifiedWhileBusy r = true ↔ IsReadback r := by
  cases r <;> simp [unspecifiedWhileBusy, IsReadback]

theorem readReg_unspecified {r : Reg} {s : State} (hb : s.busy = true) (hr : IsReadback r) :
    readReg r s = { returnRead (Config.freeWord s.draws) s with draws := s.draws + 1 } :=
  if_pos (by rw [hb, (unspecifiedWhileBusy_iff r).mpr hr]; rfl)

theorem readReg_value {r : Reg} {s : State} (h : s.busy = false ∨ ¬IsReadback r) :
    readReg r s = returnRead (regValue s r) s := by
  refine if_neg ?_
  rw [Bool.and_eq_true, unspecifiedWhileBusy_iff, not_and_or, Bool.not_eq_true]
  exact h

/-- A register's value does not depend on the moves to come. -/
theorem regValue_moves (s : State) (rest : List Move) (r : Reg) :
    regValue { s with moves := rest } r = regValue s r := by
  cases r <;> rfl

/-- The registers of the map that stand alone, and the first reserved offset, with their offsets (R81). -/
def singleRegisters : List (Nat × Reg) :=
  [(0x000, .id), (0x004, .params), (0x008, .cmd), (0x00C, .status), (0x010, .errCause), (0x014, .errInfo),
    (0x018, .treeRoot), (0x01C, .nodeCount), (0x020, .inCount), (0x024, .outCount), (0x028, .ctSel), (0x02C, .ctInfo),
    (0x030, .nodeSel), (0x034, .nodeInfo), (0x038, .nodeFreqLo), (0x03C, .nodeFreqHi), (0x040, .nodeLinks),
    (0x044, .reserved)]

theorem offsetOf_of_mem_singleRegisters : ∀ p ∈ singleRegisters, offsetOf p.2 = p.1 := by decide

/-- Settles O13: the offset is the register's own, and a read there is a free draw exactly for R67's list while BUSY. -/
theorem busyReadbackIsUnspecified : Obligations.BusyReadbackIsUnspecified := by
  intro s rest off r hmap
  obtain rfl : offsetOf r = off := by
    rcases hmap with hmem | ⟨k, rfl, rfl⟩ | ⟨b, rfl, rfl⟩
    · exact offsetOf_of_mem_singleRegisters _ hmem
    · rfl
    · rfl
  refine ⟨rfl, fun hm => ⟨fun hb hr => ?_, fun h => ?_⟩⟩
  · have hread := readReg_unspecified (s := { s with moves := rest }) hb hr
    exact ⟨_, _, (step_read r hm).trans (congrArg _ hread)⟩
  · have hread := readReg_value (s := { s with moves := rest }) h
    rw [regValue_moves] at hread
    exact (step_read r hm).trans (congrArg _ hread)

/-! ### The source, the sink and the platform (R90, R91, R98) -/

/-- Settles O59: action by action; the presence inputs by whether they may change. -/
theorem agentsMoveThePorts : Obligations.AgentsMoveThePorts := by
  intro s rest
  refine ⟨fun _ => step_act, step_act, fun _ => step_act, fun a b hm =>
    ⟨fun hb => ?_, fun _ ha hb => ?_, fun hb hne => ?_⟩⟩
  · exact (step_act hm).trans (setPresence_allowed fun hb' => absurd (hb.symm.trans hb') (by decide))
  · subst ha hb
    exact (step_act hm).trans (setPresence_allowed fun _ => ⟨rfl, rfl⟩)
  · exact (step_act hm).trans (setPresence_refused hb (not_and_or.mpr hne))

end Sys2Proof.Machine

/-! SUPPORT. The command word, its acceptance, the engine's turn that runs it, that no command is
refused, and the poll of WAIT (spec/30_encoding.md R110 to R115, R125). -/

namespace Sys2Proof.Machine

/-! ### The command word (R110, R112, R114) -/

/-- A word is its RSVD field above its OPCODE field (R110). -/
theorem reservedField_append_opcodeField (w : Word) : reservedField w ++ opcodeField w = w :=
  (BitVec.extractLsb'_append_extractLsb'_eq_extractLsb' rfl).trans BitVec.extractLsb'_eq_self

theorem encode_eq_append (i : Instr) : encode i = 0#24 ++ opcodeOf i := BitVec.setWidth_eq_append (by decide)

theorem decode_encode : ∀ i : Instr, decode (encode i) = .ok i
  | .nop => Laws.RoundTrip.nop trivial
  | .clrFreq => Laws.RoundTrip.clrFreq trivial
  | .buildFreq => Laws.RoundTrip.buildFreq trivial
  | .buildHdr => Laws.RoundTrip.buildHdr trivial
  | .genTable => Laws.RoundTrip.genTable trivial
  | .compress => Laws.RoundTrip.compress trivial
  | .decompress => Laws.RoundTrip.decompress trivial
  | .emitHdr => Laws.RoundTrip.emitHdr trivial
  | .discard => Laws.RoundTrip.discard trivial

theorem decode_eq_ok_iff {w : Word} {i : Instr} :
    decode w = .ok i ↔ reservedField w = 0 ∧ commandOf (opcodeField w) = some i := by
  unfold decode
  split
  · exact ⟨nofun, fun h => absurd h.1 ‹_›⟩
  · rename_i hr
    rw [not_not.mp hr]
    split <;> simp [*]

/-- The two directions of the opcode map agree (R112). -/
theorem opcodeOf_of_commandOf {op : BitVec 8} {i : Instr} (h : commandOf op = some i) : opcodeOf i = op := by
  apply BitVec.eq_of_toNat_eq
  unfold commandOf at h
  split at h <;> cases h <;> exact Eq.symm ‹_›

/-- The opcode map lists exactly 0x00 to 0x08 (R112). -/
theorem exists_commandOf_iff {op : BitVec 8} : (∃ i, commandOf op = some i) ↔ op.toNat ≤ 8 := by
  constructor
  · rintro ⟨i, h⟩
    rw [← opcodeOf_of_commandOf h]
    cases i <;> decide
  · intro h
    unfold commandOf
    interval_cases op.toNat <;> exact ⟨_, rfl⟩

theorem encode_of_decode {w : Word} {i : Instr} (h : decode w = .ok i) : w = encode i := by
  obtain ⟨hr, hc⟩ := decode_eq_ok_iff.mp h
  calc w = reservedField w ++ opcodeField w := (reservedField_append_opcodeField w).symm
    _ = 0#24 ++ opcodeOf i := by rw [hr, opcodeOf_of_commandOf hc]; rfl
    _ = encode i := (encode_eq_append i).symm

theorem exists_decode_iff {w : Word} : (∃ i, decode w = .ok i) ↔ reservedField w = 0 ∧ (opcodeField w).toNat ≤ 8 := by
  simp only [decode_eq_ok_iff, exists_and_left, exists_commandOf_iff]

/-- Settles O1: the RSVD field decides first, then the opcode map; the nine words are one per command. -/
theorem decodeInvertsEncode : Obligations.DecodeInvertsEncode :=
  ⟨decode_encode, fun _ _ => encode_of_decode, fun _ => exists_decode_iff, decode_encode .nop, decode_encode .clrFreq,
    decode_encode .buildFreq, decode_encode .buildHdr, decode_encode .genTable, decode_encode .compress,
    decode_encode .decompress, decode_encode .emitHdr, decode_encode .discard⟩

/-! ### Acceptance (R113 to R115) -/

theorem accept_encode (i : Instr) (s : State) :
    accept (encode i) s = { clearForAccept (encode i) s with phase := .start i } := by
  simp only [accept, decode_encode]

/-- A word that is none of the opcode map faults at acceptance (R114). -/
theorem accept_illegal {w : Word} (h : ¬∃ i, decode w = .ok i) (s : State) :
    accept w s = raiseFault .badCommand .zero w (clearForAccept w s) := by
  unfold accept
  split
  · exact absurd ⟨_, ‹_›⟩ h
  · rfl

theorem writeCmd_busy {s : State} (hb : s.busy = true) (w : Word) : writeCmd w s = setOverrun s := if_pos hb

theorem writeCmd_idle {s : State} (hb : s.busy = false) (w : Word) : writeCmd w s = accept w s :=
  if_neg (Bool.eq_false_iff.mp hb)

/-- A write of CMD that finds BUSY = 0 is acceptance (R113). -/
theorem step_cmd_idle {s : State} {rest : List Move} {w : Word} (hb : s.busy = false)
    (hm : s.moves = .act (.write 0x008 4 w) :: rest) : step s = .next (accept w { s with moves := rest }) :=
  (step_write .cmd hm).trans (congrArg _ (writeCmd_idle (s := { s with moves := rest }) hb w))

/-- Settles O2: the word decodes, so acceptance clears and starts. -/
theorem legalWordIsAccepted : Obligations.LegalWordIsAccepted := by
  intro s rest i hb hm
  rw [step_cmd_idle hb hm, accept_encode]
  rfl

/-- Settles O3: neither kind of word decodes, and the fault is raised on the cleared state. -/
theorem illegalWordFaultsAtAcceptance : Obligations.IllegalWordFaultsAtAcceptance := by
  intro s rest w hidle hw hm
  have hb : s.busy = false := by simp [State.busy, hidle, Phase.command]
  have hbad : ¬∃ i, decode w = .ok i := by
    rw [exists_decode_iff, reservedField, opcodeField]
    rintro ⟨hr, ho⟩
    exact hw.elim (absurd hr) (by omega)
  rw [step_cmd_idle hb hm, accept_illegal hbad]
  simp only [raiseFault, clearForAccept, hidle]
  rfl

/-- Settles O4: a CMD write that finds BUSY = 1 does not look at the word. -/
theorem busyWordOnlySetsOverrun : Obligations.BusyWordOnlySetsOverrun := by
  intro s rest w hb hm
  exact (step_write .cmd hm).trans (congrArg _ (writeCmd_busy (s := { s with moves := rest }) hb w))

/-! ### The engine's turn (R60, R271) -/

theorem engineStep_running {s : State} {i : Instr} (h : s.phase.command = some i) : engineStep s = exec i s := by
  simp [engineStep, h]

theorem engineStep_idle {s : State} (h : s.phase = .idle) : engineStep s = .next s := by
  simp [engineStep, h, Phase.command]

/-- A command word fits the row of 32 bits it is given as (R110). -/
theorem tableWord_toNat (w : Word) : tableWord 32 w.toNat = some w := by
  simp [tableWord, Nat.mod_eq_of_lt w.isLt, w.isLt]

theorem withFetchWord_encode (s : State) (i : Instr) :
    s.withFetchWord 32 (encode i).toNat =
      { clearForAccept (encode i) { s with phase := .idle } with phase := .start i, moves := [] } := by
  simp [State.withFetchWord, tableWord_toNat, accept_encode]

/-- Settles O5: by the next move, and by what `withFetchWord` of a command's word leaves. -/
theorem stepRunsTheAcceptedCommand : Obligations.StepRunsTheAcceptedCommand := by
  refine ⟨fun s i hp hm => ?_, fun s i rest hp hm => ?_, fun s hp hm => ?_, fun s rest hp hm => ?_, fun s i => ?_⟩
  · exact (step_no_moves hm).trans (engineStep_running hp)
  · exact (step_engine hm).trans (engineStep_running hp)
  · exact (step_no_moves hm).trans (engineStep_idle hp)
  · exact (step_engine hm).trans (engineStep_idle hp)
  · rw [withFetchWord_encode]
    exact ⟨rfl, (step_no_moves rfl).trans (engineStep_running rfl)⟩

/-! ### No command is refused (R112, R244) -/

/-- A next state or a stop of the model, not a refusal. -/
def NotRefused (a : Answer) : Prop := ∀ r, a ≠ .refused r

@[simp] theorem notRefused_next (t : State) : NotRefused (.next t) := nofun

@[simp] theorem notRefused_fault (f : Fault) : NotRefused (.fault f) := nofun

theorem IsNext.notRefused {a : Answer} (h : IsNext a) : NotRefused a := by
  obtain ⟨t, rfl⟩ := h
  exact notRefused_next t

theorem notRefused_ite {c : Prop} [Decidable c] {a b : Answer} (ha : NotRefused a) (hb : NotRefused b) :
    NotRefused (if c then a else b) := by
  split
  · exact ha
  · exact hb

section
variable (s : State)

theorem execBuildFreq_notRefused : NotRefused (execBuildFreq s) :=
  notRefused_ite (notRefused_next _) (notRefused_next _)

theorem execGenTable_notRefused : NotRefused (execGenTable s) := by
  refine notRefused_ite (notRefused_next _) ?_
  split <;> simp

theorem hdrByte_notRefused (h : HdrState) (c : Byte) : NotRefused (hdrByte h c s) := by
  refine notRefused_ite ?_ (notRefused_next _)
  split <;> simp

theorem hdrEnd_notRefused (h : HdrState) : NotRefused (hdrEnd h s) := by
  unfold hdrEnd
  split
  · exact notRefused_ite (notRefused_next _) (notRefused_next _)
  · exact notRefused_next _
  · exact notRefused_fault _

theorem execBuildHdr_notRefused : NotRefused (execBuildHdr s) := by
  unfold execBuildHdr
  split
  · unfold hdrLoop
    split
    · exact notRefused_next _
    · exact notRefused_ite (hdrEnd_notRefused _ _) (hdrByte_notRefused _ _ _)
  · exact notRefused_ite (notRefused_next _) (notRefused_next _)

theorem execCompress_notRefused : NotRefused (execCompress s) := by
  unfold execCompress
  split
  · exact (compressTake_isNext s).notRefused
  · unfold compressPut
    split
    · exact notRefused_fault _
    · exact notRefused_ite (notRefused_next _) (notRefused_next _)
  · exact notRefused_ite (notRefused_next _) (notRefused_next _)
  · exact (compressStart_isNext s).notRefused

theorem decompressStart_notRefused : NotRefused (decompressStart s) := by
  refine notRefused_ite (notRefused_next _) (notRefused_ite (notRefused_next _) ?_)
  split
  · exact notRefused_fault _
  · split <;> simp

theorem decGeneralStep_notRefused (r p : Nat) : NotRefused (decGeneralStep r p s) := by
  unfold decGeneralStep
  repeat' split
  all_goals simp

theorem decDegenerateStep_notRefused (r : Nat) : NotRefused (decDegenerateStep r s) := by
  unfold decDegenerateStep
  repeat' split
  all_goals simp

theorem execDecompress_notRefused : NotRefused (execDecompress s) := by
  unfold execDecompress
  split
  · exact decGeneralStep_notRefused s _ _
  · exact decDegenerateStep_notRefused s _
  · exact notRefused_ite (notRefused_next _) (notRefused_next _)
  · exact decompressStart_notRefused s

theorem execEmitHdr_notRefused : NotRefused (execEmitHdr s) := by
  unfold execEmitHdr
  split
  · unfold emitByte
    split
    · exact notRefused_fault _
    · exact notRefused_ite (notRefused_next _) (notRefused_next _)
  · exact notRefused_ite (notRefused_next _) (notRefused_next _)
  · exact (emitStart_isNext s).notRefused

end

/-- Settles O24: command by command, each branch of its step is a next state or a stop of the model. -/
theorem noCommandIsRefused : Obligations.NoCommandIsRefused := by
  intro i s
  change NotRefused (exec i s)
  cases i with
  | nop | clrFreq | discard => exact notRefused_next _
  | buildFreq => exact execBuildFreq_notRefused s
  | buildHdr => exact execBuildHdr_notRefused s
  | genTable => exact execGenTable_notRefused s
  | compress => exact execCompress_notRefused s
  | decompress => exact execDecompress_notRefused s
  | emitHdr => exact execEmitHdr_notRefused s

/-! ### The poll of WAIT (R125) -/

theorem hostWait_busy {s : State} (hb : s.busy = true) :
    hostWait s = { s with reads := s.reads ++ [statusWord s], moves := .engine :: .act .wait :: s.moves } := by
  rw [hostWait, statusWord_busy, hb]
  rfl

theorem hostWait_idle {s : State} (hb : s.busy = false) :
    hostWait s = { s with reads := s.reads ++ [statusWord s] } := by
  rw [hostWait, statusWord_busy, hb]
  rfl

/-- Settles O16: bit 0 of the STATUS word read is BUSY. -/
theorem waitPollsStatus : Obligations.WaitPollsStatus := by
  intro s rest hm
  exact ⟨fun hb => (step_act hm).trans (congrArg _ (hostWait_busy (s := { s with moves := rest }) hb)),
    fun hb => (step_act hm).trans (congrArg _ (hostWait_idle (s := { s with moves := rest }) hb))⟩

end Sys2Proof.Machine

/-! SUPPORT. CLR_FREQ, BUILD_FREQ and the tree it leaves for GEN_TABLE (spec/40_freq_build.md R140 to R148). -/

namespace Sys2Proof.Machine

/-! ### CLR_FREQ and the missing inputs (R142, R144, R180) -/

/-- Settles O27: the new FREQ file is 256 zeros. -/
theorem clrFreqClearsEveryCount : Obligations.ClrFreqClearsEveryCount :=
  fun _ => ⟨Vector.replicate 256 0, rfl, fun b => Vector.getElem_replicate b.isLt⟩

theorem execBuildFreq_empty {s : State} (h : ∀ b : Fin 256, s.freq[b.val] = 0#32) :
    execBuildFreq s = .next (raiseFault .emptyFreqTable .zero 0 s) := by
  refine if_pos (List.all_eq_true.mpr fun w hw => ?_)
  obtain ⟨b, hb, rfl⟩ := Vector.mem_iff_getElem.mp (Vector.mem_toList_iff.mp hw)
  exact beq_iff_eq.mpr (h ⟨b, hb⟩)

theorem execGenTable_noTree {s : State} (h : s.treeValid = false) :
    execGenTable s = .next (raiseFault .emptyTree .zero 0 s) := if_pos (by rw [h]; rfl)

/-- Settles O28: each command's start check raises its fault on the state as it is. -/
theorem missingInputsFault : Obligations.MissingInputsFault :=
  fun _ => ⟨execBuildFreq_empty, execGenTable_noTree⟩

/-! ### The tree of BUILD_FREQ (R143 to R146) -/

/-- What BUILD_FREQ leaves as arena and ROOT (R144). -/
theorem tree_of_buildFreq {s t : State} (h : ∃ b : Fin 256, s.freq[b.val] ≠ 0#32)
    (he : exec .buildFreq s = .next t) :
    t.arena = (mergeAll s.freq).1 ∧ t.root = some (2 * leafCount s.freq - 2) := by
  cases (execBuildFreq_next h).symm.trans he
  exact ⟨rfl, rfl⟩

section
variable (freq : Vector Word 256)

/-- What the merge that made an internal node saw and added up (R140, R143, R144). -/
theorem mergeAll_merged {k a b : Nat} {f : Option NodeFreq}
    (hk : (mergeAll freq).1[k]? = some (.internal f (some a) (some b))) :
    (∃ g, f = some g ∧ g.toNat = (freqAt (mergeAll freq).1 a).toNat + (freqAt (mergeAll freq).1 b).toNat) ∧
      Before (mergeAll freq).1 a b ∧
      ∀ j < k, j ≠ a → j ≠ b → (∀ m < k, ∀ bit, link (mergeAll freq).1 m bit ≠ some j) →
        Before (mergeAll freq).1 b j := by
  have hint : IsInternal (mergeAll freq).1 k := ⟨_, _, _, hk⟩
  obtain ⟨x, y, g, hxy, -, -, hsum, hfirst, hrest⟩ :=
    (mergeAll_spec freq).1.merged k (mergeAll_internal freq hint).1 hint.lt
  cases hk.symm.trans hxy
  exact ⟨⟨g, rfl, hsum⟩, hfirst, hrest⟩

/-- The last node alone in Q holds the whole total (R143). -/
theorem mergeAll_root_freq :
    (freqAt (mergeAll freq).1 (2 * leafCount freq - 2)).toNat = freqTotal freq := by
  simpa using (mergeAll_spec freq).1.total

end

/-- Settles O30: the merge that made node `k` chose by the keys, and no later merge changes a key or a link. -/
theorem buildFreqMergesSmallestKeys : Obligations.BuildFreqMergesSmallestKeys := by
  intro s t h he k f a b
  rw [(tree_of_buildFreq h he).1]
  intro hk
  exact (mergeAll_merged s.freq hk).2

/-- Settles O31: the sums of the merges, and the total that the merges hand on to the root. -/
theorem buildFreqSumsExactly : Obligations.BuildFreqSumsExactly := by
  intro s t h he
  obtain ⟨harena, hroot⟩ := tree_of_buildFreq h he
  rw [harena]
  exact ⟨fun k f a b hk => (mergeAll_merged s.freq hk).1, _, hroot, mergeAll_root_freq s.freq⟩

/-- Settles O32: the arena is a forest whose only node without a parent is the root. -/
theorem buildFreqTreeIsFull : Obligations.BuildFreqTreeIsFull := by
  intro s t h he
  obtain ⟨harena, hroot⟩ := tree_of_buildFreq h he
  rw [harena]
  have hok := mergeAll_arenaOk s.freq
  refine ⟨_, hroot, fun j hj hr => ?_, fun k bit => mergeAll_bothChildren s.freq bit,
    fun p j => mergeAll_depth s.freq, fun y => ⟨(mergeAll_leafAt s.freq y).symm, fun p q hp hq => ?_⟩⟩
  · obtain ⟨k, bit, hk⟩ := mergeAll_parent s.freq hj hr
    exact ⟨k, bit, hk, fun k' bit' hk' => hok.oneParent _ _ _ _ _ hk' hk⟩
  · exact hp.unique hok (mergeAll_top s.freq) hq

/-- Settles O29: the leaves are the first nodes and every later node is a merge of two before it. -/
theorem buildFreqLayout : Obligations.BuildFreqLayout := by
  intro s h
  refine ⟨_, _, execBuildFreq_next h, fun y => ctEntry_dropTree s y, mergeAll_length s.freq, ?_, fun k hL hk => ?_⟩
  · exact (mergeAll_spec s.freq).1.leavesFirst.trans (leaves_eq s.freq)
  · obtain ⟨a, b, f, hab, ha, hb, -⟩ := (mergeAll_spec s.freq).1.merged k hL hk
    exact ⟨f, a, b, hab, ha, hb⟩

/-! ### One nonzero count (R148) -/

theorem CtEntry.eq_mk_iff {e : CtEntry} {valid : Bool} {code : List Bool} :
    e = ⟨valid, code⟩ ↔ e.valid = valid ∧ e.code = code := by
  cases e; simp

/-- GEN_TABLE over a tree completes, and its table is the paths to the leaves (R180, R182 (a), (b)). -/
theorem execGenTable_of_tree {s : State} {r : Nat} (hv : s.treeValid = true) (hroot : s.root = some r)
    (ha : ArenaOk s.arena) (hr : RootOk s.arena r) :
    ∃ ct : Vector CtEntry 257, execGenTable s = .next (finish { s with ct := ct, ctValid := true }) ∧
      ∀ (y : Sym) (code : List Bool),
        (ct[y.val].valid = true ∧ ct[y.val].code = code) ↔ LeafAt s.arena r code y := by
  obtain ⟨l, hl, hm⟩ := visit_root_spec ha hr.allocated
  refine ⟨fillTable (clearValid s.ct) l, ?_, fillTable_visit ha hr.top hm s.ct⟩
  simp only [execGenTable, hv, visitRoot, hroot, hl]
  rfl

theorem removeMin_singleton (a : List Node) (i : Nat) : removeMin a [i] = some (i, []) := by
  simp [removeMin, minKey]

theorem removeMin_pair (a : List Node) {i j : Nat} (h : i ≠ j) :
    removeMin a [i, j] = some (if keyLess a j i then (j, [i]) else (i, [j])) := by
  by_cases hk : keyLess a j i = true
  · simp [removeMin, minKey, hk, h]
  · simp [removeMin, minKey, hk]

/-- From two elements in Q the loop makes one merge (R144). -/
theorem mergeLoop_pair {a : List Node} {i j x y : Nat} (h : removeMin a [i, j] = some (x, [y])) :
    mergeLoop 2 a [i, j] = (a ++ [mergeNode a x y], [a.length]) := by
  have hnil (b : List Node) : removeMin b [] = none := rfl
  simp [mergeLoop, h, removeMin_singleton, hnil]

/-- A leaf one link below `i` is at the path of that bit. -/
theorem leafAt_singleton {a : List Node} {i j : Nat} {b : Bool} {y : Sym} (hl : link a i b = some j)
    (hj : IsLeaf a j y) : LeafAt a i [b] y := leafAt_cons.mpr ⟨j, hl, leafAt_nil.mpr hj⟩

section
variable {freq : Vector Word 256} {x : Fin 256} (hx : freq[x.val] ≠ 0#32)
  (h0 : ∀ b : Fin 256, b ≠ x → freq[b.val] = 0#32)
include hx

/-- The EOF leaf goes first unless the count is 1: then the frequencies tie, and the byte is the lower symbol (R140). -/
theorem before_eofLeaf_iff :
    Before [byteLeaf freq x, .leaf Config.eofSym (some 1)] 1 0 ↔ freq[x.val].toNat ≠ 1 := by
  have hpos : freq[x.val].toNat ≠ 0 := fun h => hx (BitVec.eq_of_toNat_eq h)
  have hfreq : (freqAt [byteLeaf freq x, .leaf Config.eofSym (some 1)] 0).toNat = freq[x.val].toNat :=
    BitVec.toNat_setWidth_of_le (w' := 40) (b := freq[x.val]) (by decide)
  have hsym : symAt [byteLeaf freq x, .leaf Config.eofSym (some 1)] 0 < 256 := x.isLt
  have hone : (freqAt [byteLeaf freq x, .leaf Config.eofSym (some 1)] 1).toNat = 1 := rfl
  have heof : symAt [byteLeaf freq x, .leaf Config.eofSym (some 1)] 1 = 256 := rfl
  rw [Before, hfreq, hone, heof]
  omega

include h0

theorem presentBytes_single : presentBytes freq = [x] := by
  have hiff (b : Fin 256) : decide (freq[b.val] ≠ 0) = (b == x) := by
    by_cases hb : b = x
    · simp [hb, hx]
    · simp [hb, h0 b hb]
  rw [presentBytes, List.filter_congr fun b _ => hiff b, List.filter_beq, List.count_finRange]
  rfl

theorem leafCount_single : leafCount freq = 2 := by
  rw [leafCount, presentBytes_single hx h0]
  rfl

theorem leaves_single : leaves freq = [byteLeaf freq x, .leaf Config.eofSym (some 1)] := by
  rw [leaves_eq, presentBytes_single hx h0]
  rfl

/-- The arena of one count: its leaf, the EOF leaf and the node of the one merge (R148). -/
theorem mergeAll_single : (mergeAll freq).1 = [byteLeaf freq x, .leaf Config.eofSym (some 1),
    .internal (some (freq[x.val].setWidth 40 + 1)) (some (if freq[x.val].toNat = 1 then 0 else 1))
      (some (if freq[x.val].toNat = 1 then 1 else 0))] := by
  have hpair := removeMin_pair [byteLeaf freq x, .leaf Config.eofSym (some 1)] Nat.zero_ne_one
  simp only [keyLess_iff_before, before_eofLeaf_iff hx, ite_not] at hpair
  rw [mergeAll, leaves_single hx h0]
  by_cases h1 : freq[x.val].toNat = 1
  · rw [if_pos h1] at hpair
    rw [if_pos h1, if_pos h1]
    exact congrArg Prod.fst (mergeLoop_pair hpair)
  · rw [if_neg h1] at hpair
    rw [if_neg h1, if_neg h1, BitVec.add_comm]
    exact congrArg Prod.fst (mergeLoop_pair hpair)

/-- The paths of the two leaves, each one link below the root (R148). -/
theorem leafAt_single :
    LeafAt (mergeAll freq).1 (2 * leafCount freq - 2) [decide (2 ≤ freq[x.val].toNat)] (x.castLE (by decide)) ∧
      LeafAt (mergeAll freq).1 (2 * leafCount freq - 2) [decide (freq[x.val].toNat = 1)] Config.eofSym := by
  have hpos : freq[x.val].toNat ≠ 0 := fun h => hx (BitVec.eq_of_toNat_eq h)
  rw [mergeAll_single hx h0, leafCount_single hx h0]
  by_cases h1 : freq[x.val].toNat = 1
  · simp only [h1]
    exact ⟨leafAt_singleton (j := 0) rfl ⟨_, rfl⟩, leafAt_singleton (j := 1) rfl ⟨_, rfl⟩⟩
  · rw [decide_eq_true (by omega : 2 ≤ freq[x.val].toNat), decide_eq_false h1, if_neg h1, if_neg h1]
    exact ⟨leafAt_singleton (j := 0) rfl ⟨_, rfl⟩, leafAt_singleton (j := 1) rfl ⟨_, rfl⟩⟩

end

/-- Settles O33: the one merge decides both paths, and GEN_TABLE records them. -/
theorem singleSymbolCodes : Obligations.SingleSymbolCodes := by
  intro s x hx h0
  obtain ⟨hleafX, hleafEof⟩ := leafAt_single hx h0
  obtain ⟨ct, hgen, htable⟩ := execGenTable_of_tree (s := finish { dropTree s with
      arena := (mergeAll s.freq).1, root := some (2 * leafCount s.freq - 2), treeValid := true, treeMode := false })
    rfl rfl (mergeAll_arenaOk s.freq) (mergeAll_rootOk s.freq)
  exact ⟨_, _, execBuildFreq_next ⟨x, hx⟩, hgen, ⟨_, _, mergeAll_single hx h0⟩,
    congrArg (fun n => some (2 * n - 2)) (leafCount_single hx h0),
    CtEntry.eq_mk_iff.mpr ((htable _ _).mpr hleafX), CtEntry.eq_mk_iff.mpr ((htable _ _).mpr hleafEof)⟩

end Sys2Proof.Machine

/-! SUPPORT. The step of BUILD_HDR by what it takes, and what ending a line answers (spec/41_header_build.md R160 to
R168). -/

namespace Sys2Proof.Machine

/-! ### The step by the token it takes (R160) -/

section
variable {s : State} {h : HdrState} {rest : List SrcToken}

theorem buildHdr_step_start (hph : s.phase = .start .buildHdr) : exec .buildHdr s = hdrStart s := by
  simp only [exec, execBuildHdr, hph]

theorem buildHdr_step_loop (hph : s.phase = .hdr h) : exec .buildHdr s = hdrLoop h s := by
  simp only [exec, execBuildHdr, hph]

theorem buildHdr_step_end {data : Byte} (hph : s.phase = .hdr h) (hsrc : s.src = ⟨true, data⟩ :: rest) :
    exec .buildHdr s = hdrEnd h (takeToken rest s) := by
  rw [buildHdr_step_loop hph, hdrLoop, hsrc]
  rfl

theorem buildHdr_step_byte {c : Byte} (hph : s.phase = .hdr h) (hsrc : s.src = ⟨false, c⟩ :: rest) :
    exec .buildHdr s = hdrByte h c (countIn (takeToken rest s)) := by
  rw [buildHdr_step_loop hph, hdrLoop, hsrc]
  rfl

theorem hdrStart_noSource (hsrc : s.srcPresent = false) :
    hdrStart s = .next (raiseFault .invalidStream .zero (portsAbsent true false) s) := if_pos (by simp [hsrc])

theorem hdrStart_source (hsrc : s.srcPresent = true) :
    hdrStart s = .next { dropTree s with phase := .hdr HdrState.cleared } := if_neg (by simp [hsrc])

theorem hdrByte_text {c : Byte} (hc : c ≠ 0x0A#8) : hdrByte h c s = .next { s with phase := .hdr (h.append c) } :=
  if_neg hc

theorem hdrByte_line_ok {h' : HdrState} {b : Build} (he : endLine s.marker h (buildOf s) = .ok h' b) :
    hdrByte h 0x0A#8 s = .next (s.hdrAt s.src s.inCount h' b) := by
  rw [hdrByte, if_pos rfl, he]
  rfl

theorem hdrByte_line_raised {b : Build} {sub : SubCause} (he : endLine s.marker h (buildOf s) = .raised b sub) :
    hdrByte h 0x0A#8 s = .next (hdrFault sub (h.ln + 1) b s) := by
  rw [hdrByte, if_pos rfl, he]

theorem hdrByte_line_corrupt (he : endLine s.marker h (buildOf s) = .corrupt) :
    hdrByte h 0x0A#8 s = .fault .arenaCorrupt := by
  rw [hdrByte, if_pos rfl, he]

/-- A terminator ends a line, and a good line leaves its state and tree (R161, R162). -/
theorem buildHdr_step_line_ok {h' : HdrState} {b : Build} (hph : s.phase = .hdr h)
    (hsrc : s.src = ⟨false, 0x0A#8⟩ :: rest) (he : endLine s.marker h (buildOf s) = .ok h' b) :
    exec .buildHdr s = .next (s.hdrAt rest (s.inCount + 1) h' b) :=
  (buildHdr_step_byte hph hsrc).trans (hdrByte_line_ok (s := countIn (takeToken rest s)) he)

/-- A terminator ends a line, and a bad line faults with its number (R161, R174). -/
theorem buildHdr_step_line_raised {b : Build} {sub : SubCause} (hph : s.phase = .hdr h)
    (hsrc : s.src = ⟨false, 0x0A#8⟩ :: rest) (he : endLine s.marker h (buildOf s) = .raised b sub) :
    exec .buildHdr s = .next (hdrFault sub (h.ln + 1) b (countIn (takeToken rest s))) :=
  (buildHdr_step_byte hph hsrc).trans (hdrByte_line_raised (s := countIn (takeToken rest s)) he)

end

/-! ### END (R160, R162, R163, R173) -/

/-- The pairing check after the last line: UNPAIRED for an odd number of lines, else completion (R162, R173). -/
def pairingCheck (h : HdrState) (b : Build) (s : State) : State :=
  if h.ln.getLsbD 0 then hdrFault .unpaired h.ln b s
  else finish { withBuild b s with treeValid := b.root.isSome, treeMode := true }

section
variable {s : State} {h : HdrState}

theorem pairingCheck_odd (hln : h.ln.getLsbD 0 = true) (b : Build) (s : State) :
    pairingCheck h b s = hdrFault .unpaired h.ln b s := if_pos hln

theorem pairingCheck_even (hln : h.ln.getLsbD 0 = false) (b : Build) (s : State) :
    pairingCheck h b s = finish { withBuild b s with treeValid := b.root.isSome, treeMode := true } :=
  if_neg (by rw [hln]; decide)

theorem hdrEnd_noTail (hlb : h.lb = []) : hdrEnd h s = .next (pairingCheck h (buildOf s) s) := by
  simp only [hdrEnd, hlb, List.isEmpty_nil, if_true, pairingCheck]
  split <;> rfl

theorem hdrEnd_tail_ok {h' : HdrState} {b : Build} (hlb : h.lb ≠ [])
    (he : endLine s.marker h (buildOf s) = .ok h' b) : hdrEnd h s = .next (pairingCheck h' b s) := by
  simp only [hdrEnd, List.isEmpty_eq_false_iff.mpr hlb, Bool.false_eq_true, if_false, he, pairingCheck]
  split <;> rfl

theorem hdrEnd_tail_raised {sub : SubCause} {b : Build} (hlb : h.lb ≠ [])
    (he : endLine s.marker h (buildOf s) = .raised b sub) :
    hdrEnd h s = .next (hdrFault sub (h.ln + 1) b s) := by
  simp only [hdrEnd, List.isEmpty_eq_false_iff.mpr hlb, Bool.false_eq_true, if_false, he]

end

/-! ### Key lines (R164 to R167) -/

/-- `is_dec_key` of R165 as a proposition. -/
def IsDecimalKey (l : List Byte) : Prop :=
  1 ≤ l.length ∧ l.length ≤ 3 ∧ (∀ c ∈ l, 0x30 ≤ c.toNat ∧ c.toNat ≤ 0x39) ∧ decValue l ≤ 255

theorem isDecKey_iff {l : List Byte} : isDecKey l = true ↔ IsDecimalKey l := by
  simp [isDecKey, IsDecimalKey, Wf.isDigit, and_assoc]

/-- R6 keeps the marker apart from every decimal key. -/
theorem IsDecimalKey.ne_marker {l m : List Byte} (hl : IsDecimalKey l) (hm : Wf.marker m = true) : l ≠ m := by
  rintro rfl
  obtain ⟨-, hlen, hdigits, -⟩ := hl
  have hall : l.all Wf.isDigit = true := by simpa [Wf.isDigit] using hdigits
  simp [Wf.marker, Wf.markerNoKey, hlen, hall] at hm

theorem keySym_overflow (m l : List Byte) : keySym m l true = none := by simp [keySym]

theorem keySym_marker (m : List Byte) : keySym m m false = some Config.eofSym := by simp [keySym]

theorem keySym_decimal {m l : List Byte} (hm : Wf.marker m = true) (hl : IsDecimalKey l) {y : Sym}
    (hy : y.val = decValue l) : keySym m l false = some y := by
  simp [keySym, hl.ne_marker hm, isDecKey_iff.mpr hl, ← hy]

theorem keySym_other {m l : List Byte} (hm : l ≠ m) (hl : ¬IsDecimalKey l) (ovf : Bool) : keySym m l ovf = none := by
  have hdec : isDecKey l = false := by simpa using mt isDecKey_iff.mp hl
  simp [keySym, hm, hdec]

section
variable {m : List Byte} {h : HdrState} {b : Build} {y : Sym}

theorem endLine_badKey (hln : h.ln.getLsbD 0 = false) (hk : keySym m h.lb h.ovf = none) :
    endLine m h b = .raised b .badKey := by
  simp only [endLine, odd_next hln, if_true, keyLine, hk]

theorem endLine_dupKey (hln : h.ln.getLsbD 0 = false) (hk : keySym m h.lb h.ovf = some y)
    (hp : h.present[y.val] = true) : endLine m h b = .raised b .dupKey := by
  simp only [endLine, odd_next hln, if_true, keyLine, hk, hp]

theorem endLine_newKey (hln : h.ln.getLsbD 0 = false) (hk : keySym m h.lb h.ovf = some y)
    (hp : h.present[y.val] = false) :
    endLine m h b = .ok { h with lb := [], ovf := false, bad := false, ln := h.ln + 1, pk := y } b := by
  simp only [endLine, odd_next hln, if_true, keyLine, hk, hp, Bool.false_eq_true, if_false, HdrState.clearLine]

/-! ### Code lines (R168, R169) -/

theorem endLine_badCodeChar (hln : h.ln.getLsbD 0 = true) (hbad : h.bad = true) :
    endLine m h b = .raised b .badCodeChar := by
  simp only [endLine, even_next hln, Bool.false_eq_true, if_false, codeLine, hbad, if_true]

theorem endLine_codeTooLong (hln : h.ln.getLsbD 0 = true) (hbad : h.bad = false) (hovf : h.ovf = true) :
    endLine m h b = .raised b .codeTooLong := by
  simp only [endLine, even_next hln, Bool.false_eq_true, if_false, codeLine, hbad, hovf, if_true]

theorem endLine_insert_done {b' : Build} (hln : h.ln.getLsbD 0 = true) (hbad : h.bad = false) (hovf : h.ovf = false)
    (hi : insertPath h.pk (codeBits h.lb) .root b = .done b') :
    endLine m h b = .ok { h with
      lb := [], ovf := false, bad := false, ln := h.ln + 1, present := h.present.set h.pk.val true } b' := by
  simp only [endLine, even_next hln, Bool.false_eq_true, if_false, codeLine, hbad, hovf, hi, HdrState.clearLine]

theorem endLine_insert_raised {b' : Build} {sub : SubCause} (hln : h.ln.getLsbD 0 = true) (hbad : h.bad = false)
    (hovf : h.ovf = false) (hi : insertPath h.pk (codeBits h.lb) .root b = .raised b' sub) :
    endLine m h b = .raised b' sub := by
  simp only [endLine, even_next hln, Bool.false_eq_true, if_false, codeLine, hbad, hovf, hi]

end

/-! ### The start, the bytes of a line and its end -/

/-- Settles O34: by the branches of START, and by what the buffer does with a byte. -/
theorem buildHdrCollectsLines : Obligations.BuildHdrCollectsLines := by
  intro s
  refine ⟨fun hph hsrc => (buildHdr_step_start hph).trans (hdrStart_noSource hsrc), fun hph hsrc => ?_,
    fun h c rest hph hsrc hc => ?_⟩
  · exact ⟨_, ctEntry_dropTree s, (buildHdr_step_start hph).trans (hdrStart_source hsrc)⟩
  · rw [buildHdr_step_byte hph hsrc, hdrByte_text hc, HdrState.append, Bool.not_or]
    rfl

/-- Settles O35: by the symbol the key names, and whether it is placed. -/
theorem keyLinesResolve : Obligations.KeyLinesResolve := by
  intro s h rest hph hsrc hln hm decimal raises pending
  have raised {sub : SubCause} (he : endLine s.marker h (buildOf s) = .raised (buildOf s) sub) :
      raises (causeCode .invalidHeader ||| (subCode sub <<< 8)) := buildHdr_step_line_raised hph hsrc he
  have resolves {y : Sym} (hk : keySym s.marker h.lb h.ovf = some y) :
      (h.present[y.val] = true → raises 0x00000503#32) ∧ (h.present[y.val] = false → pending y) :=
    ⟨fun hp => raised (endLine_dupKey hln hk hp), fun hp => buildHdr_step_line_ok hph hsrc (endLine_newKey hln hk hp)⟩
  refine ⟨fun hbad => raised (sub := .badKey) (endLine_badKey hln ?_), fun hovf hlb => ?_, fun hovf hd y hy => ?_⟩
  · rcases hbad with hovf | ⟨hlb, hd⟩
    · rw [hovf]; exact keySym_overflow _ _
    · exact keySym_other hlb hd _
  · exact resolves (y := Config.eofSym) (by rw [hovf, hlb]; exact keySym_marker _)
  · exact resolves (by rw [hovf]; exact keySym_decimal hm hd hy)

/-- Settles O36: the two checks of a code line come before insertion, in this order. -/
theorem codeLinesAreChecked : Obligations.CodeLinesAreChecked := fun _ _ _ hph hsrc hln =>
  ⟨fun hbad => buildHdr_step_line_raised hph hsrc (endLine_badCodeChar hln hbad),
    fun hbad hovf => buildHdr_step_line_raised hph hsrc (endLine_codeTooLong hln hbad hovf)⟩

/-- Settles O38: with no tail, END is the pairing check alone. -/
theorem buildHdrEnds : Obligations.BuildHdrEnds := by
  intro s h data rest hph hsrc hlb
  rw [buildHdr_step_end hph hsrc, hdrEnd_noTail hlb]
  exact ⟨fun hodd => congrArg _ (pairingCheck_odd hodd _ _), fun heven => congrArg _ (pairingCheck_even heven _ _)⟩

/-- The same line, ended by a terminator before END or by END itself, meets the same pairing check. -/
theorem pairingCheck_after_line (h : HdrState) (b : Build) (s : State) (src rest : List SrcToken) (ic : Word) :
    pairingCheck h b (takeToken rest s) =
      { pairingCheck h b (takeToken rest (s.hdrAt src ic h b)) with inCount := s.inCount } := by
  unfold pairingCheck
  split <;> rfl

/-- Settles O39: both ways end the same line, and then END is the pairing check of the same state. -/
theorem unterminatedTailIsALine : Obligations.UnterminatedTailIsALine := by
  intro s t h data rest hph hlb hsrc ht
  rw [buildHdr_step_byte (s := { s with src := ⟨false, 0x0A#8⟩ :: s.src }) hph rfl] at ht
  rw [buildHdr_step_end hph hsrc]
  cases he : endLine s.marker h (buildOf s) with
  | ok h' b =>
    cases (hdrByte_line_ok (s := countIn (takeToken s.src s)) he).symm.trans ht
    refine ⟨nofun, fun h'' hph' => ?_⟩
    cases hph'
    have hend := buildHdr_step_end (s := s.hdrAt s.src (s.inCount + 1) h' b) rfl hsrc
    refine ⟨_, hend.trans (hdrEnd_noTail (endLine_ln he).2), ?_⟩
    rw [hdrEnd_tail_ok (s := takeToken rest s) hlb he, pairingCheck_after_line h' b s s.src rest]
    rfl
  | raised b sub =>
    cases (hdrByte_line_raised (s := countIn (takeToken s.src s)) he).symm.trans ht
    exact ⟨fun _ => hdrEnd_tail_raised (s := takeToken rest s) (b := b) hlb he, nofun⟩
  | corrupt => cases (hdrByte_line_corrupt (s := countIn (takeToken s.src s)) he).symm.trans ht

/-! ### A fault of the loop (R174) -/

/-- `t` is `s` after a fault of BUILD_HDR that keeps the nodes of `s` (R169, R172, R174). -/
def FaultsFrom (s t : State) : Prop :=
  ∃ (sub : SubCause) (ln : Word) (b : Build), t = hdrFault sub ln b s ∧ KeepsNodes s.arena b.arena

section
variable {s t : State} {h : HdrState} (hs : s.fault = false) (ht : t.fault = true)
include hs ht

/-- The pairing check faults only after a key line, which places no node. -/
theorem pairingCheck_faultsFrom {b : Build} (he : pairingCheck h b s = t)
    (hb : h.ln.getLsbD 0 = true → b = buildOf s) : FaultsFrom s t := by
  cases hln : h.ln.getLsbD 0 with
  | true =>
    obtain rfl := hb hln
    exact ⟨_, _, _, he.symm.trans (pairingCheck_odd hln _ _), .refl _⟩
  | false =>
    rw [pairingCheck_even hln] at he
    cases he
    exact absurd (hs.symm.trans ht) (by decide)

theorem hdrEnd_faultsFrom (he : hdrEnd h s = .next t) : FaultsFrom s t := by
  by_cases hlb : h.lb = []
  · rw [hdrEnd_noTail hlb] at he
    exact pairingCheck_faultsFrom hs ht (Host.Outcome.next.inj he) fun _ => rfl
  · cases hl : endLine s.marker h (buildOf s) with
    | ok h' b =>
      rw [hdrEnd_tail_ok hlb hl] at he
      exact pairingCheck_faultsFrom hs ht (Host.Outcome.next.inj he) (endLine_odd_build hl)
    | raised b sub =>
      rw [hdrEnd_tail_raised hlb hl] at he
      exact ⟨_, _, _, (Host.Outcome.next.inj he).symm, endLine_raised_keepsNodes hl⟩
    | corrupt => simp [hdrEnd, hlb, hl] at he

theorem hdrByte_faultsFrom {c : Byte} (he : hdrByte h c s = .next t) : FaultsFrom s t := by
  unfold hdrByte at he
  split at he
  · split at he
    · cases he
      exact absurd (hs.symm.trans ht) (by decide)
    · cases he
      exact ⟨_, _, _, rfl, endLine_raised_keepsNodes ‹_›⟩
    · cases he
  · cases he
    exact absurd (hs.symm.trans ht) (by decide)

/-- A step of the loop that faults has taken one token. -/
theorem hdrLoop_faultsFrom (he : hdrLoop h s = .next t) : ∃ tok rest, s.src = tok :: rest ∧
    (FaultsFrom (takeToken rest s) t ∨ FaultsFrom (countIn (takeToken rest s)) t) := by
  unfold hdrLoop at he
  split at he
  · cases he
    exact absurd (hs.symm.trans ht) (by decide)
  · rename_i tok rest hsrc
    refine ⟨tok, rest, hsrc, ?_⟩
    split at he
    · exact .inl (hdrEnd_faultsFrom hs ht he)
    · exact .inr (hdrByte_faultsFrom hs ht he)

end

/-- Settles O40: a faulting step takes one token, keeps the nodes and drops only ROOT. -/
theorem headerFaultDiscardsTheTree : Obligations.HeaderFaultDiscardsTheTree := by
  intro s t h hph hs he ht
  rw [buildHdr_step_loop hph] at he
  obtain ⟨tok, rest, hsrc, ⟨sub, ln, b, rfl, hb⟩ | ⟨sub, ln, b, rfl, hb⟩⟩ := hdrLoop_faultsFrom hs ht he
  · exact ⟨rfl, rfl, rfl, rfl, rfl, hb.grows, hb.old, hb.new, ⟨tok, hsrc⟩, rfl⟩
  · exact ⟨rfl, rfl, rfl, rfl, rfl, hb.grows, hb.old, hb.new, ⟨tok, hsrc⟩, rfl⟩

end Sys2Proof.Machine

/-! SUPPORT. The end of a legal code line, in a state of the invariant (spec/41_header_build.md R168 to R174). -/

namespace Sys2Proof.Machine

section
variable {s : State} {h : HdrState}

/-- The working state of BUILD_HDR beside the tree of the state (R64). -/
theorem Inv.hdrInv (hi : Inv s) (hph : s.phase = .hdr h) : HdrInv h (buildOf s) := by
  have hp := hi.phase
  rw [hph] at hp
  obtain ⟨-, -, hok⟩ := hp
  exact HdrOk.hdrInv hi.arena hok

/-- The pending symbol has no leaf yet (R167). -/
theorem HdrInv.pending_absent {b : Build} (hh : HdrInv h b) (hln : h.ln.getLsbD 0 = true) (i : Nat) :
    ¬IsLeaf b.arena i h.pk := fun hl => by
  have hmarked := (hh.present h.pk).mpr ⟨i, hl⟩
  rw [hh.pending hln] at hmarked
  cases hmarked

/-- A tree that a pair has been placed in has a root. -/
theorem Placed.root_isSome {b b' : Build} {n : Nat} {code : List Bool} {y : Sym} (hp : Placed b b' n code y) :
    ∃ r, b'.root = some r := by
  obtain ⟨r, hr, -⟩ := leafFrom_iff.mp ((hp.leaves code y).mpr (.inr ⟨rfl, rfl⟩))
  exact ⟨r, hr⟩

/-- Where a root stands, a leaf from ROOT is a leaf from it. -/
theorem leafFrom_of_root {b : Build} {r : Nat} (hr : b.root = some r) {d : List Bool} {y : Sym} :
    LeafFrom b d y ↔ LeafAt b.arena r d y := by
  simp [leafFrom_iff, hr]

/-- The statement's word for a collision, in terms of leaves from ROOT (R170). -/
theorem collides_iff {b : Build} {code : List Bool} :
    (∃ r d y, b.root = some r ∧ LeafAt b.arena r d y ∧ ¬PrefixFree code d) ↔
      ∃ d y, LeafFrom b d y ∧ ¬PrefixFree code d := by
  simp only [leafFrom_iff]
  exact ⟨fun ⟨r, d, y, hr, hl, hf⟩ => ⟨d, y, ⟨r, hr, hl⟩, hf⟩, fun ⟨d, y, ⟨r, hr, hl⟩, hf⟩ => ⟨r, d, y, hr, hl, hf⟩⟩

end

/-- Settles O37: by what insertion from ROOT comes to; the number of missing nodes says whether the arena runs out. -/
theorem codeLinesInsertOrFault : Obligations.CodeLinesInsertOrFault := by
  intro s h rest hinv hph hsrc hln hbad hovf code collides
  have hh := hinv.hdrInv hph
  have hcollides : collides ↔ ∃ d y, LeafFrom (buildOf s) d y ∧ ¬PrefixFree code d := collides_iff (b := buildOf s)
  have apart (hfree : ∀ d y, LeafFrom (buildOf s) d y → PrefixFree code d) : ¬collides := fun hc => by
    obtain ⟨d, y, hl, hf⟩ := hcollides.mp hc
    exact hf (hfree d y hl)
  have raised {b : Build} {sub : SubCause} (hi : insertPath h.pk code .root (buildOf s) = .raised b sub) :
      exec .buildHdr s = .next (hdrFault sub (h.ln + 1) b (countIn (takeToken rest s))) :=
    buildHdr_step_line_raised hph hsrc (endLine_insert_raised hln hbad hovf hi)
  rcases insertPath_spec (cs := code) hh.build hh.bare (.inl ⟨rfl, rfl⟩) (hh.pending_absent hln) with
    ⟨hfree, ⟨b, hi, hplaced, -⟩ | ⟨b, hi, hout⟩⟩ | ⟨hclash, hi⟩
  · -- the pair is placed
    have hsize : b.arena.length = s.arena.length + missingNodes s.root s.arena code := hplaced.size
    have hcap : b.arena.length ≤ 513 := hplaced.ok.cap
    obtain ⟨r, hr⟩ := hplaced.root_isSome
    refine ⟨fun hc => absurd hc (apart hfree), fun _ hover => absurd hover (by omega), fun _ _ => ?_⟩
    refine ⟨b.arena, r, ?_, hsize, ?_, fun d y => ?_⟩
    · rw [buildHdr_step_line_ok hph hsrc (endLine_insert_done hln hbad hovf hi), ← hr]
      rfl
    · exact fun k hk hnew => ⟨_, List.getElem?_eq_getElem hk, hplaced.freq k _ hnew (List.getElem?_eq_getElem hk)⟩
    · rw [← leafFrom_of_root hr, hplaced.leaves, leafFrom_iff, or_comm]
      rfl
  · -- the arena runs out
    have hshort : 513 < s.arena.length + missingNodes s.root s.arena code := hout.short
    exact ⟨fun hc => absurd hc (apart hfree), fun _ _ => ⟨b.arena, raised hi, hout.full⟩,
      fun _ hfits => absurd hfits (by omega)⟩
  · -- the code collides
    have hc : collides := hcollides.mpr hclash
    exact ⟨fun _ => raised hi, fun hno => absurd hc hno, fun hno => absurd hc hno⟩

end Sys2Proof.Machine

/-! SUPPORT. BUILD_HDR left alone with the text of a legal header, and the header of a table read back
(spec/41_header_build.md R173, R175). -/

namespace Sys2Proof.Machine

/-! ### A whole header (R173) -/

/-- The state BUILD_HDR completes in, with tree `b`, after `n` bytes of header text (R173). -/
def headerDone (s : State) (rest : List SrcToken) (n : Nat) (b : Build) : State :=
  { dropTree s with
    src := rest, inCount := s.inCount + BitVec.ofNat 32 n, root := b.root, arena := b.arena,
    treeValid := b.root.isSome, treeMode := true, phase := .idle }

/-- START brings BUILD_HDR into its loop with no tree and a cleared parser (R160). -/
theorem hdrStart_loop {s : State} (hsrc : s.srcPresent = true) :
    hdrStart s = .next ((dropTree s).hdrAt s.src s.inCount HdrState.cleared ⟨none, []⟩) := hdrStart_source hsrc

/-- The tree has a root exactly if a pair was placed. -/
theorem Between.root_isSome {h : HdrState} {b : Build} {l : List HdrPair} (H : Between h b l) :
    b.root.isSome = !l.isEmpty := by
  have hroot := H.nodes []
  rw [nodeAt_nil] at hroot
  cases l with
  | nil => simpa using hroot
  | cons p l => exact hroot.mpr ⟨p, List.mem_cons_self, List.nil_prefix⟩

/-- BUILD_HDR completes on a legal header with the tree of its pairs (R169 to R173). -/
theorem buildHdr_header {s : State} {l : List HdrPair} {data : Byte} {rest : List SrcToken}
    (hph : s.phase = .start .buildHdr) (hport : s.srcPresent = true) (hl : HeaderOk s.marker l)
    (hsrc : s.src = (headerText l).map SrcToken.d ++ ⟨true, data⟩ :: rest) :
    ∃ h b, Between h b l ∧ Leads s (headerDone s rest (headerText l).length b) := by
  obtain ⟨h, b, H, hloop⟩ := Between.none.list (s := dropTree s) l hl (⟨true, data⟩ :: rest) s.inCount
  refine ⟨h, b, H, ?_⟩
  have hstart : exec .buildHdr s = _ := (buildHdr_step_start hph).trans (hdrStart_loop hport)
  rw [hsrc] at hstart
  have hend := buildHdr_step_end (s := (dropTree s).hdrAt (⟨true, data⟩ :: rest)
    (s.inCount + BitVec.ofNat 32 (headerText l).length) h b) rfl rfl
  rw [hdrEnd_noTail H.clear.1, pairingCheck_even H.even] at hend
  exact (Leads.head (by rw [hph]; rfl) hstart hloop).trans (Leads.one rfl hend)

/-- Settles O41: the run ends between two pairs, with the whole header read. -/
theorem buildHdrBuildsTheListedTree : Obligations.BuildHdrBuildsTheListedTree := by
  intro s l data rest _ hph hfault hport hl hsrc
  obtain ⟨h, b, H, hrun⟩ := buildHdr_header hph hport hl hsrc
  refine ⟨_, hrun, rfl, hfault, rfl, rfl, H.root_isSome, rfl, rfl, ?_, fun hne => ?_⟩
  · rintro rfl
    change b.root = none
    simpa using H.root_isSome
  · obtain ⟨r, hr⟩ := Option.isSome_iff_exists.mp (H.root_isSome.trans (by simpa using hne))
    exact ⟨r, hr, fun code y => (leafFrom_of_root hr).symm.trans (H.leaves code y)⟩

/-! ### The decimal text of a byte (R184) -/

theorem digitByte_toNat {n : Nat} (h : n < 10) : (digitByte n).toNat = 0x30 + n := by
  rw [digitByte, BitVec.toNat_ofNat]
  omega

/-- `dec` of a byte is a decimal key of its value (R165, R184). -/
theorem decText_decimal {n : Nat} (h : n ≤ 255) : IsDecimalKey (decText n) ∧ decValue (decText n) = n := by
  have d0 := digitByte_toNat (n := n % 10) (by omega)
  have d1 := digitByte_toNat (n := n / 10 % 10) (by omega)
  have d2 := digitByte_toNat (n := n / 100) (by omega)
  unfold decText
  split
  · rw [Nat.mod_eq_of_lt ‹_›] at d0
    simp [IsDecimalKey, decValue, d0]
    omega
  · split
    · rw [Nat.mod_eq_of_lt (by omega)] at d1
      simp [IsDecimalKey, decValue, d0, d1]
      omega
    · simp [IsDecimalKey, decValue, d0, d1, d2]
      omega

/-- A decimal key holds no terminator (R120). -/
theorem IsDecimalKey.oneLine {l : List Byte} (hl : IsDecimalKey l) : 0x0A#8 ∉ l := fun hmem => by
  obtain ⟨-, -, hdigits, -⟩ := hl
  exact absurd (hdigits _ hmem).1 (by decide)

/-- The key line of a symbol names it (R123, R164, R165). -/
theorem keyText_names {m : List Byte} (hm : Wf.marker m = true) (y : Sym) :
    (keyText m y).length ≤ Config.lineMax ∧ 0x0A#8 ∉ keyText m y ∧ keySym m (keyText m y) false = some y := by
  by_cases hy : y = Config.eofSym
  · rw [keyText, if_pos hy, hy]
    simp only [Wf.marker, Wf.markerLength, Wf.markerOneLine, Bool.and_eq_true, decide_eq_true_eq] at hm
    obtain ⟨⟨⟨-, hlen⟩, hline⟩, -⟩ := hm
    exact ⟨hlen, fun hmem => by simpa using List.all_eq_true.mp hline _ hmem, keySym_marker m⟩
  · rw [keyText, if_neg hy]
    have hy' : y.val ≠ 256 := fun h => hy (Fin.ext h)
    have hlt := y.isLt
    obtain ⟨hdec, hval⟩ := decText_decimal (n := y.val) (by omega)
    have ⟨_, hlen, _⟩ := hdec
    exact ⟨hlen.trans (by decide), hdec.oneLine, keySym_decimal hm hdec hval.symm⟩

/-! ### The header of a table (R123, R175) -/

/-- The code table of `s` is that of the tree with root `r` (R182 (a), (b)). -/
structure TableOfTree (s : State) (r : Nat) : Prop where
  arena : ArenaOk s.arena
  rootOk : RootOk s.arena r
  entries : ∀ (y : Sym) (code : List Bool),
    ((ctEntry s y).valid = true ∧ (ctEntry s y).code = code) ↔ LeafAt s.arena r code y

/-- The pairs of the canonical header of a state's table (R123). -/
def tablePairs (s : State) : List HdrPair :=
  ((List.finRange 257).filter fun y => (ctEntry s y).valid).map fun y => ⟨keyText s.marker y, y, (ctEntry s y).code⟩

theorem flatMap_filter_eq_ite {α β : Type} (keep : α → Bool) (f : α → List β) (l : List α) :
    (l.filter keep).flatMap f = l.flatMap fun x => if keep x then f x else [] := by
  induction l with
  | nil => rfl
  | cons x l ih => cases hx : keep x <;> simp [hx, ih]

section
variable {s : State}

theorem mem_tablePairs {p : HdrPair} : p ∈ tablePairs s ↔
    ∃ y, (ctEntry s y).valid = true ∧ ⟨keyText s.marker y, y, (ctEntry s y).code⟩ = p := by
  simp only [tablePairs, List.mem_map, List.mem_filter, List.mem_finRange, true_and]

theorem headerText_tablePairs (s : State) : headerText (tablePairs s) = canonicalHeader s := by
  rw [canonicalHeader, tablePairs, headerText, List.flatMap_map, flatMap_filter_eq_ite]
  rfl

/-- The prefixes of the codes of a tree are the paths to different nodes of its arena (R171). -/
theorem prefixes_length_le {a : List Node} {r : Nat} (ha : ArenaOk a) (hr : RootOk a r) {l : List HdrPair}
    (hl : ∀ p ∈ l, LeafAt a r p.code p.sym) :
    (l.flatMap fun p => p.code.inits).dedup.length ≤ a.length := by
  have hreached : ∀ q ∈ (l.flatMap fun p => p.code.inits).toFinset, ∃ j < a.length, follow a q r = some j := by
    intro q hq
    obtain ⟨p, hp, hpre⟩ := List.mem_flatMap.mp (List.mem_toFinset.mp hq)
    obtain ⟨t, ht⟩ := (List.mem_inits _ _).mp hpre
    obtain ⟨k, hk, -⟩ := hl p hp
    rw [← ht, follow_append] at hk
    obtain ⟨j, hj, -⟩ := Option.bind_eq_some_iff.mp hk
    exact ⟨j, follow_lt ha.inRange hr.allocated hj, hj⟩
  choose! node hlt hnode using hreached
  have hinj : Set.InjOn node ((l.flatMap fun p => p.code.inits).toFinset : Set (List Bool)) := by
    intro q hq q' hq' he
    exact follow_unique ha.oneParent hr.top (hnode q hq) (he ▸ hnode q' hq')
  rw [← List.card_toFinset, ← Finset.card_range a.length]
  exact Finset.card_le_card_of_injOn node (fun q hq => Finset.mem_coe.mpr (Finset.mem_range.mpr (hlt q hq))) hinj

/-- The header of a tree's table is a legal header (R175, R182). -/
theorem TableOfTree.headerOk {r : Nat} (ht : TableOfTree s r) (hm : Wf.marker s.marker = true) :
    HeaderOk s.marker (tablePairs s) := by
  have hleaves : ∀ p ∈ tablePairs s, LeafAt s.arena r p.code p.sym := by
    intro p hp
    obtain ⟨y, hv, rfl⟩ := mem_tablePairs.mp hp
    exact (ht.entries y _).mp ⟨hv, rfl⟩
  have hsyms : (tablePairs s).map HdrPair.sym = (List.finRange 257).filter fun y => (ctEntry s y).valid := by
    rw [tablePairs, List.map_map]; exact List.map_id _
  have hnodup : ((tablePairs s).map HdrPair.sym).Nodup := by
    rw [hsyms]; exact (List.nodup_finRange 257).filter _
  have hnodes := prefixes_length_le ht.arena ht.rootOk hleaves
  refine ⟨fun p hp => ?_, hnodup, fun p hp => ?_, ?_, hnodes.trans ht.arena.cap⟩
  · obtain ⟨y, -, rfl⟩ := mem_tablePairs.mp hp
    exact keyText_names hm y
  · obtain ⟨j, hj, -⟩ := hleaves p hp
    exact ht.rootOk.depth _ j hj
  · refine (List.pairwise_map.mp hnodup).imp_of_mem fun {p q} hp hq hne => ?_
    have hlp := hleaves p hp
    have hlq := hleaves q hq
    exact ⟨fun h => hne (hlp.eq_of_prefix hlq h).2, fun h => hne (hlq.eq_of_prefix hlp h).2.symm⟩

end

/-! ### The round trip (R175) -/

/-- The state EMIT_HDR completes in (R183). -/
def headerPut (s : State) : State :=
  { s with
    snk := s.snk ++ (canonicalHeader s).map SnkToken.d ++ [SnkToken.closing],
    outCount := s.outCount + BitVec.ofNat 32 (canonicalHeader s).length, phase := .idle }

/-- EMIT_HDR, left alone with the sink accepting, puts the canonical header and CLOSE (R183). -/
theorem emitHdr_header {s : State} (hph : s.phase = .start .emitHdr) (hport : s.snkPresent = true)
    (hready : s.snkReady = true) (hct : s.ctValid = true) :
    Leads s (headerPut s) := by
  have hstart : exec .emitHdr s = .next (s.stream s.src s.snk s.inCount s.outCount (emitFrom s 0)) := by
    rw [exec_eq_phaseStep (by rw [hph]; rfl), hph]
    exact (if_neg (by simp [hport])).trans (if_neg (by simp [hct]))
  have hput := emit_from hready s.src s.snk s.inCount s.outCount 0
  rw [headerFrom_zero] at hput
  refine (Leads.head (by rw [hph]; rfl) hstart hput).trans (Leads.one (i := .emitHdr) rfl ?_)
  exact if_pos hready

/-- BUILD_HDR of the header of a table and GEN_TABLE give the same table again (R173, R175, R182). -/
theorem TableOfTree.rebuilt {u v : State} {r : Nat} {data : Byte} {more : List SrcToken} (ht : TableOfTree u r)
    (hm : Wf.marker u.marker = true) (hsome : ∃ y, (ctEntry u y).valid = true) (hph : v.phase = .start .buildHdr)
    (hport : v.srcPresent = true) (hmarker : v.marker = u.marker)
    (hsrc : v.src = (canonicalHeader u).map SrcToken.d ++ ⟨true, data⟩ :: more) :
    ∃ w x : State, Leads v w ∧ w.phase = .idle ∧ w.fault = v.fault ∧ w.treeValid = true ∧ w.treeMode = true ∧
      w.src = more ∧ exec .genTable w = .next x ∧
      ∀ (y : Sym) (code : List Bool), ((ctEntry x y).valid = true ∧ (ctEntry x y).code = code) ↔
        ((ctEntry u y).valid = true ∧ (ctEntry u y).code = code) := by
  obtain ⟨h, b, H, hrun⟩ := buildHdr_header (l := tablePairs u) hph hport (hmarker ▸ ht.headerOk hm)
    (by rw [headerText_tablePairs]; exact hsrc)
  obtain ⟨y, hy⟩ := hsome
  have hroot : b.root.isSome = true := by
    rw [H.root_isSome, List.isEmpty_eq_false_iff_exists_mem.mpr ⟨_, mem_tablePairs.mpr ⟨y, hy, rfl⟩⟩]
    rfl
  obtain ⟨r', hr'⟩ := Option.isSome_iff_exists.mp hroot
  obtain ⟨ct, hgen, htable⟩ := execGenTable_of_tree (s := headerDone v more (headerText (tablePairs u)).length b)
    hroot hr' H.inv.build.arenaOk (H.inv.rootOk hr')
  refine ⟨_, _, hrun, rfl, rfl, hroot, rfl, rfl, hgen, fun z code => ?_⟩
  have hleaves := H.leaves code z
  rw [leafFrom_of_root hr'] at hleaves
  refine ((htable z code).trans hleaves).trans ⟨?_, fun ⟨hv, hc⟩ => ⟨_, mem_tablePairs.mpr ⟨z, hv, rfl⟩, hc, rfl⟩⟩
  rintro ⟨p, hp, hcode, rfl⟩
  obtain ⟨z, hv, rfl⟩ := mem_tablePairs.mp hp
  exact ⟨hv, hcode⟩

/-- The state BUILD_FREQ leaves (R144). -/
def freqTree (s : State) : State :=
  finish { dropTree s with
    arena := (mergeAll s.freq).1, root := some (2 * leafCount s.freq - 2), treeValid := true, treeMode := false }

/-- The state GEN_TABLE leaves with table `ct` (R180). -/
def withTable (ct : Vector CtEntry 257) (s : State) : State := finish { s with ct := ct, ctValid := true }

/-- GEN_TABLE after BUILD_FREQ completes with the table of the tree, which has `EOF_SYMBOL` (R144, R180, R182). -/
theorem buildFreq_genTable (s : State) : ∃ ct : Vector CtEntry 257,
    exec .genTable (freqTree s) = .next (withTable ct (freqTree s)) ∧
    TableOfTree (withTable ct (freqTree s)) (2 * leafCount s.freq - 2) ∧
    ct[256].valid = true := by
  have ha := mergeAll_arenaOk s.freq
  have hr := mergeAll_rootOk s.freq
  obtain ⟨ct, hgen, htable⟩ := execGenTable_of_tree (s := freqTree s) rfl rfl ha hr
  obtain ⟨p, hp⟩ := (mergeAll_freqTreeOk s.freq).eofLeaf
  exact ⟨ct, hgen, ⟨ha, hr, htable⟩, ((htable _ p).mpr hp).1⟩

/-- Entries that are valid with the same codes agree. -/
theorem CtEntry.agree {e e' : CtEntry}
    (h : ∀ code, (e.valid = true ∧ e.code = code) ↔ (e'.valid = true ∧ e'.code = code)) :
    e.valid = e'.valid ∧ (e'.valid = true → e.code = e'.code) :=
  ⟨Bool.eq_iff_iff.mpr ⟨fun hv => ((h e.code).mp ⟨hv, rfl⟩).1, fun hv => ((h e'.code).mpr ⟨hv, rfl⟩).1⟩,
    fun hv => ((h e'.code).mpr ⟨hv, rfl⟩).2⟩

/-- Settles O55: the emitted header is a legal header of the tree's leaves, so BUILD_HDR builds a tree with the same
leaves, and the table of a tree is its leaves. -/
theorem headerRoundTripKeepsEveryCode : Obligations.HeaderRoundTripKeepsEveryCode := by
  intro s more hfreq hm hsrc hsnk hready hfault
  obtain ⟨ct, hgen, htable, heof⟩ := buildFreq_genTable s
  refine ⟨_, _, execBuildFreq_next hfreq, hgen, _, _, emitHdr_header rfl hsnk hready rfl, rfl, rfl, ?_⟩
  obtain ⟨w, x, hrun, hidle, hfault', hvalid, hmode, hmore, hgen', hentries⟩ :=
    htable.rebuilt (v := { headerPut { withTable ct (freqTree s) with phase := .start .emitHdr } with
      phase := .start .buildHdr, src := _ }) (data := 0) (more := more) hm ⟨Config.eofSym, heof⟩ rfl hsrc rfl rfl
  exact ⟨w, x, hrun, hidle, hfault'.trans hfault, hvalid, hmode, hmore, hgen', fun y => CtEntry.agree (hentries y)⟩

end Sys2Proof.Machine

/-! SUPPORT. GEN_TABLE and the table of the current tree, and EMIT_HDR step by step (spec/42_table.md R180 to R184). -/

namespace Sys2Proof.Machine

/-! ### The table of the current tree (R180, R182) -/

section
variable {s : State} {r : Nat}

/-- In a state of the invariant ROOT is the root of a tree (R66 (a)). -/
theorem Inv.rootOk (hi : Inv s) (hv : s.treeValid = true) (hroot : s.root = some r) : RootOk s.arena r := by
  obtain ⟨r', hr', hok⟩ := hi.tree hv
  obtain rfl : r' = r := Option.some.inj (hr'.symm.trans hroot)
  exact hok

/-- In a state of the invariant a valid table is that of the current tree (R38, R182 (a), (b)). -/
theorem Inv.table (hi : Inv s) (hct : s.ctValid = true) : ∃ r, s.root = some r ∧ TableOfTree s r := by
  obtain ⟨r, hroot, hok⟩ := hi.tree (hi.tableNeedsTree hct)
  exact ⟨r, hroot, hi.arena, hok, hi.tableOfTree hct r hroot⟩

/-- A valid entry holds the path to a leaf of its symbol. -/
theorem TableOfTree.leafAt (ht : TableOfTree s r) {y : Sym} (hy : (ctEntry s y).valid = true) :
    LeafAt s.arena r (ctEntry s y).code y := (ht.entries y _).mp ⟨hy, rfl⟩

/-- R182 (c): a code that goes on below a leaf would lead on from it. -/
theorem TableOfTree.not_prefix (ht : TableOfTree s r) {y z : Sym} (hne : y ≠ z) (hy : (ctEntry s y).valid = true)
    (hz : (ctEntry s z).valid = true) : ¬(ctEntry s y).code <+: (ctEntry s z).code := fun hpre =>
  hne ((ht.leafAt hy).eq_of_prefix (ht.leafAt hz) hpre).2

/-- R182 (d): a code is a path of the tree. -/
theorem TableOfTree.code_length_le (ht : TableOfTree s r) {y : Sym} (hy : (ctEntry s y).valid = true) :
    (ctEntry s y).code.length ≤ Config.maxCodeLen := by
  obtain ⟨j, hj, -⟩ := ht.leafAt hy
  exact ht.rootOk.depth _ j hj

/-- R182 (e): a BUILD_FREQ tree has an `EOF_SYMBOL` leaf, and its table the entry. -/
theorem TableOfTree.eof_valid (ht : TableOfTree s r) (hf : FreqTreeOk s.arena r) :
    (ctEntry s Config.eofSym).valid = true := by
  obtain ⟨p, hp⟩ := hf.eofLeaf
  exact ((ht.entries Config.eofSym p).mpr hp).1

end

/-- Settles O42: the traversal from ROOT meets every leaf, and the table is filled from it. -/
theorem genTableRecordsEveryLeaf : Obligations.GenTableRecordsEveryLeaf := fun _ _ hi hv hroot =>
  execGenTable_of_tree hv hroot hi.arena (hi.rootOk hv hroot)

/-- Settles O43: the step keeps the invariant, and in a state of the invariant the codes are paths to different leaves
of one tree. -/
theorem tableIsPrefixFree : Obligations.TableIsPrefixFree := by
  intro s t hs hreach hct
  have hi : Inv t := by
    rcases hreach with rfl | hstep
    · exact hs
    · exact stepKeepsInvariant s t hs hstep
  obtain ⟨r, hroot, ht⟩ := hi.table hct
  refine ⟨fun y z => ht.not_prefix, fun y => ht.code_length_le, fun hmode => ?_⟩
  obtain ⟨r', hr', hfreq⟩ := hi.freqTree (hi.tableNeedsTree hct) hmode
  obtain rfl : r' = r := Option.some.inj (hr'.symm.trans hroot)
  exact ht.eof_valid hfreq

/-! ### The steps of EMIT_HDR (R183) -/

section
variable {s : State}

theorem emitHdr_step_start (hph : s.phase = .start .emitHdr) : exec .emitHdr s = emitStart s := by
  simp only [exec, execEmitHdr, hph]

theorem emitHdr_step_put {y : Sym} {n : Nat} (hph : s.phase = .emitPut y n) : exec .emitHdr s = emitByte y n s := by
  simp only [exec, execEmitHdr, hph]

theorem emitHdr_step_close (hph : s.phase = .emitClose) : exec .emitHdr s = emitEnd s := by
  simp only [exec, execEmitHdr, hph]

theorem emitStart_noSink (hsnk : s.snkPresent = false) :
    emitStart s = .next (raiseFault .invalidStream .zero (portsAbsent false true) s) := if_pos (by simp [hsnk])

theorem emitStart_noTable (hsnk : s.snkPresent = true) (hct : s.ctValid = false) :
    emitStart s = .next (raiseFault .noTable .zero 0xFFFFFFFF#32 s) :=
  (if_neg (by simp [hsnk])).trans (if_pos (by simp [hct]))

theorem emitStart_table (hsnk : s.snkPresent = true) (hct : s.ctValid = true) :
    emitStart s = .next { s with phase := emitFrom s 0 } :=
  (if_neg (by simp [hsnk])).trans (if_neg (by simp [hct]))

/-- The next phase is CLOSE or the first byte of a pair. -/
theorem emitFrom_cases (s : State) (k : Nat) : emitFrom s k = .emitClose ∨ ∃ y, emitFrom s k = .emitPut y 0 := by
  unfold emitFrom
  split
  · exact .inr ⟨_, rfl⟩
  · exact .inl rfl

theorem emitByte_put {y : Sym} {n : Nat} {c : Byte} (hready : s.snkReady = true)
    (hc : (pairLines s y)[n]? = some c) :
    emitByte y n s = .next { putData c s with
      phase := if n + 1 < (pairLines s y).length then .emitPut y (n + 1) else emitFrom s (y.val + 1) } := by
  rw [← emitText_eq_pairLines] at hc ⊢
  simp only [emitByte, hc, hready, if_true]

theorem emitEnd_put (hready : s.snkReady = true) : emitEnd s = .next (finish (putClose s)) := if_pos hready

end

/-- Settles O44: the two start checks in order, then the put of each phase. -/
theorem emitHdrSteps : Obligations.EmitHdrSteps := by
  refine fun s => ⟨fun hph hsnk => ?_, fun hph hsnk hct => ?_, fun hph hsnk hct => ?_,
    fun y n c hph hready hc => ?_, fun hph hready => ?_⟩
  · exact (emitHdr_step_start hph).trans (emitStart_noSink hsnk)
  · exact (emitHdr_step_start hph).trans (emitStart_noTable hsnk hct)
  · exact ⟨_, (emitHdr_step_start hph).trans (emitStart_table hsnk hct), emitFrom_cases s 0⟩
  · exact ⟨_, (emitHdr_step_put hph).trans (emitByte_put hready hc), fun hlt => if_pos hlt⟩
  · exact (emitHdr_step_close hph).trans (emitEnd_put hready)

/-- Settles O45: EMIT_HDR puts the pairs of the entries from 0 on, then CLOSE. -/
theorem emitHdrPutsCanonicalHeader : Obligations.EmitHdrPutsCanonicalHeader := fun _ => emitHdr_header

/-! ### The digits of `dec` (R184) -/

section
variable {n : Nat}

theorem decText_one (h : n < 10) : decText n = [digitByte n] := if_pos h

theorem decText_two (h : 10 ≤ n) (h' : n < 100) : decText n = [digitByte (n / 10), digitByte (n % 10)] :=
  (if_neg (by omega)).trans (if_pos h')

theorem decText_three (h : 100 ≤ n) :
    decText n = [digitByte (n / 100), digitByte (n / 10 % 10), digitByte (n % 10)] :=
  (if_neg (by omega)).trans (if_neg (by omega))

theorem decText_length (n : Nat) : (decText n).length = if n < 10 then 1 else if n < 100 then 2 else 3 := by
  unfold decText
  split_ifs <;> rfl

/-- Only the digit of 0 is 0x30. -/
theorem digitByte_ne_zero (hpos : 0 < n) (h : n < 10) : digitByte n ≠ 0x30#8 := fun he => by
  have hval := congrArg BitVec.toNat he
  rw [digitByte_toNat h] at hval
  simp at hval
  omega

/-- `dec` of a byte of two or three digits has no leading zero. -/
theorem decText_head (h : 10 ≤ n) (h' : n ≤ 255) : (decText n).head? ≠ some 0x30#8 := by
  by_cases hn : n < 100
  · rw [decText_two h hn]
    simpa using digitByte_ne_zero (n := n / 10) (by omega) (by omega)
  · rw [decText_three (by omega)]
    simpa using digitByte_ne_zero (n := n / 100) (by omega) (by omega)

end

/-- Settles O46: `dec` of a byte is a decimal key of its value, and its first digit is that of the quotient by the
highest power of ten. -/
theorem decimalTextOfSymbols : Obligations.DecimalTextOfSymbols := by
  intro n
  have hn : n.val ≤ 255 := by omega
  obtain ⟨hkey, hval⟩ := decText_decimal hn
  have ⟨_, _, hdigits, _⟩ := hkey
  exact ⟨decText_length _, decText_one, hdigits, fun h => decText_head h hn, hval, isDecKey_iff.mpr hkey⟩

end Sys2Proof.Machine

/-! SUPPORT. COMPRESS step by step and left alone, and DECOMPRESS of what it put (spec/43_compress.md R195 to R201). -/

namespace Sys2Proof.Machine

/-! ### The step of COMPRESS by its phase (R195) -/

section
variable {s : State} {rest : List SrcToken}

theorem compress_step_start (hph : s.phase = .start .compress) : exec .compress s = compressStart s := by
  simp only [exec, execCompress, hph]

theorem compress_step_take (hph : s.phase = .compTake) : exec .compress s = compressTake s := by
  simp only [exec, execCompress, hph]

theorem compress_step_put {y : Sym} {n : Nat} (hph : s.phase = .compPut y n) :
    exec .compress s = compressPut y n s := by
  simp only [exec, execCompress, hph]

theorem compress_step_close (hph : s.phase = .compClose) : exec .compress s = compressClose s := by
  simp only [exec, execCompress, hph]

/-! ### The start checks (R196) -/

/-- Bit 0 is the absent source, bit 1 the absent sink, so the word is their sum (R242). -/
theorem portsAbsent_eq_add (src snk : Bool) : portsAbsent (!src) (!snk) =
    (if src = false then 1#32 else 0#32) + (if snk = false then 2#32 else 0#32) := by
  cases src <;> cases snk <;> rfl

theorem compressStart_noPort (h : s.srcPresent = false ∨ s.snkPresent = false) : compressStart s =
    .next (raiseFault .invalidStream .zero (portsAbsent (!s.srcPresent) (!s.snkPresent)) s) :=
  if_pos (by simpa using h)

section
variable (hsrc : s.srcPresent = true) (hsnk : s.snkPresent = true)
include hsrc hsnk

/-- With both ports present the table decides (R196). -/
theorem compressStart_ports : compressStart s =
    if !s.ctValid then .next (raiseFault .noTable .zero 0xFFFFFFFF#32 s)
    else if !(ctEntry s Config.eofSym).valid then .next (raiseFault .noTable .zero 256#32 s)
    else .next { s with phase := .compTake } := if_neg (by simp [hsrc, hsnk])

theorem compressStart_noTable (hct : s.ctValid = false) :
    compressStart s = .next (raiseFault .noTable .zero 0xFFFFFFFF#32 s) :=
  (compressStart_ports hsrc hsnk).trans (if_pos (by simp [hct]))

theorem compressStart_noEof (hct : s.ctValid = true) (heof : (ctEntry s Config.eofSym).valid = false) :
    compressStart s = .next (raiseFault .noTable .zero 256#32 s) :=
  (compressStart_ports hsrc hsnk).trans ((if_neg (by simp [hct])).trans (if_pos (by simp [heof])))

theorem compressStart_ready (hct : s.ctValid = true) (heof : (ctEntry s Config.eofSym).valid = true) :
    compressStart s = .next { s with phase := .compTake } :=
  (compressStart_ports hsrc hsnk).trans ((if_neg (by simp [hct])).trans (if_neg (by simp [heof])))

end

/-! ### Each take and each put (R195, R197, R198) -/

theorem compressTake_end {data : Byte} (hsrc : s.src = ⟨true, data⟩ :: rest) :
    compressTake s = .next { takeToken rest s with phase := compNext s Config.eofSym 0 } := by
  simp only [compressTake, hsrc, if_true]

theorem compressTake_byte {c : Byte} (hsrc : s.src = ⟨false, c⟩ :: rest) : compressTake s =
    if !(ctEntry s (symOfByte c)).valid then
      .next (raiseFault .unknownSymbol .zero (c.setWidth 32) (countIn (takeToken rest s)))
    else .next { countIn (takeToken rest s) with phase := compNext s (symOfByte c) 0 } := by
  simp only [compressTake, hsrc, Bool.false_eq_true, if_false]

theorem compressPut_bit {y : Sym} {n : Nat} {b : Bool} (hready : s.snkReady = true)
    (hb : (ctEntry s y).code[n]? = some b) :
    compressPut y n s = .next { putData (bitData b) s with phase := compNext s y (n + 1) } := by
  simp only [compressPut, hb, hready, if_true]

theorem compressClose_put (hready : s.snkReady = true) : compressClose s = .next (finish (putClose s)) := if_pos hready

/-- Before the first bit of a code COMPRESS goes to put it; a code of no bits is passed over (log entry 13). -/
theorem compNext_zero (s : State) (y : Sym) : compNext s y 0 =
    if (ctEntry s y).code = [] then (if y = Config.eofSym then .compClose else .compTake) else .compPut y 0 := by
  simp only [compNext, List.length_pos_iff, ne_eq, ite_not]

end

/-- Settles O47: the checks in the order of START. -/
theorem compressStartChecks : Obligations.CompressStartChecks := by
  intro s hph
  rw [compress_step_start hph, ← portsAbsent_eq_add]
  exact ⟨compressStart_noPort, compressStart_noTable, compressStart_noEof, compressStart_ready⟩

/-- Settles O48: by the phase, and by the token at a take. -/
theorem compressSteps : Obligations.CompressSteps := by
  refine fun s => ⟨fun c y rest hph hsrc hy => ?_, fun data rest hph hsrc => ?_, fun y n b hph hready hb => ?_,
    fun hph hready => (compress_step_close hph).trans (compressClose_put hready)⟩
  · obtain rfl : y = symOfByte c := Fin.ext hy
    have hnext := compNext_zero s (symOfByte c)
    rw [if_neg (symOfByte_ne_eof c)] at hnext
    rw [compress_step_take hph, compressTake_byte hsrc, hnext]
    exact ⟨fun hv => if_pos (by simp [hv]), fun hv => if_neg (by simp [hv])⟩
  · rw [compress_step_take hph, compressTake_end hsrc, compNext_zero]
    rfl
  · exact (compress_step_put hph).trans (compressPut_bit hready hb)

/-! ### COMPRESS left alone (R195, R197, R199, R200) -/

/-- The state COMPRESS of the bytes `l` completes in (R199, R200). -/
def payloadPut (s : State) (l : List Byte) (rest : List SrcToken) : State :=
  { s with
    src := rest, snk := s.snk ++ (payload s l).map bitTok ++ [SnkToken.closing],
    inCount := s.inCount + BitVec.ofNat 32 l.length,
    outCount := s.outCount + BitVec.ofNat 32 (payload s l).length, phase := .idle }

/-- After the last byte: END is taken, the `EOF_SYMBOL` code and CLOSE are put (R197). -/
theorem compress_eof {s : State} (hready : s.snkReady = true) (data : Byte) (rest : List SrcToken)
    (snk : List SnkToken) (ic oc : Word) :
    Leads (s.stream (⟨true, data⟩ :: rest) snk ic oc .compTake)
      (s.stream rest (snk ++ (ctEntry s Config.eofSym).code.map bitTok ++ [SnkToken.closing]) ic
        (oc + BitVec.ofNat 32 (ctEntry s Config.eofSym).code.length) .idle) := by
  have hcode := compress_code hready rest snk ic oc Config.eofSym 0
  rw [if_pos rfl, List.drop_zero] at hcode
  have htake : exec .compress (s.stream (⟨true, data⟩ :: rest) snk ic oc .compTake) =
      .next (s.stream rest snk ic oc (compNext s Config.eofSym 0)) :=
    (compress_step_take rfl).trans (compressTake_end rfl)
  refine (Leads.head rfl htake hcode).trans (Leads.one (i := .compress) rfl ?_)
  exact (compress_step_close rfl).trans (compressClose_put (s := s.stream ..) hready)

/-- COMPRESS of bytes that all have a code puts their payload and CLOSE (R195, R199, R200). -/
theorem compress_payload {s : State} {l : List Byte} {data : Byte} {rest : List SrcToken}
    (hph : s.phase = .start .compress) (hsrc : s.srcPresent = true) (hsnk : s.snkPresent = true)
    (hready : s.snkReady = true) (hct : s.ctValid = true) (heof : (ctEntry s Config.eofSym).valid = true)
    (hl : ∀ c ∈ l, (ctEntry s (symOfByte c)).valid = true)
    (htoks : s.src = l.map SrcToken.d ++ ⟨true, data⟩ :: rest) : Leads s (payloadPut s l rest) := by
  have hstart : exec .compress s = .next (s.stream s.src s.snk s.inCount s.outCount .compTake) :=
    (compress_step_start hph).trans (compressStart_ready hsrc hsnk hct heof)
  rw [htoks] at hstart
  have hbytes := compress_bytes hready l hl (⟨true, data⟩ :: rest) s.snk s.inCount s.outCount
  have hend := compress_eof hready data rest
    (s.snk ++ (l.flatMap fun b => (ctEntry s (symOfByte b)).code).map bitTok) (s.inCount + BitVec.ofNat 32 l.length)
    (s.outCount + BitVec.ofNat 32 (l.flatMap fun b => (ctEntry s (symOfByte b)).code).length)
  rw [add_ofNat_add, ← List.length_append, List.append_assoc s.snk, ← List.map_append] at hend
  exact Leads.head (by rw [hph]; rfl) hstart (hbytes.trans hend)

/-- Settles O49: the bytes one after another, then END. -/
theorem compressPutsPayload : Obligations.CompressPutsPayload := fun _ _ _ _ => compress_payload

/-! ### DECOMPRESS of spelled codes (R213, R215) -/

section
variable {s : State} {r : Nat}

theorem decompress_step_start (hph : s.phase = .start .decompress) : exec .decompress s = decompressStart s := by
  simp only [exec, execDecompress, hph]

theorem decompress_step_stop {reason : Bool} (hph : s.phase = .decStop reason) :
    exec .decompress s = decStopStep reason s := by
  simp only [exec, execDecompress, hph]

theorem decStopStep_put {reason : Bool} (hready : s.snkReady = true) :
    decStopStep reason s = .next (finish (putClose { s with endReason := reason })) := if_pos hready

/-- A root with both children selects the general path (R210, R211). -/
theorem decompressStart_general {f : Option NodeFreq} {a b : Nat} (hsrc : s.srcPresent = true)
    (hsnk : s.snkPresent = true) (hv : s.treeValid = true) (hroot : s.root = some r)
    (hr : s.arena[r]? = some (.internal f (some a) (some b))) :
    decompressStart s = .next { s with endReason := false, midcode := false, phase := .decGeneral r r } := by
  refine (if_neg (by simp [hsrc, hsnk])).trans ((if_neg (by simp [hv])).trans ?_)
  simp only [hroot, hr]
  rfl

/-- The bits of the `EOF_SYMBOL` code bring the general path to STOP with reason 0 (R213). -/
theorem dec_eofCode (hint : IsInternal s.arena r) {eof : List Bool} (heof : LeafAt s.arena r eof Config.eofSym)
    {toks : List SrcToken} (ht : BitTokens toks eof) (rest : List SrcToken) (snk : List SnkToken) (ic oc : Word) :
    Leads (s.stream (toks ++ rest) snk ic oc (.decGeneral r r))
      (s.stream rest snk (ic + BitVec.ofNat 32 toks.length) oc (.decStop false)) := by
  obtain ⟨q, b, p, c, rfl, hq, hb, hc⟩ := leafAt_split heof hint
  obtain ⟨x, y, rfl, hx, hy⟩ := bitTokens_append ht
  obtain ⟨t, rfl, htEnd, rfl⟩ := bitTokens_single hy
  rw [List.append_assoc, List.length_append, ← add_ofNat_add]
  exact (dec_walk hx hq (internal_of_link hb)).trans (Leads.one rfl (dec_eof htEnd hb hc))

/-- The state DECOMPRESS completes in after `n` bits that spelled the bytes `l` and the `EOF_SYMBOL` code (R215). -/
def decoded (s : State) (l : List Byte) (n : Nat) (rest : List SrcToken) : State :=
  { s with
    src := rest, snk := s.snk ++ l.map SnkToken.d ++ [SnkToken.closing],
    inCount := s.inCount + BitVec.ofNat 32 n, outCount := s.outCount + BitVec.ofNat 32 l.length,
    endReason := false, phase := .idle }

/-- On the general path, the codes of `l` and of `EOF_SYMBOL` put `l` and CLOSE (R213, R215). -/
theorem decGeneral_spelled (hph : s.phase = .decGeneral r r) (hready : s.snkReady = true)
    (hint : IsInternal s.arena r) {l : List Byte} {codes : List (List Bool)}
    (hcodes : List.Forall₂ (fun b code => LeafAt s.arena r code (symOfByte b)) l codes) {eof : List Bool}
    (heof : LeafAt s.arena r eof Config.eofSym) {toks rest : List SrcToken} (ht : BitTokens toks (codes.flatten ++ eof))
    (hsrc : s.src = toks ++ rest) : Leads s (decoded s l toks.length rest) := by
  obtain ⟨x, y, rfl, hx, hy⟩ := bitTokens_append ht
  have hs : s = s.stream (x ++ (y ++ rest)) s.snk s.inCount s.outCount (.decGeneral r r) := by
    rw [← List.append_assoc, ← hsrc, ← hph]
    rfl
  have hbytes := dec_bytes hint hready hcodes (src := y ++ rest) (snk := s.snk) (ic := s.inCount) (oc := s.outCount) hx
  have hend := dec_eofCode hint heof hy rest (s.snk ++ l.map SnkToken.d) (s.inCount + BitVec.ofNat 32 x.length)
    (s.outCount + BitVec.ofNat 32 l.length)
  rw [← hs] at hbytes
  rw [add_ofNat_add, ← List.length_append] at hend
  exact (hbytes.trans hend).trans (Leads.one rfl ((decompress_step_stop rfl).trans (decStopStep_put hready)))

end

/-! ### The round trip (R201) -/

/-- The bits COMPRESS put, offered on SRC (R119). -/
theorem bitTokens_offered (bits : List Bool) : BitTokens (bits.map fun b => SrcToken.d (bitData b)) bits := by
  have hbit : ∀ b, tokenBit (SrcToken.d (bitData b)) = b := by decide
  refine ⟨fun t ht => ?_, ?_⟩
  · obtain ⟨b, -, rfl⟩ := List.mem_map.mp ht
    rfl
  · simp [Function.comp_def, hbit]

/-- The root of a BUILD_FREQ tree over a nonzero count is the last merge, with both children (R145). -/
theorem mergeAll_root_merged {freq : Vector Word 256} (h : ∃ b : Fin 256, freq[b.val] ≠ 0#32) :
    ∃ f x y, (mergeAll freq).1[2 * leafCount freq - 2]? = some (.internal f (some x) (some y)) := by
  obtain ⟨b, hb⟩ := h
  have hmem : b ∈ presentBytes freq := List.mem_filter.mpr ⟨List.mem_finRange b, by simpa using hb⟩
  have hpos := List.length_pos_of_mem hmem
  have hL : leafCount freq = (presentBytes freq).length + 1 := rfl
  rcases leaf_or_internal (mergeAll_rootOk freq).allocated with ⟨y, hleaf⟩ | hint
  · have := (mergeAll_isLeaf freq hleaf).1
    omega
  · obtain ⟨-, f, x, y, hr, -⟩ := mergeAll_internal freq hint
    exact ⟨_, x, y, hr⟩

/-- In the table of a BUILD_FREQ tree every byte with a nonzero count has an entry (R146, R182). -/
theorem TableOfTree.byte_valid {s : State} {freq : Vector Word 256}
    (ht : TableOfTree s (2 * leafCount freq - 2)) (ha : s.arena = (mergeAll freq).1) {c : Byte}
    (hc : freq[c.toNat] ≠ 0#32) : (ctEntry s (symOfByte c)).valid = true := by
  obtain ⟨p, hp⟩ := (mergeAll_leafAt freq (symOfByte c)).mpr (.inr ⟨c.toFin, rfl, hc⟩)
  exact ((ht.entries _ p).mpr (ha ▸ hp)).1

/-- DECOMPRESS of a payload of the tree's own table puts its bytes back (R201). -/
theorem TableOfTree.decompress_payload {s : State} {r : Nat} {l : List Byte} {rest : List SrcToken}
    (ht : TableOfTree s r) (heof : (ctEntry s Config.eofSym).valid = true)
    (hl : ∀ c ∈ l, (ctEntry s (symOfByte c)).valid = true) (hv : s.treeValid = true) (hroot : s.root = some r)
    (hmerged : ∃ f a b, s.arena[r]? = some (.internal f (some a) (some b))) (hph : s.phase = .start .decompress)
    (hsrc : s.srcPresent = true) (hsnk : s.snkPresent = true) (hready : s.snkReady = true)
    (htoks : s.src = (payload s l).map (fun b => SrcToken.d (bitData b)) ++ rest) :
    ∃ n, Leads s (decoded { s with midcode := false } l n rest) := by
  obtain ⟨f, a, b, hr⟩ := hmerged
  have hstart := (decompress_step_start hph).trans (decompressStart_general hsrc hsnk hv hroot hr)
  have hcodes : List.Forall₂ (fun b code => LeafAt s.arena r code (symOfByte b)) l
      (l.map fun b => (ctEntry s (symOfByte b)).code) := by
    rw [List.forall₂_map_right_iff, List.forall₂_same]
    exact fun c hc => ht.leafAt (hl c hc)
  have hspelled := decGeneral_spelled
    (s := { s with endReason := false, midcode := false, phase := .decGeneral r r }) rfl hready ⟨_, _, _, hr⟩ hcodes
    (ht.leafAt heof) (bitTokens_offered (payload s l)) htoks
  exact ⟨_, Leads.head (by rw [hph]; rfl) hstart hspelled⟩

/-- Command `i` at START with the tokens `src` on SRC. -/
def startOn (i : Instr) (src : List SrcToken) (s : State) : State := { s with phase := .start i, src := src }

/-- Settles O54: the codes of the table are the paths to the leaves of the tree that DECOMPRESS walks. -/
theorem compressThenDecompressIsIdentity : Obligations.CompressThenDecompressIsIdentity := by
  intro s l more more' hfreq hl hsrc hsnk hready hfault
  obtain ⟨ct, hgen, htable, heof⟩ := buildFreq_genTable s
  let u := withTable ct (freqTree s)
  have hbytes : ∀ c ∈ l, (ctEntry u (symOfByte c)).valid = true := fun c hc => htable.byte_valid rfl (hl c hc)
  let v := payloadPut (startOn .compress (l.map SrcToken.d ++ SrcToken.eos :: more) u) l more
  have hput : Leads (startOn .compress _ u) v := compress_payload rfl hsrc hsnk hready rfl heof hbytes rfl
  obtain ⟨n, hback⟩ := TableOfTree.decompress_payload
    (s := startOn .decompress ((payload u l).map (fun b => SrcToken.d (bitData b)) ++ more') v) (rest := more')
    ⟨htable.arena, htable.rootOk, htable.entries⟩ heof hbytes rfl rfl (mergeAll_root_merged hfreq) rfl hsrc
    hsnk hready rfl
  exact ⟨_, u, execBuildFreq_next hfreq, hgen, v, payload u l, hput, rfl, hfault, rfl, rfl,
    _, hback, rfl, hfault, rfl, rfl, rfl⟩

end Sys2Proof.Machine

/-! SUPPORT. DECOMPRESS step by step, and left alone on the general path (spec/44_decompress.md R210 to R219). -/

namespace Sys2Proof.Machine

/-! ### The start checks and the path of the root (R210, R211, R219) -/

/-- A root selects the general path exactly if it has both children (R211). -/
theorem degenerate_eq_false_iff {n : Node} :
    n.degenerate = false ↔ ∃ f a b, n = .internal f (some a) (some b) := by
  cases n with
  | leaf y f => simp [Node.degenerate, Node.kind]
  | internal f a b => simp [Node.degenerate, Node.kind, Node.left, Node.right, Option.isSome_iff_exists]

section
variable {s : State}

theorem decompressStart_noPort (h : s.srcPresent = false ∨ s.snkPresent = false) : decompressStart s =
    .next (raiseFault .invalidStream .zero (portsAbsent (!s.srcPresent) (!s.snkPresent)) s) :=
  if_pos (by simpa using h)

theorem decompressStart_noTree (hsrc : s.srcPresent = true) (hsnk : s.snkPresent = true)
    (hv : s.treeValid = false) : decompressStart s = .next (raiseFault .emptyTree .zero 0 s) :=
  (if_neg (by simp [hsrc, hsnk])).trans (if_pos (by simp [hv]))

theorem decompressStart_degenerate {r : Nat} {n : Node} (hsrc : s.srcPresent = true) (hsnk : s.snkPresent = true)
    (hv : s.treeValid = true) (hroot : s.root = some r) (hn : s.arena[r]? = some n) (hd : n.degenerate = true) :
    decompressStart s = .next { s with endReason := false, midcode := false, phase := .decDegenerate r } := by
  refine (if_neg (by simp [hsrc, hsnk])).trans ((if_neg (by simp [hv])).trans ?_)
  simp only [hroot, hn, hd, if_true]

end

/-- Settles O50: the checks in the order of START, then the node at the root. -/
theorem decompressStartChecks : Obligations.DecompressStartChecks := by
  intro s hph
  rw [decompress_step_start hph, ← portsAbsent_eq_add]
  refine ⟨decompressStart_noPort, decompressStart_noTree, fun r n hsrc hsnk hv hroot hn => ⟨?_, fun hlacks => ?_⟩⟩
  · rintro ⟨f, a, b, rfl⟩
    exact decompressStart_general hsrc hsnk hv hroot hn
  · rw [← degenerate_eq_false_iff, Bool.not_eq_false] at hlacks
    exact decompressStart_degenerate hsrc hsnk hv hroot hn hlacks

/-! ### The step of the general path (R213, R214, R218) -/

/-- A state is the stream of its own ports, counters and phase, so the rules about streams speak of every state. -/
theorem State.eq_stream {s : State} {toks : List SrcToken} {ph : Phase} (hsrc : s.src = toks) (hph : s.phase = ph) :
    s = s.stream toks s.snk s.inCount s.outCount ph := by
  subst hsrc hph
  rfl

section
variable {s : State} {r p : Nat} {data : Byte} {rest : List SrcToken}

theorem decompress_step_general (hph : s.phase = .decGeneral r p) : exec .decompress s = decGeneralStep r p s := by
  simp only [exec, execDecompress, hph]

/-- END stops with reason 1, and MIDCODE says whether the pointer is away from the root (R213). -/
theorem decGeneralStep_end (hsrc : s.src = ⟨true, data⟩ :: rest) : decGeneralStep r p s =
    .next { takeToken rest s with midcode := decide (p ≠ r), phase := .decStop true } := by
  simp only [decGeneralStep, hsrc, if_true]

/-- A bit that selects no child faults (R214). -/
theorem decGeneralStep_nullChild (hsrc : s.src = ⟨false, data⟩ :: rest) (hp : IsInternal s.arena p)
    (hl : link s.arena p (data.getLsbD 0) = none) : decGeneralStep r p s =
    .next (raiseFault .decodeNullChild .zero (nullChildInfo p (data.getLsbD 0)) (takeBit rest s)) := by
  obtain ⟨f, a, b, hn⟩ := hp
  have hchild : (Node.internal f a b).child (tokenBit ⟨false, data⟩) = none := by
    simpa only [link, hn, tokenBit] using hl
  simp only [decGeneralStep, hsrc, hn, hchild, Bool.false_eq_true, if_false]
  rfl

end

/-- Settles O51: by the token, and by the child its bit selects. -/
theorem decompressGeneralStep : Obligations.DecompressGeneralStep := by
  intro s r p rest hph
  refine ⟨fun data hsrc => (decompress_step_general hph).trans (decGeneralStep_end hsrc),
    fun data hsrc hp => ⟨fun hl => (decompress_step_general hph).trans (decGeneralStep_nullChild hsrc hp hl),
      fun c hl => ?_⟩⟩
  have hs := congrArg (exec .decompress) (State.eq_stream hsrc hph)
  refine ⟨fun heof => hs.trans (dec_eof rfl hl heof), fun b hb hready => ?_,
    fun hint => hs.trans (dec_step rfl hl hint)⟩
  have hput := hs.trans (dec_leaf hready rfl hl hb (symOfByte_ne_eof b))
  rwa [byteOfSym_symOfByte] at hput

/-! ### The step of the degenerate path, and STOP (R212, R215) -/

section
variable {s : State} {r : Nat} {data : Byte} {rest : List SrcToken}

theorem decompress_step_degenerate (hph : s.phase = .decDegenerate r) :
    exec .decompress s = decDegenerateStep r s := by
  simp only [exec, execDecompress, hph]

theorem decDegenerateStep_end (hsrc : s.src = ⟨true, data⟩ :: rest) :
    decDegenerateStep r s = .next { takeToken rest s with phase := .decStop true } := by
  simp only [decDegenerateStep, hsrc, if_true]

section
variable (hsrc : s.src = ⟨false, data⟩ :: rest)
include hsrc

/-- An internal root lacks a child, and any bit faults there (R212). -/
theorem decDegenerateStep_internal (hr : IsInternal s.arena r) : decDegenerateStep r s =
    .next (raiseFault .malformedTree .zero (BitVec.ofNat 32 r) (takeBit rest s)) := by
  obtain ⟨f, a, b, hn⟩ := hr
  simp only [decDegenerateStep, hsrc, hn, Bool.false_eq_true, if_false]

/-- At a leaf root the symbol decides: `EOF_SYMBOL` stops, a byte is put while the sink accepts (R212). -/
theorem decDegenerateStep_leaf {y : Sym} (hr : IsLeaf s.arena r y) : decDegenerateStep r s =
    if y = Config.eofSym then .next { takeBit rest s with phase := .decStop false }
    else if s.snkReady then .next (putData (byteOfSym y) (takeBit rest s))
    else .next s := by
  obtain ⟨f, hn⟩ := hr
  simp only [decDegenerateStep, hsrc, hn, Bool.false_eq_true, if_false]

theorem decDegenerateStep_eof (hr : IsLeaf s.arena r Config.eofSym) :
    decDegenerateStep r s = .next { takeBit rest s with phase := .decStop false } :=
  (decDegenerateStep_leaf hsrc hr).trans (if_pos rfl)

theorem decDegenerateStep_byte {b : Byte} (hr : IsLeaf s.arena r (symOfByte b)) (hready : s.snkReady = true) :
    decDegenerateStep r s = .next (putData b (takeBit rest s)) := by
  rw [decDegenerateStep_leaf hsrc hr, if_neg (symOfByte_ne_eof b), if_pos hready, byteOfSym_symOfByte]

end

end

/-- Settles O52: by the token and the node at the root; STOP by its one put. -/
theorem decompressDegenerateStepAndStop : Obligations.DecompressDegenerateStepAndStop := by
  refine ⟨fun s r rest hph => ?_, fun s reason hph hready => (decompress_step_stop hph).trans (decStopStep_put hready)⟩
  rw [decompress_step_degenerate hph]
  exact ⟨fun data => decDegenerateStep_end, fun data hsrc =>
    ⟨decDegenerateStep_eof hsrc, decDegenerateStep_internal hsrc, fun b => decDegenerateStep_byte hsrc⟩⟩

/-! ### The general path left alone (R213, R215, R216, R217) -/

/-- In an ordered arena the pointer is away from the root exactly after a nonempty part of a code. -/
theorem ArenaOk.pointer_ne_root {a : List Node} (h : ArenaOk a) {q : List Bool} {r p : Nat}
    (hq : follow a q r = some p) : decide (p ≠ r) = !q.isEmpty := by
  cases q with
  | nil =>
    obtain rfl : r = p := by simpa using hq
    simp
  | cons b q =>
    have hne : p ≠ r := by
      rintro rfl
      exact List.cons_ne_nil b q (h.follow_self hq)
    simp [hne]

/-- A part `q` of a code, then END, bring the general path to STOP with reason 1, and nothing is put (R213, R217). -/
theorem dec_partCode {s : State} {r p : Nat} (ha : ArenaOk s.arena) {q : List Bool}
    (hq : follow s.arena q r = some p) (hp : IsInternal s.arena p) {toks : List SrcToken} (ht : BitTokens toks q)
    (data : Byte) (rest : List SrcToken) (snk : List SnkToken) (ic oc : Word) :
    Leads (s.stream (toks ++ ⟨true, data⟩ :: rest) snk ic oc (.decGeneral r r))
      { s.stream rest snk (ic + BitVec.ofNat 32 toks.length) oc (.decStop true) with midcode := !q.isEmpty } := by
  rw [← ha.pointer_ne_root hq]
  exact (dec_walk ht hq hp).trans (Leads.one rfl ((decompress_step_general rfl).trans (decGeneralStep_end rfl)))

/-- On the general path, the codes of `l`, a part `q` of a code and END put `l` and CLOSE (R213, R215, R217). -/
theorem decGeneral_truncated {s : State} {r p : Nat} (ha : ArenaOk s.arena) (hph : s.phase = .decGeneral r r)
    (hready : s.snkReady = true) (hint : IsInternal s.arena r) {l : List Byte} {codes : List (List Bool)}
    (hcodes : List.Forall₂ (fun b code => LeafAt s.arena r code (symOfByte b)) l codes) {q : List Bool}
    (hq : follow s.arena q r = some p) (hp : IsInternal s.arena p) {toks rest : List SrcToken} {data : Byte}
    (ht : BitTokens toks (codes.flatten ++ q)) (hsrc : s.src = toks ++ ⟨true, data⟩ :: rest) :
    Leads s { decoded s l toks.length rest with endReason := true, midcode := !q.isEmpty } := by
  obtain ⟨x, y, rfl, hx, hy⟩ := bitTokens_append ht
  have hbytes := dec_bytes hint hready hcodes (src := y ++ ⟨true, data⟩ :: rest) (snk := s.snk) (ic := s.inCount)
    (oc := s.outCount) hx
  have hend := dec_partCode ha hq hp hy data rest (s.snk ++ l.map SnkToken.d)
    (s.inCount + BitVec.ofNat 32 x.length) (s.outCount + BitVec.ofNat 32 l.length)
  rw [← List.append_assoc, ← State.eq_stream hsrc hph] at hbytes
  rw [add_ofNat_add, ← List.length_append] at hend
  exact (hbytes.trans hend).trans (Leads.one rfl ((decompress_step_stop rfl).trans (decStopStep_put hready)))

/-- Settles O53: the codes of the bytes bring the pointer back to the root, then `EOF_SYMBOL` or END stops. -/
theorem decompressEmitsSpelledBytes : Obligations.DecompressEmitsSpelledBytes := by
  intro s r l codes toks rest hinv hph hready hcodes
  have hphase := hinv.phase
  rw [hph] at hphase
  obtain ⟨-, -, -, hint⟩ := hphase
  exact ⟨fun eof heof => decGeneral_spelled hph hready hint hcodes heof,
    fun q p data hq hp => decGeneral_truncated hinv.arena hph hready hint hcodes hq hp⟩

end Sys2Proof.Machine

/-! SUPPORT. NOP, the one command that clears OVERRUN, and DISCARD (spec/45_control.md R230, R231). -/

namespace Sys2Proof.Machine

/-- OVERRUN is cleared by NOP alone (R42, R230): every other command keeps it. -/
theorem exec_clears_overrun {i : Instr} {s t : State} (he : exec i s = .next t) (hs : s.overrun = true)
    (ht : t.overrun = false) : i = .nop := by
  by_contra hi
  have kept : t.overrun = s.overrun := (exec_writes he).keeps State.overrun (ownWrites_overrun s t hi)
  simp [hs, ht] at kept

/-- Settles O25: NOP's one step, the writers of OVERRUN, and the word of NOP as any word written while BUSY = 1. -/
theorem nopClearsOverrun : Obligations.NopClearsOverrun :=
  ⟨rfl, fun _ => rfl, fun _ _ _ => exec_clears_overrun, fun s rest => busyWordOnlySetsOverrun s rest (encode .nop)⟩

/-- Settles O26: the new table is the old one with every VALID cleared. -/
theorem discardDropsTreeAndTable : Obligations.DiscardDropsTreeAndTable :=
  fun s => ⟨clearValid s.ct, rfl, fun y => clearValid_getElem s.ct y.val y.isLt⟩

end Sys2Proof.Machine

/-! SUPPORT. Faults: which causes a command raises, and what the step that raises one leaves of the state
(spec/60_exceptions.md R240 to R247). -/

namespace Sys2Proof.Machine

/-! ### The bytes of ERR_CAUSE (R240, R241) -/

/-- SUB is above the low byte, so it does not reach CAUSE. -/
theorem lowByte_or_shift (a b : Word) : (a ||| b <<< 8).extractLsb' 0 8 = a.extractLsb' 0 8 := by
  refine BitVec.eq_of_getLsbD_eq fun k hk => ?_
  simp [hk]

theorem errCause_sub_zero (c : Cause) : (causeCode c ||| subCode .zero <<< 8).extractLsb' 8 8 = 0#8 := by
  cases c <;> rfl

theorem errCause_upper (c : Cause) (sub : SubCause) :
    (causeCode c ||| subCode sub <<< 8).extractLsb' 16 16 = 0#16 := by
  cases c <;> cases sub <;> rfl

/-! ### What a faulting step is -/

/-- The causes a command can raise (R243). -/
def causesOf : Instr → List Cause
  | .nop | .clrFreq | .discard => []
  | .buildFreq => [.emptyFreqTable]
  | .buildHdr => [.invalidStream, .invalidHeader]
  | .genTable => [.emptyTree]
  | .compress => [.invalidStream, .noTable, .unknownSymbol]
  | .decompress => [.invalidStream, .emptyTree, .decodeNullChild, .malformedTree]
  | .emitHdr => [.invalidStream, .noTable]

/-- `t` is `u` after a fault of a cause of this command's own, with a SUB only for INVALID_HEADER (R241, R243). -/
def RaisedOn (i : Instr) (u t : State) : Prop :=
  ∃ c sub info, c ∈ causesOf i ∧ (sub = .zero ∨ c = .invalidHeader) ∧ t = raiseFault c sub info u

/-- The fault is raised on a state the step has put nothing in (R247). -/
def FaultsWithoutPut (i : Instr) (s t : State) : Prop :=
  ∃ u, u.snk = s.snk ∧ u.outCount = s.outCount ∧ RaisedOn i u t

section
variable {i : Instr} {s t u : State}

theorem RaisedOn.withoutPut (h : RaisedOn i s t) : FaultsWithoutPut i s t := ⟨s, rfl, rfl, h⟩

/-- A fault with no SUB. -/
theorem raisedOn_raiseFault {c : Cause} (hc : c ∈ causesOf i) (info : Word) :
    RaisedOn i u (raiseFault c .zero info u) := ⟨c, .zero, info, hc, .inl rfl, rfl⟩

/-- One check of a command: it fails and raises its cause, or the command goes on. -/
theorem raisedOn_check {p : Prop} [Decidable p] {c : Cause} {info : Word} {a : Answer}
    (h : (if p then .next (raiseFault c .zero info u) else a) = .next t) (hc : c ∈ causesOf i)
    (ha : a = .next t → RaisedOn i u t) : RaisedOn i u t := by
  split at h
  · cases h; exact raisedOn_raiseFault hc info
  · exact ha h

/-- A step that waits for the sink keeps FAULT, if what it does with the sink accepting keeps it. -/
theorem fault_kept_of_put {p : Prop} [Decidable p] (h : (if p then .next u else .next s : Answer) = .next t)
    (hu : u.fault = s.fault) : t.fault = s.fault := by
  split at h <;> cases h
  · exact hu
  · rfl

theorem compressPut_fault {y : Sym} {n : Nat} (h : compressPut y n s = .next t) : t.fault = s.fault := by
  unfold compressPut at h
  split at h
  · cases h
  · exact fault_kept_of_put h rfl

theorem emitByte_fault {y : Sym} {n : Nat} (h : emitByte y n s = .next t) : t.fault = s.fault := by
  unfold emitByte at h
  split at h
  · cases h
  · exact fault_kept_of_put h rfl

end

/-! ### Where each command faults (R243) -/

section
variable {i : Instr} {s t : State} (hs : s.fault = false) (ht : t.fault = true)
include hs ht

theorem absurd_of_fault_kept {P : Prop} (h : t.fault = s.fault) : P := by
  simp [hs, ht] at h

theorem absurd_of_next {P : Prop} {u : State} (h : (.next u : Answer) = .next t) (hu : u.fault = s.fault) : P :=
  absurd_of_fault_kept hs ht (by cases h; exact hu)

/-! START (R246): a fault is raised on the state as it is. -/

theorem hdrStart_raises (h : hdrStart s = .next t) : RaisedOn .buildHdr s t :=
  raisedOn_check h (by decide) fun h => absurd_of_next hs ht h rfl

theorem emitStart_raises (h : emitStart s = .next t) : RaisedOn .emitHdr s t :=
  raisedOn_check h (by decide) fun h => raisedOn_check h (by decide) fun h => absurd_of_next hs ht h rfl

theorem compressStart_raises (h : compressStart s = .next t) : RaisedOn .compress s t :=
  raisedOn_check h (by decide) fun h => raisedOn_check h (by decide) fun h => raisedOn_check h (by decide) fun h =>
    absurd_of_next hs ht h rfl

theorem decompressStart_raises (h : decompressStart s = .next t) : RaisedOn .decompress s t := by
  refine raisedOn_check h (by decide) fun h => raisedOn_check h (by decide) fun h => ?_
  split at h
  · cases h
  · split at h
    · cases h
    · exact absurd_of_next hs ht h rfl

theorem execGenTable_raises (h : execGenTable s = .next t) : RaisedOn .genTable s t := by
  refine raisedOn_check h (by decide) fun h => ?_
  split at h
  · cases h
  · exact absurd_of_next hs ht h rfl

theorem startStep_raises (h : startStep i s = .next t) : RaisedOn i s t := by
  cases i with
  | nop | clrFreq | discard => exact absurd_of_next hs ht h rfl
  | buildFreq => exact raisedOn_check h (by decide) fun h => absurd_of_next hs ht h rfl
  | buildHdr => exact hdrStart_raises hs ht h
  | genTable => exact execGenTable_raises hs ht h
  | compress => exact compressStart_raises hs ht h
  | decompress => exact decompressStart_raises hs ht h
  | emitHdr => exact emitStart_raises hs ht h

/-! After START (R247): a fault is raised by a take, on a state nothing was put in. -/

/-- Every fault of the loop is INVALID_HEADER, raised on the state without its tree (R174). -/
theorem hdrLoop_raises {k : HdrState} (h : hdrLoop k s = .next t) : FaultsWithoutPut .buildHdr s t := by
  obtain ⟨tok, rest, -, ⟨sub, ln, b, rfl, -⟩ | ⟨sub, ln, b, rfl, -⟩⟩ := hdrLoop_faultsFrom hs ht h
  all_goals exact ⟨_, by rfl, by rfl, _, sub, ln, by decide, .inr rfl, rfl⟩

/-- A take of COMPRESS faults at a byte with no entry, before it puts a bit (R198). -/
theorem compressTake_raises (h : compressTake s = .next t) : FaultsWithoutPut .compress s t := by
  unfold compressTake at h
  split at h
  · exact absurd_of_next hs ht h rfl
  · rename_i tok rest _
    split at h
    · exact absurd_of_next hs ht h rfl
    · exact ⟨countIn (takeToken rest s), rfl, rfl,
        raisedOn_check h (by decide) fun h => absurd_of_next hs ht h rfl⟩

/-- The general path faults at a bit that selects no child, and puts only at a leaf (R213, R214). -/
theorem decGeneralStep_raises {r p : Nat} (h : decGeneralStep r p s = .next t) : FaultsWithoutPut .decompress s t := by
  unfold decGeneralStep at h
  split at h
  · exact absurd_of_next hs ht h rfl
  · rename_i tok rest _
    split at h
    · exact absurd_of_next hs ht h rfl
    · split at h
      · cases h
      · split at h
        · cases h
          exact ⟨takeBit rest s, rfl, rfl, raisedOn_raiseFault (by decide) _⟩
        · split at h
          · cases h
          · exact absurd_of_next hs ht h rfl
          · split at h
            · exact absurd_of_next hs ht h rfl
            · exact absurd_of_fault_kept hs ht (fault_kept_of_put h rfl)

/-- The degenerate path faults at a bit under an internal root, and puts only at a leaf (R212). -/
theorem decDegenerateStep_raises {r : Nat} (h : decDegenerateStep r s = .next t) :
    FaultsWithoutPut .decompress s t := by
  unfold decDegenerateStep at h
  split at h
  · exact absurd_of_next hs ht h rfl
  · rename_i tok rest _
    split at h
    · exact absurd_of_next hs ht h rfl
    · split at h
      · cases h
      · cases h
        exact ⟨takeBit rest s, rfl, rfl, raisedOn_raiseFault (by decide) _⟩
      · split at h
        · exact absurd_of_next hs ht h rfl
        · exact absurd_of_fault_kept hs ht (fault_kept_of_put h rfl)

/-! Whole commands, in any phase. -/

theorem execBuildHdr_raises (h : execBuildHdr s = .next t) : FaultsWithoutPut .buildHdr s t := by
  unfold execBuildHdr at h
  split at h
  · exact hdrLoop_raises hs ht h
  · exact (hdrStart_raises hs ht h).withoutPut

theorem execCompress_raises (h : execCompress s = .next t) : FaultsWithoutPut .compress s t := by
  unfold execCompress at h
  split at h
  · exact compressTake_raises hs ht h
  · exact absurd_of_fault_kept hs ht (compressPut_fault h)
  · exact absurd_of_fault_kept hs ht (fault_kept_of_put h rfl)
  · exact (compressStart_raises hs ht h).withoutPut

theorem execDecompress_raises (h : execDecompress s = .next t) : FaultsWithoutPut .decompress s t := by
  unfold execDecompress at h
  split at h
  · exact decGeneralStep_raises hs ht h
  · exact decDegenerateStep_raises hs ht h
  · exact absurd_of_fault_kept hs ht (fault_kept_of_put h rfl)
  · exact (decompressStart_raises hs ht h).withoutPut

theorem execEmitHdr_raises (h : execEmitHdr s = .next t) : FaultsWithoutPut .emitHdr s t := by
  unfold execEmitHdr at h
  split at h
  · exact absurd_of_fault_kept hs ht (emitByte_fault h)
  · exact absurd_of_fault_kept hs ht (fault_kept_of_put h rfl)
  · exact (emitStart_raises hs ht h).withoutPut

/-- Whatever the phase, a faulting step of a command raises one of its own causes and puts nothing (R243, R247). -/
theorem exec_raises (h : exec i s = .next t) : FaultsWithoutPut i s t := by
  cases i with
  | nop | clrFreq | discard | buildFreq | genTable => exact RaisedOn.withoutPut (startStep_raises hs ht h)
  | buildHdr => exact execBuildHdr_raises hs ht h
  | compress => exact execCompress_raises hs ht h
  | decompress => exact execDecompress_raises hs ht h
  | emitHdr => exact execEmitHdr_raises hs ht h

end

/-- Settles O21: the cause raised is one of the command's own, and its code is the low byte of ERR_CAUSE. -/
theorem commandsRaiseTheirOwnCauses : Obligations.CommandsRaiseTheirOwnCauses := by
  intro i s t he hs ht
  obtain ⟨u, -, -, c, sub, info, hc, -, rfl⟩ := exec_raises hs ht he
  rw [raiseFault_errCause, lowByte_or_shift]
  have hmem := List.mem_map_of_mem (f := fun c => ((causeCode c).extractLsb' 0 8).toNat) hc
  cases i <;> exact hmem

/-- Settles O22: the fault is raised on a state nothing was put in, and SUB is zero unless the cause is
INVALID_HEADER. -/
theorem faultEndsTheCommand : Obligations.FaultEndsTheCommand := by
  intro i s t he hs ht
  obtain ⟨u, hsnk, hout, c, sub, info, -, hsub, rfl⟩ := exec_raises hs ht he
  refine ⟨rfl, rfl, hsnk, hout, fun hne => ?_, errCause_upper c sub⟩
  rcases hsub with rfl | rfl
  · exact absurd (errCause_sub_zero c) hne
  · exact lowByte_or_shift _ _

/-- Settles O23: in START the step of the command is its start check, which raises on the state as it is. -/
theorem startCheckFaultsChangeNothingElse : Obligations.StartCheckFaultsChangeNothingElse := by
  intro i s t hph hs he ht
  have hstart : exec i s = startStep i s := by
    rw [exec_eq_phaseStep (by rw [hph]; rfl), hph]
    rfl
  obtain ⟨c, sub, info, -, -, rfl⟩ := startStep_raises hs ht (hstart.symm.trans he)
  rfl

end Sys2Proof.Machine

/-! SUPPORT. The state after reset as the host reads it, and the reset input (spec/70_reset_and_hazards.md R270, R271). -/

namespace Sys2Proof.Machine

section
variable (freq : Vector Word 256) (marker : List Byte)

/-- CT_SEL selects an entry after reset, and its VALID is 0 as that of every entry is (R59, R270). -/
theorem selectedEntry_afterReset : selectedEntry (State.afterReset freq marker) = some CtEntry.empty := rfl

/-- NODE_SEL selects no node after reset, NODE_COUNT being 0 (R54, R270). -/
theorem selectedNode_afterReset : selectedNode (State.afterReset freq marker) = none := rfl

theorem ctEntry_afterReset (y : Sym) : ctEntry (State.afterReset freq marker) y = CtEntry.empty :=
  Vector.getElem_replicate y.isLt

theorem ct_reads_zero_afterReset :
    regValue (State.afterReset freq marker) .ctInfo = 0 ∧
      ∀ k, regValue (State.afterReset freq marker) (.ctWord k) = 0 := by
  refine ct_reads_zero fun e he => ?_
  cases (selectedEntry_afterReset freq marker).symm.trans he
  rfl

/-- Every flag, LAST_OP and BUSY are 0, the last because the phase is IDLE (R34, R60, R270). -/
theorem statusWord_afterReset : statusWord (State.afterReset freq marker) = 0 := by
  simp [statusWord, State.busy, Phase.command, State.afterReset]

end

/-- Settles O6: no valid entry and no node is selected; every other register reads a field at its reset value. -/
theorem resetRegistersRead : Obligations.ResetRegistersRead := by
  intro freq marker
  obtain ⟨hinfo, hword⟩ := ct_reads_zero_afterReset freq marker
  obtain ⟨hnode, hlo, hhi, hlinks⟩ := node_reads_zero (selectedNode_afterReset freq marker)
  exact ⟨rfl, rfl, rfl, rfl, statusWord_afterReset freq marker, rfl, rfl, rfl, rfl, rfl, rfl, rfl, rfl, hinfo, hword,
    hnode, hlo, hhi, hlinks, fun y => congrArg CtEntry.valid (ctEntry_afterReset freq marker y),
    fun _ => rfl⟩

/-- Settles O7: a reset move is `hardReset`, whose FREQ contents are 256 free draws. -/
theorem resetMoveLeavesTheResetState : Obligations.ResetMoveLeavesTheResetState :=
  fun s _ hm => ⟨drawnFreq s.draws, s.draws + 256, step_act hm⟩

end Sys2Proof.Machine
